-- ==== Sys2Proof/Config.lean ====
section
/-! DEFINITION. What is fixed for the block: the parameters of `00_scope.md` R7 as named constants, and the free
values the spec leaves open (`20_memory.md` R54). R7's `LATENCY` is no model parameter. -/

namespace Sys2Proof.Config

/-- `NSYM`: the number of symbols, the byte values 0..255 (R7). -/
abbrev nsym : Nat := 256

/-- `COUNT_W`: the width of a frequency count (R7, D5). -/
abbrev countW : Nat := 32

/-- `WEIGHT_W`: the width of a node weight (R7, D5). -/
abbrev weightW : Nat := 40

/-- `REG_W`: the width of a register and of the bus (R7, D2). -/
abbrev regW : Nat := 32

/-- `MAX_NODES`: builder node arena entries, 2 x NSYM - 1 (R7). -/
abbrev maxNodes : Nat := 511

/-- `MAX_CODE_LEN`: the longest code, NSYM - 1 bits (R7). -/
abbrev maxCodeLen : Nat := 255

/-- `OBUF_CAP`: the capacity of the encoder's output bit buffer, in bits (R7, D13). -/
abbrev obufCap : Nat := 512

/-- `DOUT_CAP`: the capacity of the decoder's output byte buffer, in bytes (R7, D16). -/
abbrev doutCap : Nat := 16

/-- `WINDOW`: the size of the register window, in bytes (R7, D3). -/
abbrev windowBytes : Nat := 256

/-- FREE VALUE. The `k`-th unspecified word a host read draws while BUSY = 1 (R54, I5: "a fresh draw at each read,
under no law"). It has no body, so no proof can know it. Log 2. -/
opaque freeWord : Nat → BitVec 32

end Sys2Proof.Config
end

