-- ==== Sys2Proof/Word.lean ====
section
/-! DEFINITION. The word types of the block (`00_scope.md` R8, R9): every register is 32 bits wide unless a rule
says otherwise, and every quantity is unsigned. The widths of R7 are written out in the types, where arithmetic reads them;
the lemmas at the end tie them to the named constants of `Config`. -/

namespace Sys2Proof

/-- A register, a command word or a bus datum: 32 bits (R7 `REG_W`, R70). -/
abbrev Word := BitVec 32

/-- A frequency count: 32 bits, unsigned (R7 `COUNT_W`, R27). FREQ_WRITE takes it from ARG0 whole. -/
abbrev Count := BitVec 32

/-- A symbol, which is a byte value 0..255 (R14). -/
abbrev Sym := BitVec 8

/-- A node weight: 40 bits, unsigned (R7 `WEIGHT_W`, R28). -/
abbrev Weight := BitVec 40

/-- The index of a node in the node arena: 9 bits (R28). -/
abbrev NodeIdx := BitVec 9

/-- A bit string (R9). The head of the list is the first bit, the one the decoder consumes first (R8). -/
abbrev Bits := List Bool

/-- A code of the code table (R30). That it holds 1 to 255 bits is an invariant (R39.2), not part of the type. -/
abbrev Code := Bits

/-- A table with one entry for each of the `NSYM` symbols (R27, R30, R32). -/
abbrev Table (α : Type) := Vector α Config.nsym

theorem word_width : Word = BitVec Config.regW := rfl

theorem count_width : Count = BitVec Config.countW := rfl

theorem weight_width : Weight = BitVec Config.weightW := rfl

theorem sym_count : Config.nsym = 2 ^ 8 := rfl

end Sys2Proof
end

