-- ==== Sys2Proof/Syntax.lean ====
section
/-! DEFINITION. The commands of HTB-CMD v1, one constructor per row of `opcode_table.json` (`30_encoding.md` R76).
The fields are those of the command word. The operands ARG0 and CBUF (R81) are state, not syntax. -/

namespace Sys2Proof

/-- A command (R76). Formats F0, FS, FI and FB are R71 to R74. -/
inductive Instr where
  /-- NOP, format F0 (R200). -/
  | nop
  /-- CLR_ERR, format F0 (R201). -/
  | clrErr
  /-- SOFT_RESET, format F0 (R202). -/
  | softReset
  /-- FREQ_CLEAR, format F0 (R100). -/
  | freqClear
  /-- FREQ_WRITE SYM, format FS (R101). -/
  | freqWrite (sym : Sym)
  /-- FREQ_READ SYM, format FS (R102). -/
  | freqRead (sym : Sym)
  /-- BUILD_TREE, format F0 (R105). -/
  | buildTree
  /-- NODE_READ IDX, format FI (R109). -/
  | nodeRead (idx : NodeIdx)
  /-- GEN_CODES, format F0 (R130). -/
  | genCodes
  /-- CODE_CLEAR, format F0 (R134). -/
  | codeClear
  /-- CODE_WRITE SYM, format FS (R135). -/
  | codeWrite (sym : Sym)
  /-- CODE_READ SYM, format FS (R136). -/
  | codeRead (sym : Sym)
  /-- ENC_BYTE SYM, format FS (R150). -/
  | encByte (sym : Sym)
  /-- ENC_POP, format F0 (R151). -/
  | encPop
  /-- ENC_CLEAR, format F0 (R152). -/
  | encClear
  /-- DEC_LOAD, format F0 (R170). -/
  | decLoad
  /-- DEC_START, format F0 (R173). -/
  | decStart
  /-- DEC_BITS N, BITS, format FB (R174). -/
  | decBits (n : BitVec 4) (bits : BitVec 8)
  /-- DEC_POP, format F0 (R177). -/
  | decPop
  /-- DEC_END, format F0 (R178). -/
  | decEnd
  deriving DecidableEq, Repr

end Sys2Proof
end

