-- ==== Sys2Proof/Machine/State.lean ====
section
/-! DEFINITION. The machine's state (`10_state.md`), its reset value (R40), and why a step can stop (`60_exceptions.md`
R225). The block's elements come first; the last three fields are the model's own. -/

namespace Sys2Proof.Machine

/-- A node of the builder tree: the tagged variant of R28. -/
inductive Node where
  /-- `Leaf(sym, weight)`. -/
  | leaf (sym : Sym) (weight : Weight)
  /-- `Internal(weight, zero, one)`: followed to `zero` on bit 0 and to `one` on bit 1. -/
  | internal (weight : Weight) (zero one : NodeIdx)
  deriving DecidableEq, Repr

/-- The builder tree (R28): the node arena and the root index, none for an empty alphabet (R107). -/
structure BTree where
  nodes : List Node
  root : Option NodeIdx
  deriving DecidableEq, Repr

/-- A command accepted and not yet executed, with ARG0 and CBUF0..7 as they stood when CMD was written (R26). -/
structure Pending where
  cmd : Word
  a0 : Word
  cb : Vector Word 8
  deriving DecidableEq, Repr

/-- The codes STATUS.ERR can hold (R212). -/
inductive ErrCode where
  | illegalCmd
  | cmdBusy
  | badIndex
  | badArg
  | noTree
  | noCode
  | obufFull
  | codeConflict
  | noDtree
  | badPath
  | doutFull
  | truncated
  deriving DecidableEq, Repr

/-- One turn of the schedule (R20): who acts next. Offsets and sizes are those of a bus request (R50), which need not
be one the window admits. Log 1. -/
inductive Turn where
  /-- The engine's turn: it executes the pending command, if there is one (R211). -/
  | engine
  /-- The host's `MemWrite(offset, size, value)`. -/
  | hostWrite (offset size : Nat) (value : Word)
  /-- The host's `MemRead(offset, size)`. -/
  | hostRead (offset size : Nat)
  /-- The platform's hardware reset takes effect (R240). -/
  | hardwareReset
  deriving DecidableEq, Repr

/-- A value the host read, and where (R252). -/
structure ReadRecord where
  offset : Nat
  value : Word
  deriving DecidableEq, Repr

/-- The state of the machine. -/
structure State where
  /-- ARG0 (R21). -/
  arg0 : Word
  /-- CBUF0..CBUF7 (R22). -/
  cbuf : Vector Word 8
  /-- RES0 (R23). -/
  res0 : Word
  /-- RES1 (R23). -/
  res1 : Word
  /-- RES2 (R23). -/
  res2 : Word
  /-- STATUS.ERR (R25). -/
  err : BitVec 4
  /-- The accepted command not yet executed (R26); STATUS.BUSY is its view. -/
  pending : Option Pending
  /-- The frequency table (R27). -/
  freq : Table Count
  /-- The builder tree (R28). -/
  btree : Option BTree
  /-- The code table (R30). -/
  code : Table (Option Code)
  /-- The encoder's output bit buffer, its front first (R31). -/
  obuf : Bits
  /-- The decoder table (R32). -/
  dcode : Option (Table (Option Code))
  /-- The bits consumed since the last emitted symbol (R33). -/
  dpath : Bits
  /-- DCOUNT (R34). -/
  dcount : Word
  /-- DTARGET (R34). -/
  dtarget : Word
  /-- The decoder's output byte buffer, its front first (R35). -/
  dout : List Sym
  /-- The model's own: the turns still to come (R20, R59). Log 1. -/
  agenda : List Turn
  /-- The model's own: the values the host has read, oldest first (R252). Log 5. -/
  hostReads : List ReadRecord
  /-- The model's own: how many free values have been drawn (R54). Log 2. -/
  draws : Nat
  deriving DecidableEq, Repr

/-- The state right after hardware reset (R40), with nothing scheduled, nothing read and nothing drawn. -/
def State.reset : State where
  arg0 := 0
  cbuf := Vector.replicate 8 0
  res0 := 0
  res1 := 0
  res2 := 0
  err := 0
  pending := none
  freq := Vector.replicate Config.nsym 0
  btree := none
  code := Vector.replicate Config.nsym none
  obuf := []
  dcode := none
  dpath := []
  dcount := 0
  dtarget := 0
  dout := []
  agenda := []
  hostReads := []
  draws := 0

/-- Why a run stops. -/
inductive Fault where
  /-- Raised by a step whose next turn is a bus request the window does not admit (R50, I6), once nothing is pending
  for the engine: the host has no step and the engine has none. Safe: the block's state is unchanged. Log 4. -/
  | hostStuck (offset size : Nat)
  /-- Raised by the engine's turn when the pending word is not legal. Acceptance never leaves such a word pending
  (R210), so no run reaches it: a model's assertion in the sense of R39. Safe. Log 7. -/
  | pendingNotLegal (cmd : Word)
  deriving DecidableEq, Repr

/-- Why a command has no meaning. R225: nothing inside the block is refused. -/
inductive Refusal where
  /-- Raised by an arm of `exec` whose command has no meaning yet. No arm raises it. Safe. -/
  | notModelled (mnemonic : String)
  deriving DecidableEq, Repr

/-- The outcome of a step. -/
abbrev Result := Host.Outcome State Fault Refusal

end Sys2Proof.Machine
end

