-- ==== Sys2Proof/Machine/Ops.lean ====
section
/-! DEFINITION. The named operations over the tables, the bit strings and the registers, and recording an error
(`60_exceptions.md` R211) with the two ways back from one. -/

namespace Sys2Proof

/-- The `NSYM` symbols in ascending order. -/
def allSyms : List Sym := (List.range Config.nsym).map (BitVec.ofNat 8)

/-- The entry of a symbol: `t[s]` of R10. -/
def Table.lookup {α : Type} (t : Table α) (s : Sym) : α := t[s.toNat]'s.isLt

/-- The table with one entry replaced: `t[s] <- a` of R10. -/
def Table.update {α : Type} (t : Table α) (s : Sym) (a : α) : Table α := t.set s.toNat a s.isLt

/-- The table with one value for every symbol. -/
def Table.const {α : Type} (a : α) : Table α := Vector.replicate Config.nsym a

/-- The entries of a table with their symbols, in ascending order. -/
def Table.entries {α : Type} (t : Table α) : List (Sym × α) := allSyms.zip t.toList

/-- `isPrefix(a, b)` (R9). -/
def isPrefix (a b : Bits) : Bool := decide (a.length ≤ b.length) && b.take a.length == a

/-- `isProperPrefix(a, b)` (R9). -/
def isProperPrefix (a b : Bits) : Bool := decide (a.length < b.length) && isPrefix a b

namespace Machine

/-! ### Errors -/

/-- The number of an error code (R212). -/
def ErrCode.num : ErrCode → BitVec 4
  | .illegalCmd => 1
  | .cmdBusy => 2
  | .badIndex => 3
  | .badArg => 4
  | .noTree => 5
  | .noCode => 6
  | .obufFull => 7
  | .codeConflict => 8
  | .noDtree => 9
  | .badPath => 10
  | .doutFull => 11
  | .truncated => 12

/-- Recording an error: `if err = 0: err <- E` (R210, R211). The first error is kept (R25), and nothing else is
saved, masked or transferred (R217). -/
def State.recordErr (e : ErrCode) (s : State) : State :=
  { s with err := if s.err = 0 then e.num else s.err }

/-- The return from an error by CLR_ERR (R201, R217): `err <- 0`. -/
def State.clearErr (s : State) : State := { s with err := 0 }

/-- Every element of the block at its reset value (R40), for hardware reset (R240) and for SOFT_RESET (R202), which
is the other return from an error (R217). The model's own fields are no elements of the block and stay: log 9. -/
def State.resetBlock (s : State) : State :=
  { State.reset with agenda := s.agenda, hostReads := s.hostReads, draws := s.draws }

/-- A command that reaches `raise Error(E)`: none of its writes take effect and the error is recorded (R211). -/
def raise (e : ErrCode) (s : State) : Result := .next (s.recordErr e)

/-! ### Registers and buffers -/

/-- RES0, RES1 and RES2 together: each read command writes all three (R23). -/
def State.setRes (r0 r1 r2 : Word) (s : State) : State := { s with res0 := r0, res1 := r1, res2 := r2 }

/-- A host write of ARG0 (R53). -/
def State.setArg0 (v : Word) (s : State) : State := { s with arg0 := v }

/-- CBUF0..CBUF7 together (R22). -/
def State.setCbuf (c : Vector Word 8) (s : State) : State := { s with cbuf := c }

/-- A new frequency table, which discards the builder tree (R100, R101, D36). -/
def State.setFreq (f : Table Count) (s : State) : State := { s with freq := f, btree := none }

/-- A new builder tree (R105). -/
def State.setTree (t : BTree) (s : State) : State := { s with btree := some t }

/-- A new code table (R30). -/
def State.setCode (c : Table (Option Code)) (s : State) : State := { s with code := c }

/-- A new content of the encoder's output bit buffer (R31). -/
def State.setObuf (b : Bits) (s : State) : State := { s with obuf := b }

/-- The decoder restarted with a target: at the root, nothing counted, nothing buffered (R170, R173). -/
def State.restartDecoder (target : Word) (s : State) : State :=
  { s with dpath := [], dcount := 0, dtarget := target, dout := [] }

/-- A new decoder table (R170). -/
def State.setDcode (d : Table (Option Code)) (s : State) : State := { s with dcode := some d }

/-- The decoder's progress after some bits (R174). -/
def State.setProgress (path : Bits) (count : Word) (out : List Sym) (s : State) : State :=
  { s with dpath := path, dcount := count, dout := out }

/-- A new content of the decoder's output byte buffer (R35). -/
def State.setDout (d : List Sym) (s : State) : State := { s with dout := d }

/-- The pending command (R26). -/
def State.setPending (p : Option Pending) (s : State) : State := { s with pending := p }

/-! ### The model's own fields -/

/-- The turns still to come. -/
def State.setAgenda (a : List Turn) (s : State) : State := { s with agenda := a }

/-- A value the host has read (R252). -/
def State.logRead (offset : Nat) (v : Word) (s : State) : State := { s with hostReads := s.hostReads ++ [⟨offset, v⟩] }

/-- One free value drawn (R54). -/
def State.bumpDraws (s : State) : State := { s with draws := s.draws + 1 }

end Machine

end Sys2Proof
end

