-- ==== Sys2Proof/Machine/Operands.lean ====
section
/-! DEFINITION. Where a command's operands come from and how bit strings lie in registers (`30_encoding.md` R81,
`00_scope.md` R11). The fields of the command word are in `Decode`. -/

namespace Sys2Proof

/-- The value of `w` bits whose first bits, from bit `w - 1` downward, are those of `b`; the bits beyond `b` are 0,
and the bits of `b` beyond `w` are left out. This is the one placement of bit strings in registers (R55). -/
def bitsVal : (w : Nat) → Bits → Nat
  | 0, _ => 0
  | _ + 1, [] => 0
  | w + 1, b :: bs => (if b then 2 ^ w else 0) + bitsVal w bs

/-- A bit string laid into `w` bits, first bit at bit `w - 1`. -/
def packBits (w : Nat) (b : Bits) : BitVec w := BitVec.ofNat w (bitsVal w b)

/-- The code bits in CBUF: bit `i` of the code is `CB[i div 32][31 - (i mod 32)]`, for `i` below the length (R81,
R135). -/
def codeOfCbuf (cb : Vector Word 8) (len : Nat) : Code :=
  (List.range len).map fun i => (cb[i / 32]?.getD 0).getLsbD (31 - i % 32)

/-- CBUF0..CBUF7 holding a code in the same layout, the bits beyond its length 0 (R136). -/
def cbufOfCode (c : Code) : Vector Word 8 := Vector.ofFn fun j => packBits 32 (c.drop (32 * j.val))

/-- The bits DEC_BITS consumes, in order: `BITS[7], BITS[6], ..., BITS[8 - N]` (R74, R174). -/
def consumedBits (n : BitVec 4) (bits : BitVec 8) : Bits :=
  ((List.range 8).map fun j => bits.getLsbD (7 - j)).take n.toNat

/-- LEN of CODE_WRITE: `A0[7:0]` (R81). -/
def fieldLen (a0 : Word) : BitVec 8 := a0.extractLsb' 0 8

/-- `A0[31:8]`, which CODE_WRITE requires to be 0 (R81). -/
def fieldLenHigh (a0 : Word) : BitVec 24 := a0.extractLsb' 8 24

namespace Machine

/-- `A0`, the value of ARG0 latched when the command was accepted (R11, R26). With no command pending, which is when
the engine has no step, it is the value that acceptance would latch: log 6. -/
def State.opA0 (s : State) : Word :=
  match s.pending with
  | some p => p.a0
  | none => s.arg0

/-- `CB[0..7]`, latched like `A0` (R11, R26). Log 6. -/
def State.opCb (s : State) : Vector Word 8 :=
  match s.pending with
  | some p => p.cb
  | none => s.cbuf

end Machine

end Sys2Proof
end

