-- ==== Sys2Proof/Machine/CodeTable.lean ====
section
/-! DEFINITION. The code table commands (`42_code_table.md`): GEN_CODES, CODE_CLEAR, CODE_WRITE and CODE_READ. -/

namespace Sys2Proof.Machine

/-- The traversal `visit(n, acc)` of R131 over a node arena, writing into `new`. A child lies below its parent in the
arena (R39.1), so `fuel = n + 1` levels are enough. Log 12. -/
def visit (nodes : List Node) : (fuel : Nat) → (n : Nat) → (acc : Code) → Table (Option Code) → Table (Option Code)
  | 0, _, _, new => new
  | fuel + 1, n, acc, new =>
    match nodes[n]? with
    | none => new
    | some (.leaf s _) => new.update s (some acc)
    | some (.internal _ z o) =>
      visit nodes fuel o.toNat (acc ++ [true]) (visit nodes fuel z.toNat (acc ++ [false]) new)

/-- The codes of a tree (R130): none without a root (R133), "0" for a root that is a leaf (R132), else the
traversal from the root (R131). -/
def codesOf (t : BTree) : Table (Option Code) :=
  match t.root with
  | none => Table.const none
  | some r =>
    match t.nodes[r.toNat]? with
    | some (.leaf s _) => (Table.const none).update s (some [false])
    | _ => visit t.nodes (r.toNat + 1) r.toNat [] (Table.const none)

/-- GEN_CODES (R130): NO_TREE when TV = 0. -/
def execGenCodes (s : State) : Result :=
  match s.btree with
  | none => raise .noTree s
  | some t => .next (s.setCode (codesOf t))

/-- CODE_CLEAR (R134). -/
def execCodeClear (s : State) : Result := .next (s.setCode (Table.const none))

/-- The entry CODE_WRITE stores (R135): LEN = 0 removes the entry. -/
def codeEntry (len : BitVec 8) (cb : Vector Word 8) : Option Code :=
  if len = 0 then none else some (codeOfCbuf cb len.toNat)

/-- CODE_WRITE (R135): BAD_ARG when any of A0[31:8] is 1. -/
def execCodeWrite (sym : Sym) (s : State) : Result :=
  if fieldLenHigh s.opA0 ≠ 0 then raise .badArg s
  else .next (s.setCode (s.code.update sym (codeEntry (fieldLen s.opA0) s.opCb)))

/-- RES0 of CODE_READ (R136): [8] PRESENT, [7:0] LEN. -/
def codeRes0 : Option Code → Word
  | none => 0
  | some c => (0 : BitVec 23) ++ ((1 : BitVec 1) ++ BitVec.ofNat 8 c.length)

/-- CODE_READ (R136): an absent entry reads as the empty bit string in CBUF. -/
def execCodeRead (sym : Sym) (s : State) : Result :=
  .next ((s.setRes (codeRes0 (s.code.lookup sym)) 0 0).setCbuf (cbufOfCode ((s.code.lookup sym).getD [])))

end Sys2Proof.Machine
end

