-- ==== Sys2Proof/Machine/Control.lean ====
section
/-! DEFINITION. The control commands (`45_control.md`): NOP, CLR_ERR and SOFT_RESET. -/

namespace Sys2Proof.Machine

/-- NOP (R200). -/
def execNop (s : State) : Result := .next s

/-- CLR_ERR (R201). -/
def execClrErr (s : State) : Result := .next s.clearErr

/-- SOFT_RESET (R202). -/
def execSoftReset (s : State) : Result := .next s.resetBlock

end Sys2Proof.Machine
end

