-- ==== Sys2Proof/Machine/Decoder.lean ====
section
/-! DEFINITION. The decoder commands (`44_decoder.md`): DEC_LOAD, DEC_START, DEC_BITS, DEC_POP and DEC_END, with the
prefix check of R171 and the decoding of one bit of R175. -/

namespace Sys2Proof.Machine

/-! ### Loading and starting -/

/-- Two codes conflict when one is a prefix of, or equal to, the other (R171). -/
def codesConflict (a b : Code) : Bool := isPrefix a b || isPrefix b a

/-- Some two of the listed codes conflict. -/
def anyConflict : List Code → Bool
  | [] => false
  | c :: cs => cs.any (codesConflict c) || anyConflict cs

/-- The present codes of a table, in symbol order. -/
def presentCodes (t : Table (Option Code)) : List Code := t.entries.filterMap fun e => e.2

/-- DEC_LOAD (R170): CODE_CONFLICT when the table lacks the prefix property (R171). -/
def execDecLoad (s : State) : Result :=
  if anyConflict (presentCodes s.code) then raise .codeConflict s
  else .next ((s.setDcode s.code).restartDecoder 0)

/-- DEC_START (R173): NO_DTREE when DV = 0. -/
def execDecStart (s : State) : Result :=
  match s.dcode with
  | none => raise .noDtree s
  | some _ => .next (s.restartDecoder s.opA0)

/-! ### Decoding -/

/-- The symbol whose code is `q`, unique in a table with the prefix property (R175, R39.3). Log 13. -/
def symOfPath (d : Table (Option Code)) (q : Bits) : Option Sym :=
  (d.entries.find? fun e => e.2 == some q).map fun e => e.1

/-- Some present code has `q` as a proper prefix: the landed node is an internal placeholder (R175). -/
def onPath (d : Table (Option Code)) (q : Bits) : Bool :=
  (presentCodes d).any (isProperPrefix q)

/-- The progress of the decoder inside a command: path, count and the bytes buffered (R174). -/
structure Progress where
  path : Bits
  count : Word
  out : List Sym
  deriving DecidableEq, Repr

/-- `step(p, c, b)` of R175 with the emitted symbol appended (R174); none is `fail`. -/
def decodeBit (d : Table (Option Code)) (target : Word) (p : Progress) (b : Bool) : Option Progress :=
  if p.count = target then some p
  else
    match symOfPath d (p.path ++ [b]) with
    | some s => some ⟨[], p.count + 1, p.out ++ [s]⟩
    | none => if onPath d (p.path ++ [b]) then some ⟨p.path ++ [b], p.count, p.out⟩ else none

/-- The loop of R174 over the consumed bits, stopping at the first failing bit. -/
def decodeBits (d : Table (Option Code)) (target : Word) : Progress → Bits → Option Progress
  | p, [] => some p
  | p, b :: bs =>
    match decodeBit d target p b with
    | none => none
    | some p' => decodeBits d target p' bs

/-- DEC_BITS (R174): NO_DTREE, then DOUT_FULL, then BAD_PATH (R216). -/
def execDecBits (n : BitVec 4) (bits : BitVec 8) (s : State) : Result :=
  match s.dcode with
  | none => raise .noDtree s
  | some d =>
    if s.dout.length + n.toNat > Config.doutCap then raise .doutFull s
    else
      match decodeBits d s.dtarget ⟨s.dpath, s.dcount, s.dout⟩ (consumedBits n bits) with
      | none => raise .badPath s
      | some p => .next (s.setProgress p.path p.count p.out)

/-! ### Draining and ending -/

/-- RES0 of DEC_POP (R177): [8] VALID, [7:0] BYTE. -/
def popByteRes0 : List Sym → Word
  | [] => 0
  | b :: _ => (0 : BitVec 23) ++ ((1 : BitVec 1) ++ b)

/-- DEC_POP (R177). -/
def execDecPop (s : State) : Result := .next ((s.setDout (s.dout.drop 1)).setRes (popByteRes0 s.dout) 0 0)

/-- DEC_END (R178): NO_DTREE, then TRUNCATED (R216). -/
def execDecEnd (s : State) : Result :=
  match s.dcode with
  | none => raise .noDtree s
  | some _ => if s.dcount.toNat < s.dtarget.toNat then raise .truncated s else .next s

end Sys2Proof.Machine
end

