-- ==== Sys2Proof/Machine/Encoder.lean ====
section
/-! DEFINITION. The encoder commands (`43_encoder.md`): ENC_BYTE, ENC_POP and ENC_CLEAR. -/

namespace Sys2Proof.Machine

/-- ENC_BYTE (R150): NO_CODE, then OBUF_FULL (R216). -/
def execEncByte (sym : Sym) (s : State) : Result :=
  match s.code.lookup sym with
  | none => raise .noCode s
  | some c =>
    if s.obuf.length + c.length > Config.obufCap then raise .obufFull s else .next (s.setObuf (s.obuf ++ c))

/-- RES0 of ENC_POP (R151): [11:8] NBITS, [7:0] BITS, the first bit at bit 7 and the unused low bits 0. -/
def popRes0 (b : Bits) : Word := (0 : BitVec 20) ++ (BitVec.ofNat 4 b.length ++ packBits 8 b)

/-- ENC_POP (R151). -/
def execEncPop (s : State) : Result :=
  .next ((s.setObuf (s.obuf.drop 8)).setRes (popRes0 (s.obuf.take 8)) 0 0)

/-- ENC_CLEAR (R152). -/
def execEncClear (s : State) : Result := .next (s.setObuf [])

end Sys2Proof.Machine
end

