-- ==== Sys2Proof/Machine/TreeBuilder.lean ====
section
/-! DEFINITION. The tree builder commands (`41_tree_builder.md`): FREQ_CLEAR, FREQ_WRITE, FREQ_READ, BUILD_TREE and
NODE_READ, with the algorithm of R103 to R108. -/

namespace Sys2Proof.Machine

/-! ### The frequency table -/

/-- FREQ_CLEAR (R100). -/
def execFreqClear (s : State) : Result := .next (s.setFreq (Table.const 0))

/-- FREQ_WRITE (R101). -/
def execFreqWrite (sym : Sym) (s : State) : Result := .next (s.setFreq (s.freq.update sym s.opA0))

/-- FREQ_READ (R102). -/
def execFreqRead (sym : Sym) (s : State) : Result := .next (s.setRes (s.freq.lookup sym) 0 0)

/-! ### The Huffman tree -/

/-- The weight of a node (R14). -/
def Node.weight : Node → Weight
  | .leaf _ w => w
  | .internal w _ _ => w

/-- A pair of the min-priority ordering (R104). -/
structure QItem where
  weight : Weight
  index : Nat
  deriving DecidableEq, Repr

/-- The ordering of R104: by weight, and among equal weights by node index. -/
def QItem.le (a b : QItem) : Bool :=
  decide (a.weight.toNat < b.weight.toNat) || (a.weight == b.weight && decide (a.index ≤ b.index))

/-- `extractMin` (R104): the smallest pair and the rest. -/
def extractMin : List QItem → Option (QItem × List QItem)
  | [] => none
  | x :: xs =>
    match extractMin xs with
    | none => some (x, [])
    | some (m, rest) => if x.le m then some (x, xs) else some (m, x :: rest)

/-- The merge loop of R105: while two pairs are left, the two smallest become the zero-branch and the one-branch of a
new internal node (R106) whose weight is their sum (R108). Each round leaves one pair less, so `fuel = |Q|` rounds
are enough. -/
def mergeLoop : (fuel : Nat) → List Node → List QItem → List Node
  | 0, nodes, _ => nodes
  | fuel + 1, nodes, q =>
    match extractMin q with
    | none => nodes
    | some (a, q1) =>
      match extractMin q1 with
      | none => nodes
      | some (b, q2) =>
        let w := a.weight + b.weight
        mergeLoop fuel (nodes ++ [.internal w (BitVec.ofNat 9 a.index) (BitVec.ofNat 9 b.index)])
          (⟨w, nodes.length⟩ :: q2)

/-- The alphabet: the symbols with a count above 0, in ascending order (R103). -/
def alphabet (freq : Table Count) : List Sym := (freq.entries.filter fun e => e.2 != 0).map fun e => e.1

/-- The weight of a leaf: its count, zero-extended (R108). -/
def leafWeight (n : Count) : Weight := n.setWidth Config.weightW

/-- The leaves, one per symbol of the alphabet: leaf `i` has index `i` (R105, R108). -/
def leavesOf (freq : Table Count) : List Node :=
  (alphabet freq).map fun s => .leaf s (leafWeight (freq.lookup s))

/-- The pairs of the leaves (R105). -/
def queueOf (leaves : List Node) : List QItem := leaves.zipIdx.map fun p => ⟨p.1.weight, p.2⟩

/-- The node arena of R105. For at most one leaf the loop does not run, which gives R107's arenas of an empty and of a
single-symbol alphabet. -/
def buildNodes (freq : Table Count) : List Node :=
  mergeLoop (leavesOf freq).length (leavesOf freq) (queueOf (leavesOf freq))

/-- The tree of R105: the root is the last node created, and an empty arena has none (R107). -/
def buildTree (freq : Table Count) : BTree :=
  { nodes := buildNodes freq
    root := if buildNodes freq = [] then none else some (BitVec.ofNat 9 ((buildNodes freq).length - 1)) }

/-- BUILD_TREE (R105). -/
def execBuildTree (s : State) : Result := .next (s.setTree (buildTree s.freq))

/-! ### Reading a node -/

/-- RES0 of NODE_READ (R109): [31] LEAF, [23:16] WEIGHT[39:32], [7:0] SYM of a leaf. -/
def Node.res0 : Node → Word
  | .leaf s w => (1 : BitVec 1) ++ ((0 : BitVec 7) ++ (w.extractLsb' 32 8 ++ ((0 : BitVec 8) ++ s)))
  | .internal w _ _ => (0 : BitVec 8) ++ (w.extractLsb' 32 8 ++ (0 : BitVec 16))

/-- RES1 of NODE_READ (R109): [24:16] ONE, [8:0] ZERO, both 0 for a leaf. -/
def Node.res1 : Node → Word
  | .leaf _ _ => 0
  | .internal _ z o => (0 : BitVec 7) ++ (o ++ ((0 : BitVec 7) ++ z))

/-- RES2 of NODE_READ (R109): WEIGHT[31:0]. -/
def Node.res2 (n : Node) : Word := n.weight.extractLsb' 0 32

/-- The node at an index of the builder tree, if the tree exists and has one there (R109). -/
def State.nodeAt (s : State) (idx : NodeIdx) : Option Node := s.btree.bind fun t => t.nodes[idx.toNat]?

/-- NODE_READ (R109): BAD_INDEX when TV = 0 or IDX >= NCOUNT. -/
def execNodeRead (idx : NodeIdx) (s : State) : Result :=
  match s.nodeAt idx with
  | none => raise .badIndex s
  | some n => .next (s.setRes n.res0 n.res1 n.res2)

end Sys2Proof.Machine
end

