-- ==== Sys2Proof/Machine/Dispatch.lean ====
section
/-! DEFINITION. The meaning of each command (`60_exceptions.md` R211: executed "by its rule in files 41-45"). -/

namespace Sys2Proof.Machine

def exec (i : Instr) (s : State) : Host.Outcome State Fault Refusal :=
  match i with
  | .nop => Sys2Proof.Machine.execNop s
  | .clrErr => Sys2Proof.Machine.execClrErr s
  | .softReset => Sys2Proof.Machine.execSoftReset s
  | .freqClear => Sys2Proof.Machine.execFreqClear s
  | .freqWrite sym => Sys2Proof.Machine.execFreqWrite sym s
  | .freqRead sym => Sys2Proof.Machine.execFreqRead sym s
  | .buildTree => Sys2Proof.Machine.execBuildTree s
  | .nodeRead idx => Sys2Proof.Machine.execNodeRead idx s
  | .genCodes => Sys2Proof.Machine.execGenCodes s
  | .codeClear => Sys2Proof.Machine.execCodeClear s
  | .codeWrite sym => Sys2Proof.Machine.execCodeWrite sym s
  | .codeRead sym => Sys2Proof.Machine.execCodeRead sym s
  | .encByte sym => Sys2Proof.Machine.execEncByte sym s
  | .encPop => Sys2Proof.Machine.execEncPop s
  | .encClear => Sys2Proof.Machine.execEncClear s
  | .decLoad => Sys2Proof.Machine.execDecLoad s
  | .decStart => Sys2Proof.Machine.execDecStart s
  | .decBits n bits => Sys2Proof.Machine.execDecBits n bits s
  | .decPop => Sys2Proof.Machine.execDecPop s
  | .decEnd => Sys2Proof.Machine.execDecEnd s

end Sys2Proof.Machine
end

