-- ==== Sys2Proof/WellFormed.lean ====
section
/-! DEFINITION. Which instructions a legal command word can stand for (`30_encoding.md` R75). -/

namespace Sys2Proof

/-- R74, R75: format FB is legal only for `1 <= N <= 8`. Every other field admits every value of its width. -/
def Instr.wf : Instr → Bool
  | .decBits n _ => decide (1 ≤ n.toNat ∧ n.toNat ≤ 8)
  | .nop | .clrErr | .softReset | .freqClear | .freqWrite _ | .freqRead _ | .buildTree | .nodeRead _ | .genCodes
  | .codeClear | .codeWrite _ | .codeRead _ | .encByte _ | .encPop | .encClear | .decLoad | .decStart | .decPop
  | .decEnd => true

end Sys2Proof
end

