-- ==== Sys2Proof/Decode.lean ====
section
/-! DEFINITION. The command word (`30_encoding.md` R70 to R78): its fields, the decoder, total on every 32-bit word
and rejecting by name, and the encoder, written from the same tables. A command is one 32-bit word moved whole, and
the block has no byte order (R55, R70), so the decoder reads a word and not a list of bytes. -/

namespace Sys2Proof

/-- Why a word is illegal (R75). Acceptance records ILLEGAL_CMD for each of them (R210). -/
inductive DecodeError where
  /-- OPC is none of the 20 assigned opcodes (R77). -/
  | reservedOpcode
  /-- A bit that the opcode's format marks "must be 0" is 1 (R71 to R74). -/
  | nonzeroReserved
  /-- Format FB with N outside 1..8 (R74). -/
  | badBitCount
  deriving DecidableEq, Repr

/-- Bits [31:24], the opcode field (R70). -/
def fieldOpc (w : Word) : BitVec 8 := w.extractLsb' 24 8

/-- Bits [7:0], SYM of format FS (R72). -/
def fieldSym (w : Word) : Sym := w.extractLsb' 0 8

/-- Bits [8:0], IDX of format FI (R73). -/
def fieldIdx (w : Word) : NodeIdx := w.extractLsb' 0 9

/-- Bits [19:16], N of format FB (R74). -/
def fieldN (w : Word) : BitVec 4 := w.extractLsb' 16 4

/-- Bits [7:0], BITS of format FB (R74). -/
def fieldBits (w : Word) : BitVec 8 := w.extractLsb' 0 8

/-- Format F0 (R71): bits [23:0] must be 0. -/
def decodeF0 (i : Instr) (w : Word) : Except DecodeError Instr :=
  if w.extractLsb' 0 24 = 0 then .ok i else .error .nonzeroReserved

/-- Format FS (R72): bits [23:8] must be 0. -/
def decodeFS (mk : Sym → Instr) (w : Word) : Except DecodeError Instr :=
  if w.extractLsb' 8 16 = 0 then .ok (mk (fieldSym w)) else .error .nonzeroReserved

/-- Format FI (R73): bits [23:9] must be 0. -/
def decodeFI (mk : NodeIdx → Instr) (w : Word) : Except DecodeError Instr :=
  if w.extractLsb' 9 15 = 0 then .ok (mk (fieldIdx w)) else .error .nonzeroReserved

/-- Format FB (R74): bits [23:20] and [15:8] must be 0, and `1 <= N <= 8`. -/
def decodeFB (mk : BitVec 4 → BitVec 8 → Instr) (w : Word) : Except DecodeError Instr :=
  if w.extractLsb' 20 4 = 0 ∧ w.extractLsb' 8 8 = 0 then
    if 1 ≤ (fieldN w).toNat ∧ (fieldN w).toNat ≤ 8 then .ok (mk (fieldN w) (fieldBits w)) else .error .badBitCount
  else .error .nonzeroReserved

/-- The opcode map of R76: how a word with a given opcode is read. Every other opcode is reserved (R77). -/
def decodeOpc (opc : Nat) (w : Word) : Except DecodeError Instr :=
  match opc with
  | 0x00 => decodeF0 .nop w
  | 0x01 => decodeF0 .clrErr w
  | 0x02 => decodeF0 .softReset w
  | 0x10 => decodeF0 .freqClear w
  | 0x11 => decodeFS .freqWrite w
  | 0x12 => decodeFS .freqRead w
  | 0x13 => decodeF0 .buildTree w
  | 0x14 => decodeFI .nodeRead w
  | 0x20 => decodeF0 .genCodes w
  | 0x21 => decodeF0 .codeClear w
  | 0x22 => decodeFS .codeWrite w
  | 0x23 => decodeFS .codeRead w
  | 0x30 => decodeFS .encByte w
  | 0x31 => decodeF0 .encPop w
  | 0x32 => decodeF0 .encClear w
  | 0x40 => decodeF0 .decLoad w
  | 0x41 => decodeF0 .decStart w
  | 0x42 => decodeFB .decBits w
  | 0x43 => decodeF0 .decPop w
  | 0x44 => decodeF0 .decEnd w
  | _ => .error .reservedOpcode

/-- The decoder. No state changes how a word decodes (R78). -/
def decode (w : Word) : Except DecodeError Instr := decodeOpc (fieldOpc w).toNat w

/-- A word is legal when it decodes (R75). -/
def legal (w : Word) : Bool := (decode w).isOk

/-! ### The encoder -/

/-- Format F0 (R71). -/
def encodeF0 (opc : BitVec 8) : Word := opc ++ (0 : BitVec 24)

/-- Format FS (R72). -/
def encodeFS (opc : BitVec 8) (sym : Sym) : Word := opc ++ ((0 : BitVec 16) ++ sym)

/-- Format FI (R73). -/
def encodeFI (opc : BitVec 8) (idx : NodeIdx) : Word := opc ++ ((0 : BitVec 15) ++ idx)

/-- Format FB (R74). -/
def encodeFB (opc : BitVec 8) (n : BitVec 4) (bits : BitVec 8) : Word :=
  opc ++ ((0 : BitVec 4) ++ (n ++ ((0 : BitVec 8) ++ bits)))

/-- The command word of an instruction (R71 to R76). -/
def encode : Instr → Word
  | .nop => encodeF0 0x00
  | .clrErr => encodeF0 0x01
  | .softReset => encodeF0 0x02
  | .freqClear => encodeF0 0x10
  | .freqWrite s => encodeFS 0x11 s
  | .freqRead s => encodeFS 0x12 s
  | .buildTree => encodeF0 0x13
  | .nodeRead i => encodeFI 0x14 i
  | .genCodes => encodeF0 0x20
  | .codeClear => encodeF0 0x21
  | .codeWrite s => encodeFS 0x22 s
  | .codeRead s => encodeFS 0x23 s
  | .encByte s => encodeFS 0x30 s
  | .encPop => encodeF0 0x31
  | .encClear => encodeF0 0x32
  | .decLoad => encodeF0 0x40
  | .decStart => encodeF0 0x41
  | .decBits n b => encodeFB 0x42 n b
  | .decPop => encodeF0 0x43
  | .decEnd => encodeF0 0x44

/-- The instruction the decoder reads from an instruction whose `nbits` bits are `w`, bit 0 the least significant
bit of the word. Every command is one 32-bit word (R70), and the bits above `nbits` are 0. -/
def decodeTableWord (nbits w : Nat) : Option Instr :=
  if nbits ≤ 32 then (decode (BitVec.ofNat 32 (w % 2 ^ nbits))).toOption else none

end Sys2Proof
end

