-- ==== Sys2Proof/Machine/Flags.lean ====
section
/-! DEFINITION. The block's only flags, which are views of its state: the fields of STATUS (`10_state.md` R24), of
TREEINFO (R29) and of BUFINFO (R36). -/

namespace Sys2Proof.Machine

/-- STATUS.BUSY: `pending != none` (R24). -/
def State.busy (s : State) : Bool := s.pending.isSome

/-- STATUS.TV: `btree != none` (R24). -/
def State.tv (s : State) : Bool := s.btree.isSome

/-- STATUS.DV: `dcode != none` (R24). -/
def State.dv (s : State) : Bool := s.dcode.isSome

/-- STATUS.DDONE: DV = 1 and `dcount = dtarget` (R24). -/
def State.ddone (s : State) : Bool := s.dv && s.dcount == s.dtarget

/-- STATUS from its fields: [31:8] reserved, [7:4] ERR, [3:1] the three views DDONE, DV, TV, [0] BUSY (R24). -/
def packStatus (err : BitVec 4) (views : BitVec 3) (busy : Bool) : Word :=
  (0 : BitVec 24) ++ (err ++ (views ++ BitVec.ofBool busy))

/-- STATUS[3:1]: DDONE, DV and TV (R24). -/
def State.statusViews (s : State) : BitVec 3 :=
  BitVec.ofBool s.ddone ++ (BitVec.ofBool s.dv ++ BitVec.ofBool s.tv)

/-- STATUS (R24). -/
def State.status (s : State) : Word := packStatus s.err s.statusViews s.busy

/-- NCOUNT of TREEINFO: the number of nodes when TV = 1, else 0 (R29). -/
def State.ncount (s : State) : Nat :=
  match s.btree with
  | some t => t.nodes.length
  | none => 0

/-- The root index of the builder tree, if there is one (R29). -/
def State.rootIndex (s : State) : Option NodeIdx := s.btree.bind BTree.root

/-- TREEINFO: [31] HASROOT, [24:16] ROOT, [9:0] NCOUNT, the rest 0 (R29). -/
def State.treeinfo (s : State) : Word :=
  BitVec.ofBool s.rootIndex.isSome ++
    ((0 : BitVec 6) ++ (s.rootIndex.getD 0 ++ ((0 : BitVec 6) ++ BitVec.ofNat 10 s.ncount)))

/-- BUFINFO: [31:24] DDEPTH, [20:16] DOUT_LEN, [9:0] OBUF_LEN, the rest 0 (R36). -/
def State.bufinfo (s : State) : Word :=
  BitVec.ofNat 8 s.dpath.length ++
    ((0 : BitVec 3) ++ (BitVec.ofNat 5 s.dout.length ++ ((0 : BitVec 6) ++ BitVec.ofNat 10 s.obuf.length)))

end Sys2Proof.Machine
end

