-- ==== Sys2Proof/Machine/Window.lean ====
section
/-! DEFINITION. The register window (`20_memory.md`): which requests are admitted (R50), the register map (R51), what a
read answers (R52, R54), what a write does (R53), and the acceptance of a command (`60_exceptions.md` R210). -/

namespace Sys2Proof.Machine

/-- What lies at an offset of the window (R51). -/
inductive WinReg where
  | cmd | status | arg0 | res0 | res1 | res2 | treeinfo | bufinfo | dcount | dtarget
  | cbuf (j : Fin 8)
  | reserved
  deriving DecidableEq, Repr

/-- A request is admitted only when it is one register wide (4 bytes), aligned and inside the window (R50, R56). -/
def admitted (offset size : Nat) : Bool :=
  size == Config.regW / 8 && offset % 4 == 0 && decide (offset + size ≤ Config.windowBytes)

/-- The register map (R51). -/
def winReg (offset : Nat) : WinReg :=
  match offset with
  | 0x00 => .cmd
  | 0x04 => .status
  | 0x08 => .arg0
  | 0x0C => .res0
  | 0x10 => .res1
  | 0x14 => .res2
  | 0x18 => .treeinfo
  | 0x1C => .bufinfo
  | 0x20 => .dcount
  | 0x24 => .dtarget
  | 0x40 => .cbuf 0
  | 0x44 => .cbuf 1
  | 0x48 => .cbuf 2
  | 0x4C => .cbuf 3
  | 0x50 => .cbuf 4
  | 0x54 => .cbuf 5
  | 0x58 => .cbuf 6
  | 0x5C => .cbuf 7
  | _ => .reserved

/-! ### Reads -/

/-- What a read answers while BUSY = 0 (R52). -/
def readIdle (s : State) : WinReg → Word
  | .cmd => 0
  | .status => s.status
  | .arg0 => s.arg0
  | .res0 => s.res0
  | .res1 => s.res1
  | .res2 => s.res2
  | .treeinfo => s.treeinfo
  | .bufinfo => s.bufinfo
  | .dcount => s.dcount
  | .dtarget => s.dtarget
  | .cbuf j => s.cbuf[j]
  | .reserved => 0

/-- What a read answers while BUSY = 1 (R54), `free` being the value drawn for it: STATUS has BUSY, ERR and free bits
[3:1]; ARG0 is defined; CMD and the reserved offsets read 0 (log 3); every other register is the free word. -/
def readBusy (s : State) (free : Word) : WinReg → Word
  | .cmd => 0
  | .status => packStatus s.err (free.extractLsb' 1 3) true
  | .arg0 => s.arg0
  | .reserved => 0
  | .res0 | .res1 | .res2 | .treeinfo | .bufinfo | .dcount | .dtarget | .cbuf _ => free

/-- The value an admitted `MemRead` returns (R52, R54). -/
def State.readValue (s : State) (offset : Nat) : Word :=
  if s.busy then readBusy s (Config.freeWord s.draws) (winReg offset) else readIdle s (winReg offset)

/-- An admitted `MemRead`: the host gets the value, and the block does not change (R52, R57). A read made while
BUSY = 1 uses up one free value. -/
def hostRead (offset : Nat) (s : State) : State :=
  if s.busy then (s.logRead offset (s.readValue offset)).bumpDraws else s.logRead offset (s.readValue offset)

/-! ### Writes -/

/-- The commands accepted while err is not 0 (R214). -/
def isControl : Instr → Bool
  | .nop | .clrErr | .softReset => true
  | .freqClear | .freqWrite _ | .freqRead _ | .buildTree | .nodeRead _ | .genCodes | .codeClear | .codeWrite _
  | .codeRead _ | .encByte _ | .encPop | .encClear | .decLoad | .decStart | .decBits _ _ | .decPop | .decEnd => false

/-- A word becomes pending, with ARG0 and CBUF0..7 latched (R26, R210). -/
def State.latch (w : Word) (s : State) : State := s.setPending (some ⟨w, s.arg0, s.cbuf⟩)

/-- A host write of CMD (R210): busy, then illegal, then blocked, else accepted (R215). -/
def accept (w : Word) (s : State) : State :=
  if s.busy then s.recordErr .cmdBusy
  else
    match decode w with
    | .error _ => s.recordErr .illegalCmd
    | .ok i => if s.err ≠ 0 ∧ isControl i = false then s else s.latch w

/-- An admitted `MemWrite` (R53): read-only and reserved offsets ignore it. -/
def hostWrite (offset : Nat) (v : Word) (s : State) : State :=
  match winReg offset with
  | .cmd => accept v s
  | .arg0 => s.setArg0 v
  | .cbuf j => s.setCbuf (s.cbuf.set j v)
  | .status | .res0 | .res1 | .res2 | .treeinfo | .bufinfo | .dcount | .dtarget | .reserved => s

end Sys2Proof.Machine
end

