-- ==== Sys2Proof/Machine/Engine.lean ====
section
/-! DEFINITION. Whose turn it is and what it does (`10_state.md` R20): the engine's step (`60_exceptions.md` R211), the
host's bus requests, hardware reset (`70_reset_and_hazards.md` R240). -/

namespace Sys2Proof.Machine

/-- The end of a command: `pending <- none`, so BUSY falls (R211). -/
def finishCommand : Result → Result
  | .next t => .next (t.setPending none)
  | .fault f => .fault f
  | .refused r => .refused r

/-- The engine's step (R211): it executes the pending command against the current state. With nothing pending it is
idle (R224). -/
def engineTurn (s : State) : Result :=
  match s.pending with
  | none => .next s
  | some p =>
    match decode p.cmd with
    | .error _ => .fault (.pendingNotLegal p.cmd)
    | .ok i => finishCommand (exec i s)

/-- The host's turn when its request is not admitted (R50): the host has no step. The engine still executes what is
pending; when nothing is, no agent has a step. Log 4. -/
def hostStuckTurn (offset size : Nat) (s : State) : Result :=
  if s.busy then engineTurn s else .fault (.hostStuck offset size)

/-- Hardware reset takes effect (R240): a pending command is discarded without effect. -/
def hardwareReset (s : State) : State := s.resetBlock

/-- One step: the next turn of the agenda; with the agenda empty, the engine's. Log 1. -/
def takeTurn (s : State) : Result :=
  match s.agenda with
  | [] => engineTurn s
  | .engine :: rest => engineTurn (s.setAgenda rest)
  | .hardwareReset :: rest => .next (hardwareReset (s.setAgenda rest))
  | .hostRead offset size :: rest =>
    if admitted offset size then .next (hostRead offset (s.setAgenda rest)) else hostStuckTurn offset size s
  | .hostWrite offset size v :: rest =>
    if admitted offset size then .next (hostWrite offset v (s.setAgenda rest)) else hostStuckTurn offset size s

/-- A command word pending as acceptance leaves it (R26), with the next turn the engine's. It stands for the host's
CMD write that loads a program's next command. Log 8. -/
def State.placeCommand (w : Word) (s : State) : State := (s.latch w).setAgenda (.engine :: s.agenda)

end Sys2Proof.Machine
end

