-- ==== Sys2Proof/Machine/Step.lean ====
section
/-! DEFINITION. One step of the machine, and where it takes its next command from. -/

namespace Sys2Proof.Machine

/-- One step: one agent acts (R20). -/
def step (s : State) : Host.Outcome State Fault Refusal := takeTurn s

/-- The command word of `nbits` bits `w`, the bits above 0, as the pending command, the engine to move next. -/
def State.withFetchWord (s : State) (nbits w : Nat) : State := s.placeCommand (BitVec.ofNat 32 (w % 2 ^ nbits))

end Sys2Proof.Machine
end

