-- ==== Sys2Proof/Safety.lean ====
section
/-! DEFINITION. The terms claims are stated in: the invariants of `10_state.md` R39, a run that succeeded
(`70_reset_and_hazards.md` R252), the parts of the state a frame names, and the declarative readings of the prefix
property, of the builder tree and of the encoded stream. The machine uses none of these. -/

namespace Sys2Proof

/-! ### Code tables -/

/-- No two distinct symbols have present codes of which one is a prefix of the other (R39.3, R171). -/
def PrefixFree (d : Table (Option Code)) : Prop :=
  ∀ s t a b, s ≠ t → d.lookup s = some a → d.lookup t = some b → isPrefix a b = false

/-- Every present code has 1 to 255 bits (R39.2). -/
def CodesSized (d : Table (Option Code)) : Prop :=
  ∀ s c, d.lookup s = some c → 1 ≤ c.length ∧ c.length ≤ Config.maxCodeLen

/-- The word `w` is the encoding of the instruction `i`. -/
def Encodes (w : Word) (i : Instr) : Prop := decode w = .ok i ∧ encode i = w

namespace Machine

/-! ### The builder tree -/

/-- The tag of a node (R28). -/
def Node.isLeaf : Node → Bool
  | .leaf _ _ => true
  | .internal _ _ _ => false

/-- The children of a node: zero-branch, then one-branch. -/
def Node.children : Node → List Nat
  | .leaf _ _ => []
  | .internal _ z o => [z.toNat, o.toNat]

/-- `k` of R39.1: the number of Leaf nodes. -/
def BTree.leafCount (t : BTree) : Nat := t.nodes.countP Node.isLeaf

/-- R39.1, the shape of a builder tree. -/
structure BTree.Wf (t : BTree) : Prop where
  /-- `2k - 1` nodes, and none when `k = 0`. -/
  size : t.nodes.length = 2 * t.leafCount - 1
  /-- The arena holds at most `MAX_NODES` nodes (R7, R28). -/
  capacity : t.nodes.length ≤ Config.maxNodes
  /-- The leaves come first, every later node is Internal. -/
  leavesFirst : ∀ i n, t.nodes[i]? = some n → (n.isLeaf = true ↔ i < t.leafCount)
  /-- The leaves are in ascending symbol order. -/
  ascending : ∀ (i j : Nat) (s s' : Sym) (w w' : Weight), i < j → t.nodes[i]? = some (Node.leaf s w) →
    t.nodes[j]? = some (Node.leaf s' w') → s.toNat < s'.toNat
  /-- The children of an Internal node lie below it. -/
  below : ∀ (i : Nat) (w : Weight) (z o : NodeIdx), t.nodes[i]? = some (Node.internal w z o) → z.toNat < i ∧ o.toNat < i
  /-- Every node except the root is the child of exactly one Internal node, on one branch of it. -/
  oneParent : ∀ j, j + 1 < t.nodes.length → (t.nodes.flatMap Node.children).count j = 1
  /-- The root is the last node. -/
  root : t.root = if t.leafCount = 0 then none else some (BitVec.ofNat 9 (2 * t.leafCount - 2))

/-- The order of R104 between the nodes at two indices: the smaller weight first, then the smaller index. -/
def nodeBefore (nodes : List Node) (a b : Nat) : Prop :=
  ∃ m n, nodes[a]? = some m ∧ nodes[b]? = some n ∧
    (m.weight.toNat < n.weight.toNat ∨ (m.weight = n.weight ∧ a < b))

/-- The node at `j` waits in the min-priority ordering when node `i` is created: it exists, and no earlier internal
node has it as a child (R105). -/
def waiting (nodes : List Node) (i j : Nat) : Prop :=
  j < i ∧ ∀ m n, m < i → nodes[m]? = some n → j ∉ n.children

/-- The node reached from index `n` by following a bit string through the arena: the zero-branch on 0, the one-branch
on 1 (R13, R131). -/
def walk (nodes : List Node) : Nat → Bits → Option Nat
  | n, [] => if n < nodes.length then some n else none
  | n, b :: bs =>
    match nodes[n]? with
    | some (.internal _ z o) => walk nodes (if b then o.toNat else z.toNat) bs
    | _ => none

/-- The sum of all counts of a frequency table (R110). -/
def totalCount (freq : Table Count) : Nat := (allSyms.map fun s => (freq.lookup s).toNat).sum

/-- The sum over the present codes of `2 ^ (255 - length)`, which is `2 ^ 255` times the Kraft sum of R137(c). -/
def kraftSum (d : Table (Option Code)) : Nat :=
  ((presentCodes d).map fun c => 2 ^ (Config.maxCodeLen - c.length)).sum

/-! ### The invariants of R39 -/

/-- R39.1. -/
def InvTree (s : State) : Prop := ∀ t, s.btree = some t → t.Wf

/-- R39.2. -/
def InvCodes (s : State) : Prop := CodesSized s.code ∧ ∀ d, s.dcode = some d → CodesSized d

/-- R39.3 and R39.4. -/
structure InvDecoder (s : State) : Prop where
  prefixFree : ∀ d, s.dcode = some d → PrefixFree d
  path : ∀ d, s.dcode = some d →
    s.dpath = [] ∨ ∃ x c, d.lookup x = some c ∧ isProperPrefix s.dpath c = true
  unloaded : s.dcode = none → s.dpath = [] ∧ s.dcount = 0 ∧ s.dtarget = 0 ∧ s.dout = []

/-- R39.5. -/
def InvBuffers (s : State) : Prop :=
  s.dcount.toNat ≤ s.dtarget.toNat ∧ s.obuf.length ≤ Config.obufCap ∧ s.dout.length ≤ Config.doutCap

/-- R39.6: `err` is 0 or one of the codes 1 to 12 of R212. -/
def InvErr (s : State) : Prop := s.err.toNat ≤ 12

/-- Only legal words are ever pending (R210). -/
def InvPending (s : State) : Prop := ∀ p, s.pending = some p → legal p.cmd = true

/-- All the invariants together. -/
structure Inv (s : State) : Prop where
  tree : InvTree s
  codes : InvCodes s
  decoder : InvDecoder s
  buffers : InvBuffers s
  err : InvErr s
  pending : InvPending s

/-! ### Runs -/

/-- The request of a turn is one the window admits; the turns that are no request are always possible (R50). -/
def Turn.possible : Turn → Bool
  | .engine => true
  | .hardwareReset => true
  | .hostRead offset size => admitted offset size
  | .hostWrite offset size _ => admitted offset size

/-- A turn that is a statement of the host's. -/
def Turn.isHost : Turn → Bool
  | .hostRead _ _ => true
  | .hostWrite _ _ _ => true
  | .engine => false
  | .hardwareReset => false

/-- The run has ended: the host has performed its last statement and nothing is pending (R252). What turns of the engine
and what hardware reset still follow is no part of the run. -/
def Ended (s : State) : Prop := (∀ x ∈ s.agenda, Turn.isHost x = false) ∧ s.pending = none

/-- The run has ended and succeeded (R252). -/
def Succeeded (s : State) : Prop := Ended s ∧ s.err = 0

/-- The step was the engine's and ran the pending command, which decoded to `i` (R211). -/
def RanCommand (i : Instr) (s t : State) : Prop :=
  ∃ p u, s.pending = some p ∧ decode p.cmd = .ok i ∧ exec i { s with agenda := t.agenda } = .next u ∧
    t = { u with pending := none }

/-- The engine has the next turn. -/
def engineNext (s : State) : Prop := s.agenda = [] ∨ ∃ rest, s.agenda = .engine :: rest

/-! ### Frames -/

/-- ARG0 and CBUF0..CBUF7 are unchanged. -/
def SameOperands (s t : State) : Prop := t.arg0 = s.arg0 ∧ t.cbuf = s.cbuf

/-- RES0, RES1 and RES2 are unchanged. -/
def SameResults (s t : State) : Prop := t.res0 = s.res0 ∧ t.res1 = s.res1 ∧ t.res2 = s.res2

/-- freq and btree are unchanged. -/
def SameBuilder (s t : State) : Prop := t.freq = s.freq ∧ t.btree = s.btree

/-- dcode, dpath, dcount, dtarget and dout are unchanged. -/
def SameDecoder (s t : State) : Prop :=
  t.dcode = s.dcode ∧ t.dpath = s.dpath ∧ t.dcount = s.dcount ∧ t.dtarget = s.dtarget ∧ t.dout = s.dout

/-- err and pending are unchanged. -/
def SameControl (s t : State) : Prop := t.err = s.err ∧ t.pending = s.pending

/-- The model's own fields are unchanged. -/
def SameModel (s t : State) : Prop := t.agenda = s.agenda ∧ t.hostReads = s.hostReads ∧ t.draws = s.draws

/-- The whole state of the block is unchanged: every element of R40's table. -/
structure SameBlock (s t : State) : Prop where
  operands : SameOperands s t
  results : SameResults s t
  control : SameControl s t
  builder : SameBuilder s t
  code : t.code = s.code
  obuf : t.obuf = s.obuf
  decoder : SameDecoder s t

/-- The command ended in the error of number `n` (R211, R212): err is recorded if none was, and nothing else
changed. -/
def Failed (n : BitVec 4) (s : State) (r : Result) : Prop := r = .next { s with err := if s.err = 0 then n else s.err }

/-- The host's write of this word to CMD while BUSY = 0 is accepted, whatever err holds (R214). -/
def AlwaysAccepted (w : Word) : Prop :=
  ∀ (s : State) (rest : List Turn), s.agenda = .hostWrite 0x00 4 w :: rest → s.pending = none →
    step s = .next { s with agenda := rest, pending := some ⟨w, s.arg0, s.cbuf⟩ }

/-- Every element of the block holds its reset value (R40). -/
structure AtReset (t : State) : Prop where
  arg0 : t.arg0 = 0
  cbuf : ∀ j : Fin 8, t.cbuf[j] = 0
  results : t.res0 = 0 ∧ t.res1 = 0 ∧ t.res2 = 0
  err : t.err = 0
  pending : t.pending = none
  freq : ∀ s, t.freq.lookup s = 0
  btree : t.btree = none
  code : ∀ s, t.code.lookup s = none
  obuf : t.obuf = []
  dcode : t.dcode = none
  dpath : t.dpath = []
  counts : t.dcount = 0 ∧ t.dtarget = 0
  dout : t.dout = []

/-! ### Decoding (R174, R175) -/

/-- The bits are decoded from progress `p` to progress `r` with decoder table `d` and target `target`: one bit after
the other by the cases of `step(p, c, b)` in R175 that do not fail. -/
inductive Decodes (d : Table (Option Code)) (target : Word) : Progress → Bits → Progress → Prop where
  /-- No bit is left. -/
  | done (p : Progress) : Decodes d target p [] p
  /-- The counter equals the target: the bit is ignored. -/
  | ignored (p r : Progress) (b : Bool) (bs : Bits) :
      p.count = target → Decodes d target p bs r → Decodes d target p (b :: bs) r
  /-- The landed node carries the byte value `x`: it is emitted, the path starts again, the counter is incremented. -/
  | emits (p r : Progress) (b : Bool) (bs : Bits) (x : Sym) :
      p.count ≠ target → d.lookup x = some (p.path ++ [b]) →
      Decodes d target ⟨[], p.count + 1, p.out ++ [x]⟩ bs r → Decodes d target p (b :: bs) r
  /-- The landed node is an internal placeholder. -/
  | moves (p r : Progress) (b : Bool) (bs : Bits) (x : Sym) (c : Code) :
      p.count ≠ target → (∀ y, d.lookup y ≠ some (p.path ++ [b])) → d.lookup x = some c →
      isProperPrefix (p.path ++ [b]) c = true →
      Decodes d target ⟨p.path ++ [b], p.count, p.out⟩ bs r → Decodes d target p (b :: bs) r

/-! ### The encoded stream (R153) -/

/-- The bits a pop delivers: BITS of RES0 cut to its first NBITS bits (R151, R153). -/
def poppedBits (res0 : Word) : Bits := ((List.range 8).map fun i => res0.getLsbD (7 - i)).take (res0.extractLsb' 8 4).toNat

/-- A sequence of ENC_BYTE (`some x`) and ENC_POP (`none`) commands run by `exec`, and the bits its pops deliver,
joined in order. -/
inductive EncRun : State → List (Option Sym) → Bits → State → Prop where
  /-- No command. -/
  | done (s : State) : EncRun s [] [] s
  /-- ENC_BYTE of a byte that raises no error: obuf took the code. -/
  | byte (s t u : State) (x : Sym) (ops : List (Option Sym)) (out : Bits) :
      exec (.encByte x) s = .next t → s.err = 0 → t.err = 0 → EncRun t ops out u → EncRun s (some x :: ops) out u
  /-- ENC_POP. -/
  | pop (s t u : State) (ops : List (Option Sym)) (out : Bits) :
      exec .encPop s = .next t → EncRun t ops out u → EncRun s (none :: ops) (poppedBits t.res0 ++ out) u

/-- The bits DEC_BITS consumes (R174). -/
def fedBits (n : BitVec 4) (b : BitVec 8) : Bits := (List.range n.toNat).map fun j => b.getLsbD (7 - j)

/-- The bytes a DEC_POP delivers: BYTE of RES0 where VALID is 1 (R177). -/
def poppedBytes (res0 : Word) : List Sym := if res0.getLsbD 8 then [res0.extractLsb' 0 8] else []

/-- A sequence of DEC_BITS and DEC_POP commands run by `exec`, none of which raises an error: the bits fed, joined in
order, and the bytes popped, in order. -/
inductive DecRun : State → Bits → List Sym → State → Prop where
  /-- No command. -/
  | done (s : State) : DecRun s [] [] s
  /-- DEC_BITS that raises no error. -/
  | bits (s t u : State) (n : BitVec 4) (b : BitVec 8) (fed : Bits) (out : List Sym) :
      (Instr.decBits n b).wf = true → exec (.decBits n b) s = .next t → s.err = 0 → t.err = 0 → DecRun t fed out u →
      DecRun s (fedBits n b ++ fed) out u
  /-- DEC_POP. -/
  | pop (s t u : State) (fed : Bits) (out : List Sym) :
      exec .decPop s = .next t → DecRun t fed out u → DecRun s fed (poppedBytes t.res0 ++ out) u

/-- The codes of a byte sequence, concatenated: the packed bitstream of §3 (R153); none if a byte has no code. -/
def stream (d : Table (Option Code)) : List Sym → Option Bits
  | [] => some []
  | x :: xs =>
    match d.lookup x, stream d xs with
    | some c, some bs => some (c ++ bs)
    | _, _ => none

end Machine

end Sys2Proof
end

