-- ==== Sys2Proof/Certificates/Slice0/Obligations.lean ====
section
/-! DEFINITION. The statements for the provers. Each docstring names the rule of `spec/` a statement rests on. -/

open Sys2Proof Sys2Proof.Machine

/-! ### The command word -/

/-- Decoding an encoded well-formed instruction gives it back, for every instruction and every value of every
operand its encoding admits (R70 to R76). -/
def Obligations.DecodeOfEncode : Prop :=
  ∀ i : Instr, i.wf = true → decode (encode i) = .ok i

/-- A word has one reading only: what decodes is well formed and encodes back to the very word, so the decoder drops no
bit and no two words stand for one instruction (R70 to R78). -/
def Obligations.EncodeOfDecode : Prop :=
  ∀ (w : Word) (i : Instr), decode w = .ok i → i.wf = true ∧ encode i = w

/-- R75: a word is legal exactly when its opcode is assigned, the bits its format marks "must be 0" are 0, and N of
format FB is 1 to 8; writing any other word to CMD records ILLEGAL_CMD and is otherwise dropped. -/
def Obligations.LegalWordsAreTheFormats : Prop :=
  (∀ w : Word, legal w = true ↔
    (w.toNat / 2 ^ 24 ∈ [0x00, 0x01, 0x02, 0x10, 0x13, 0x20, 0x21, 0x31, 0x32, 0x40, 0x41, 0x43, 0x44] ∧
        w.toNat % 2 ^ 24 = 0) ∨
    (w.toNat / 2 ^ 24 ∈ [0x11, 0x12, 0x22, 0x23, 0x30] ∧ w.toNat / 2 ^ 8 % 2 ^ 16 = 0) ∨
    (w.toNat / 2 ^ 24 = 0x14 ∧ w.toNat / 2 ^ 9 % 2 ^ 15 = 0) ∨
    (w.toNat / 2 ^ 24 = 0x42 ∧ w.toNat / 2 ^ 20 % 2 ^ 4 = 0 ∧ w.toNat / 2 ^ 8 % 2 ^ 8 = 0 ∧
        1 ≤ w.toNat / 2 ^ 16 % 2 ^ 4 ∧ w.toNat / 2 ^ 16 % 2 ^ 4 ≤ 8)) ∧
  ∀ (w : Word) (s : State) (rest : List Turn), legal w = false → s.pending = none →
    s.agenda = .hostWrite 0x00 4 w :: rest →
    step s = .next { s with err := if s.err = 0 then 1 else s.err, agenda := rest }

/-- Words written out from the encodings decode to the commands they stand for, and words the spec calls illegal are
refused (R71 to R77). -/
def Obligations.SpecWordsDecode : Prop :=
  decode 0x00000000 = .ok .nop ∧ decode 0x11000061 = .ok (.freqWrite 0x61) ∧ decode 0x13000000 = .ok .buildTree ∧
    decode 0x140001FF = .ok (.nodeRead 511) ∧ decode 0x22000062 = .ok (.codeWrite 0x62) ∧
    decode 0x30000041 = .ok (.encByte 0x41) ∧ decode 0x42080070 = .ok (.decBits 8 0x70) ∧
    decode 0x00000001 = .error .nonzeroReserved ∧ decode 0x45000000 = .error .reservedOpcode ∧
    decode 0x42090070 = .error .badBitCount

/-- The bits of BITS that DEC_BITS does not consume have no effect: two words of it with the same N and the same first
N bits of BITS do the same in every state (R74, R174, I11). -/
def Obligations.UnusedBitsOfDecBitsAreIgnored : Prop :=
  ∀ (n : BitVec 4) (b b' : BitVec 8) (s : State), (Instr.decBits n b).wf = true →
    (∀ j, j < n.toNat → b.getLsbD (7 - j) = b'.getLsbD (7 - j)) →
    exec (.decBits n b) s = exec (.decBits n b') s

/-! ### The views -/

/-- R24: the fields of STATUS, its reset value, and that a write of it is ignored. -/
def Obligations.StatusFields : Prop :=
  (∀ s : State, s.status.getLsbD 0 = s.pending.isSome ∧ s.status.getLsbD 1 = s.btree.isSome ∧
    s.status.getLsbD 2 = s.dcode.isSome ∧ s.status.getLsbD 3 = (s.dcode.isSome && s.dcount == s.dtarget) ∧
    s.status.extractLsb' 4 4 = s.err ∧ s.status.extractLsb' 8 24 = 0) ∧
  State.reset.status = 0 ∧ ∀ (s : State) (v : Word), hostWrite 0x04 v s = s

/-- R29: the fields of TREEINFO in every state that meets the invariants of R39, its reset value, and that a write of it
is ignored. -/
def Obligations.TreeinfoFields : Prop :=
  (∀ s : State, Inv s →
    (s.btree = none → s.treeinfo = 0) ∧
    ∀ t, s.btree = some t →
      (s.treeinfo.extractLsb' 0 10).toNat = t.nodes.length ∧ s.treeinfo.extractLsb' 10 6 = 0 ∧
        s.treeinfo.extractLsb' 25 6 = 0 ∧ s.treeinfo.getLsbD 31 = t.root.isSome ∧
        ∀ r, s.treeinfo.extractLsb' 16 9 = r ↔ t.root = some r ∨ (t.root = none ∧ r = 0)) ∧
  State.reset.treeinfo = 0 ∧ ∀ (s : State) (v : Word), hostWrite 0x18 v s = s

/-- R36: the fields of BUFINFO in every state that meets the invariants of R39, its reset value, and that a write of it
is ignored. -/
def Obligations.BufinfoFields : Prop :=
  (∀ s : State, Inv s →
    (s.bufinfo.extractLsb' 0 10).toNat = s.obuf.length ∧ s.bufinfo.extractLsb' 10 6 = 0 ∧
      (s.bufinfo.extractLsb' 16 5).toNat = s.dout.length ∧ s.bufinfo.extractLsb' 21 3 = 0 ∧
      (s.bufinfo.extractLsb' 24 8).toNat = s.dpath.length ∧ s.dpath.length ≤ 254) ∧
  State.reset.bufinfo = 0 ∧ ∀ (s : State) (v : Word), hostWrite 0x1C v s = s

/-! ### The register window -/

/-- R52: an admitted read while BUSY = 0 returns the register of the map at that offset, 0 at CMD and at the reserved
offsets, and changes nothing of the block. -/
def Obligations.IdleReadsReturnTheRegister : Prop :=
  ∀ (s : State) (off : Nat) (rest : List Turn), s.agenda = .hostRead off 4 :: rest → off % 4 = 0 → off ≤ 0xFC →
    s.pending = none →
    ∃ t v, step s = .next t ∧ SameBlock s t ∧ t.agenda = rest ∧ t.draws = s.draws ∧
      t.hostReads = s.hostReads ++ [⟨off, v⟩] ∧
      (off = 0x00 → v = 0) ∧ (off = 0x04 → v = s.status) ∧ (off = 0x08 → v = s.arg0) ∧ (off = 0x0C → v = s.res0) ∧
      (off = 0x10 → v = s.res1) ∧ (off = 0x14 → v = s.res2) ∧ (off = 0x18 → v = s.treeinfo) ∧
      (off = 0x1C → v = s.bufinfo) ∧ (off = 0x20 → v = s.dcount) ∧ (off = 0x24 → v = s.dtarget) ∧
      (0x28 ≤ off ∧ off ≤ 0x3C → v = 0) ∧ (∀ j : Fin 8, off = 0x40 + 4 * j.val → v = s.cbuf[j]) ∧ (0x60 ≤ off → v = 0)

/-- R54: while BUSY = 1 a read of STATUS gives BUSY = 1 and ERR, a read of ARG0 its value, and a read of RES, TREEINFO,
BUFINFO, DCOUNT, DTARGET or CBUF the next free value, which is used up; the block does not change. That STATUS reads 0
in its reserved bits, and CMD and the reserved offsets read 0, is the model's reading: log 3. -/
def Obligations.BusyReadsAreFree : Prop :=
  ∀ (s : State) (p : Pending) (off : Nat) (rest : List Turn), s.agenda = .hostRead off 4 :: rest → off % 4 = 0 →
    off ≤ 0xFC → s.pending = some p →
    ∃ t v, step s = .next t ∧ SameBlock s t ∧ t.agenda = rest ∧ t.draws = s.draws + 1 ∧
      t.hostReads = s.hostReads ++ [⟨off, v⟩] ∧
      (off = 0x00 ∨ (0x28 ≤ off ∧ off ≤ 0x3C) ∨ 0x60 ≤ off → v = 0) ∧
      (off = 0x04 → v.getLsbD 0 = true ∧ v.extractLsb' 4 4 = s.err ∧ v.extractLsb' 8 24 = 0 ∧
        v.extractLsb' 1 3 = (Config.freeWord s.draws).extractLsb' 1 3) ∧
      (off = 0x08 → v = s.arg0) ∧
      ((0x0C ≤ off ∧ off ≤ 0x24) ∨ (0x40 ≤ off ∧ off ≤ 0x5C) → v = Config.freeWord s.draws)

/-- R53: an admitted write of ARG0 or CBUFj sets that register, also while BUSY = 1 and without effect on a pending
command; at a read-only or reserved offset it is ignored; at CMD it is a command issue. -/
def Obligations.HostWritesSetOperandsOnly : Prop :=
  ∀ (s : State) (off : Nat) (v : Word) (rest : List Turn), s.agenda = .hostWrite off 4 v :: rest → off % 4 = 0 →
    off ≤ 0xFC →
    (off = 0x00 → step s = .next (accept v { s with agenda := rest })) ∧
    (off = 0x08 → step s = .next { s with agenda := rest, arg0 := v }) ∧
    (∀ j : Fin 8, off = 0x40 + 4 * j.val → ∃ t, step s = .next t ∧ t.cbuf[j] = v ∧ (∀ k : Fin 8, k ≠ j → t.cbuf[k] = s.cbuf[k]) ∧
      t = { s with agenda := rest, cbuf := t.cbuf }) ∧
    (off = 0x04 ∨ (0x0C ≤ off ∧ off ≤ 0x3C) ∨ 0x60 ≤ off → step s = .next { s with agenda := rest })

/-- R50: a request is admitted, and takes its turn, only when it is aligned, inside the window and 4 bytes wide. Any
other request has no step: while a command is pending the engine executes it and the request stays, and with nothing
pending the machine is stuck. That the model says so with the fault `hostStuck` is log 4. -/
def Obligations.OnlyAlignedWordRequestsAreAdmitted : Prop :=
  ∀ (s : State) (off size : Nat) (v : Word) (rest : List Turn),
    s.agenda = .hostRead off size :: rest ∨ s.agenda = .hostWrite off size v :: rest →
    ((off % 4 = 0 ∧ off ≤ 0xFC ∧ size = 4) → ∃ t, step s = .next t ∧ t.agenda = rest) ∧
    (¬ (off % 4 = 0 ∧ off ≤ 0xFC ∧ size = 4) → s.pending = none → step s = .fault (.hostStuck off size)) ∧
    (¬ (off % 4 = 0 ∧ off ≤ 0xFC ∧ size = 4) → ∀ p i, s.pending = some p → decode p.cmd = .ok i →
      ∃ u, exec i s = .next u ∧ u.agenda = s.agenda ∧ step s = .next { u with pending := none })

/-- R210, R215: a host write of CMD, in the order busy, illegal, blocked, accepted. An accepted word is latched with
ARG0 and CBUF0..7; a dropped one changes nothing but err, and that only if err was 0. -/
def Obligations.CmdWritesAreAcceptedInOrder : Prop :=
  ∀ (s : State) (w : Word) (rest : List Turn), s.agenda = .hostWrite 0x00 4 w :: rest →
    (s.pending ≠ none → step s = .next { s with agenda := rest, err := if s.err = 0 then 2 else s.err }) ∧
    (s.pending = none → legal w = false →
      step s = .next { s with agenda := rest, err := if s.err = 0 then 1 else s.err }) ∧
    (s.pending = none → legal w = true → s.err ≠ 0 → w.extractLsb' 24 8 ∉ [0x00#8, 0x01#8, 0x02#8] →
      step s = .next { s with agenda := rest }) ∧
    (s.pending = none → legal w = true → (s.err = 0 ∨ w.extractLsb' 24 8 ∈ [0x00#8, 0x01#8, 0x02#8]) →
      step s = .next { s with agenda := rest, pending := some ⟨w, s.arg0, s.cbuf⟩ })

/-! ### The engine, reset and runs -/

/-- A step runs the decoded instruction: when the engine has the next turn and the pending word decodes to `i`, the
step is `exec` of `i`, after which `pending` is none (R26, R211). -/
def Obligations.StepRunsThePendingCommand : Prop :=
  ∀ (s : State) (p : Pending) (i : Instr), engineNext s → s.pending = some p → decode p.cmd = .ok i →
    ∃ t, exec i { s with agenda := s.agenda.tail } = .next t ∧ step s = .next { t with pending := none }

/-- R224: with nothing pending the engine is idle and all state survives unchanged; only the turn is used up. -/
def Obligations.IdleEngineChangesNothing : Prop :=
  ∀ s : State, engineNext s → s.pending = none → step s = .next { s with agenda := s.agenda.tail }

/-- R240: hardware reset gives every element of the block the value of R40, whatever is pending. What it leaves of the
model's own fields is log 9. -/
def Obligations.HardwareResetResetsTheBlock : Prop :=
  ∀ (s : State) (rest : List Turn), s.agenda = .hardwareReset :: rest →
    ∃ t, step s = .next t ∧ AtReset t ∧ t.agenda = rest ∧ t.hostReads = s.hostReads ∧ t.draws = s.draws

/-- R40: after hardware reset and after SOFT_RESET, and so in the reset state, every element holds the value of the table;
STATUS reads 0. -/
def Obligations.ResetStateHoldsTheTable : Prop :=
  AtReset State.reset ∧ State.reset.status = 0 ∧ (∀ s : State, AtReset (hardwareReset s)) ∧
    ∀ s : State, ∃ t, exec .softReset s = .next t ∧ AtReset t ∧ t.status = 0

/-- Every command completes in every state: nothing inside the block is refused (R225), and an error is an outcome
(R211). -/
def Obligations.EveryCommandCompletes : Prop :=
  ∀ (i : Instr) (s : State), ∃ t, exec i s = .next t

/-- R225: where only legal words are pending, a step stops only on a host request that the window does not admit while
nothing is pending, and nothing is refused. -/
def Obligations.StepsStopOnlyOnStuckHosts : Prop :=
  ∀ s : State, InvPending s →
    (∃ t, step s = .next t) ∨
    ∃ off size, step s = .fault (.hostStuck off size) ∧ s.pending = none ∧ admitted off size = false ∧
      ∃ rest v, s.agenda = .hostRead off size :: rest ∨ s.agenda = .hostWrite off size v :: rest

/-- Weak fairness by construction (R251), and the end of a run (R252): from every state whose pending word is legal and
whose agenda holds only possible turns, one step more than the agenda is long uses up the agenda and ends the run. The
agenda is the model's choice: log 1. -/
def Obligations.RunsEndAfterTheAgenda : Prop :=
  ∀ s : State, InvPending s → (∀ x ∈ s.agenda, Turn.possible x = true) →
    ∃ t : State, Host.Core.run Sys2Proof.core (s.agenda.length + 1) s = .next t ∧ t.agenda = [] ∧ Ended t

/-! ### Whole-machine rules -/

/-- R25: a step changes err only from 0 to a code of R212, at a CMD write (ILLEGAL_CMD or CMD_BUSY) or by running the
pending command (one of the other codes), or to 0, by running CLR_ERR or SOFT_RESET or at hardware reset; so the first
error is kept. The reset value is 0. -/
def Obligations.FirstErrorIsKept : Prop :=
  (∀ s t : State, step s = .next t → t.err ≠ s.err →
    (s.err = 0 ∧
      (((t.err = 1 ∨ t.err = 2) ∧ ∃ w rest, s.agenda = .hostWrite 0x00 4 w :: rest ∧ t.agenda = rest) ∨
        (3 ≤ t.err.toNat ∧ t.err.toNat ≤ 12 ∧ t.pending = none ∧ ∃ i, RanCommand i s t))) ∨
    (t.err = 0 ∧ t.pending = none ∧
      ((∃ rest, s.agenda = .hardwareReset :: rest ∧ t.agenda = rest) ∨ RanCommand .clrErr s t ∨
        RanCommand .softReset s t))) ∧
  State.reset.err = 0

/-- Each element of the state is written only by the commands its rule names (R21, R22, R23, R27, R28, R30 to R35);
SOFT_RESET is among them for every element (R202; for ARG0, log 10). -/
def Obligations.OnlyNamedCommandsWriteEachElement : Prop :=
  ∀ (i : Instr) (s t : State), exec i s = .next t → i ≠ .softReset →
    t.arg0 = s.arg0 ∧ t.pending = s.pending ∧ SameModel s t ∧
    (t.cbuf = s.cbuf ∨ ∃ x, i = .codeRead x) ∧
    (SameResults s t ∨ (∃ x, i = .freqRead x) ∨ (∃ x, i = .nodeRead x) ∨ (∃ x, i = .codeRead x) ∨ i = .encPop ∨
      i = .decPop) ∧
    (t.freq = s.freq ∨ i = .freqClear ∨ ∃ x, i = .freqWrite x) ∧
    (t.btree = s.btree ∨ i = .freqClear ∨ (∃ x, i = .freqWrite x) ∨ i = .buildTree) ∧
    (t.code = s.code ∨ i = .genCodes ∨ i = .codeClear ∨ ∃ x, i = .codeWrite x) ∧
    (t.obuf = s.obuf ∨ (∃ x, i = .encByte x) ∨ i = .encPop ∨ i = .encClear) ∧
    (t.dcode = s.dcode ∨ i = .decLoad) ∧
    (t.dtarget = s.dtarget ∨ i = .decLoad ∨ i = .decStart) ∧
    (t.dpath = s.dpath ∧ t.dcount = s.dcount ∨ i = .decLoad ∨ i = .decStart ∨ ∃ n b, i = .decBits n b) ∧
    (t.dout = s.dout ∨ i = .decLoad ∨ i = .decStart ∨ i = .decPop ∨ ∃ n b, i = .decBits n b)

/-- R26, R246: a command reads its operands from the latched copies. Whatever the host writes to ARG0 and CBUF while the
command is pending, the command does the same, and the written values stay but where the command writes these
registers itself. -/
def Obligations.OperandsAreLatched : Prop :=
  ∀ (i : Instr) (s t : State) (p : Pending) (v : Word) (c : Vector Word 8), s.pending = some p → exec i s = .next t →
    ∃ t', exec i { s with arg0 := v, cbuf := c } = .next t' ∧ SameResults t t' ∧ SameControl t t' ∧ SameBuilder t t' ∧
      t'.code = t.code ∧ t'.obuf = t.obuf ∧ SameDecoder t t' ∧ SameModel t t' ∧
      (i ≠ .softReset → t'.arg0 = v) ∧ (i = .softReset → t'.arg0 = t.arg0) ∧
      (i ≠ .softReset → (∀ x, i ≠ .codeRead x) → t'.cbuf = c) ∧
      (i = .softReset ∨ (∃ x, i = .codeRead x) → t'.cbuf = t.cbuf)

/-- A command that raises an error changes no state except STATUS.ERR (R12, R211): whatever the command, if err goes
from 0 to a code, nothing else is changed. -/
def Obligations.FailingCommandsChangeOnlyErr : Prop :=
  ∀ (i : Instr) (s t : State), exec i s = .next t → s.err = 0 → t.err ≠ 0 → t = { s with err := t.err }

/-! ### Control commands -/

/-- R200: NOP does nothing, and is accepted even while err is not 0. -/
def Obligations.NopDoesNothing : Prop :=
  Encodes 0x00000000 .nop ∧ AlwaysAccepted 0x00000000 ∧ ∀ s : State, exec .nop s = .next s

/-- R201: CLR_ERR clears err, and nothing else changes; it is accepted while err is not 0. -/
def Obligations.ClrErrClearsOnlyErr : Prop :=
  Encodes 0x01000000 .clrErr ∧ AlwaysAccepted 0x01000000 ∧
  ∀ s : State, ∃ t, exec .clrErr s = .next t ∧ t.err = 0 ∧ t.pending = s.pending ∧ SameOperands s t ∧ SameResults s t ∧
    SameBuilder s t ∧ t.code = s.code ∧ t.obuf = s.obuf ∧ SameDecoder s t ∧ SameModel s t

/-- R202: SOFT_RESET sets every element of R40 to its reset value; STATUS, TREEINFO and BUFINFO read 0 afterwards. It is
accepted while err is not 0. -/
def Obligations.SoftResetResetsTheBlock : Prop :=
  Encodes 0x02000000 .softReset ∧ AlwaysAccepted 0x02000000 ∧
  ∀ s : State, ∃ t, exec .softReset s = .next t ∧ AtReset t ∧ t.status = 0 ∧ t.treeinfo = 0 ∧ t.bufinfo = 0 ∧
    SameModel s t

/-! ### Tree builder commands -/

/-- R100: FREQ_CLEAR sets every count to zero and discards the builder tree. -/
def Obligations.FreqClearZeroesEveryCount : Prop :=
  Encodes 0x10000000 .freqClear ∧
  ∀ s : State, ∃ t, exec .freqClear s = .next t ∧ (∀ x, t.freq.lookup x = 0) ∧ t.btree = none ∧
    t.status.getLsbD 1 = false ∧ t.treeinfo = 0 ∧ SameOperands s t ∧ SameResults s t ∧ SameControl s t ∧
    t.code = s.code ∧ t.obuf = s.obuf ∧ SameDecoder s t ∧ SameModel s t

/-- R101: FREQ_WRITE sets the count of one symbol to the latched A0, every other count stays, and the builder tree is
discarded. -/
def Obligations.FreqWriteSetsOneCount : Prop :=
  (∀ x : Sym, Encodes ((0x11000000 : Word) ||| x.setWidth 32) (.freqWrite x)) ∧
  ∀ (s : State) (p : Pending) (x : Sym), s.pending = some p →
    ∃ t, exec (.freqWrite x) s = .next t ∧ t.freq.lookup x = p.a0 ∧ (∀ y, y ≠ x → t.freq.lookup y = s.freq.lookup y) ∧
      t.btree = none ∧ t.status.getLsbD 1 = false ∧ SameOperands s t ∧ SameResults s t ∧ SameControl s t ∧
      t.code = s.code ∧ t.obuf = s.obuf ∧ SameDecoder s t ∧ SameModel s t

/-- R102: FREQ_READ returns the count of one symbol in RES0, with 0 in RES1 and RES2. -/
def Obligations.FreqReadReturnsTheCount : Prop :=
  (∀ x : Sym, Encodes ((0x12000000 : Word) ||| x.setWidth 32) (.freqRead x)) ∧
  ∀ (s : State) (x : Sym), ∃ t, exec (.freqRead x) s = .next t ∧ t.res0 = s.freq.lookup x ∧ t.res1 = 0 ∧ t.res2 = 0 ∧
    SameOperands s t ∧ SameControl s t ∧ SameBuilder s t ∧ t.code = s.code ∧ t.obuf = s.obuf ∧ SameDecoder s t ∧
    SameModel s t

/-- BUILD_TREE always completes with a tree, which is a function of the frequency table alone, and changes nothing
else (R105, R137(d)). -/
def Obligations.BuildTreeDependsOnFreqAlone : Prop :=
  Encodes 0x13000000 .buildTree ∧
  ∀ s s' : State, s'.freq = s.freq →
    ∃ t t', exec .buildTree s = .next t ∧ exec .buildTree s' = .next t' ∧ t'.btree = t.btree ∧ t.btree ≠ none ∧
      t.freq = s.freq ∧ SameOperands s t ∧ SameResults s t ∧ SameControl s t ∧ t.code = s.code ∧ t.obuf = s.obuf ∧
      SameDecoder s t ∧ SameModel s t

/-- R103, R107: the leaves of a built tree are the symbols with a count above 0, each with its count as weight; the arena
has the shape of R39.1; an empty alphabet gives no node and no root, a single symbol one leaf that is the root. -/
def Obligations.BuiltTreeHasTheAlphabetAsLeaves : Prop :=
  ∀ s : State, ∃ T, exec .buildTree s = .next { s with btree := some T } ∧ T.Wf ∧
    (∀ (i : Nat) x w, T.nodes[i]? = some (Node.leaf x w) → s.freq.lookup x ≠ 0 ∧ w.toNat = (s.freq.lookup x).toNat) ∧
    (∀ x, s.freq.lookup x ≠ 0 → ∃ (i : Nat) (w : Weight), T.nodes[i]? = some (Node.leaf x w)) ∧
    ((∀ x, s.freq.lookup x = 0) → T = { nodes := [], root := none }) ∧
    (∀ x, (∀ y, s.freq.lookup y ≠ 0 ↔ y = x) → ∃ w, T = { nodes := [Node.leaf x w], root := some 0 })

/-- R104, R106: each internal node was made of the two smallest waiting nodes by (weight, index), the first as its
zero-branch and the second as its one-branch, and its weight is their exact sum (R108). -/
def Obligations.MergesTakeTheTwoSmallest : Prop :=
  ∀ s : State, ∃ T, exec .buildTree s = .next { s with btree := some T } ∧
    ∀ i w z o, T.nodes[i]? = some (Node.internal w z o) →
      waiting T.nodes i z.toNat ∧ waiting T.nodes i o.toNat ∧ nodeBefore T.nodes z.toNat o.toNat ∧
      (∀ j, waiting T.nodes i j → j ≠ z.toNat → nodeBefore T.nodes z.toNat j) ∧
      (∀ j, waiting T.nodes i j → j ≠ z.toNat → j ≠ o.toNat → nodeBefore T.nodes o.toNat j) ∧
      ∃ m n, T.nodes[z.toNat]? = some m ∧ T.nodes[o.toNat]? = some n ∧ w.toNat = m.weight.toNat + n.weight.toNat

/-- R110: the root's weight is the sum of all counts, no overflow (R108); the depth of the tree is at most `k - 1`; its
leaves hold distinct symbols. -/
def Obligations.RootWeighsTheSumOfAllCounts : Prop :=
  ∀ s : State, ∃ T, exec .buildTree s = .next { s with btree := some T } ∧
    (∀ r n, T.root = some r → T.nodes[r.toNat]? = some n → n.weight.toNat = totalCount s.freq) ∧
    (∀ r c j, T.root = some r → walk T.nodes r.toNat c = some j → c.length + 1 ≤ T.leafCount) ∧
    (∀ (i j : Nat) x w w', T.nodes[i]? = some (Node.leaf x w) → T.nodes[j]? = some (Node.leaf x w') → i = j)

/-- R109: NODE_READ returns the node at IDX in RES0..2, and BAD_INDEX (3) when TV = 0 or IDX >= NCOUNT. -/
def Obligations.NodeReadReturnsTheNode : Prop :=
  (∀ x : NodeIdx, Encodes ((0x14000000 : Word) ||| x.setWidth 32) (.nodeRead x)) ∧
  ∀ (s : State) (x : NodeIdx),
    (s.btree = none → Failed 3 s (exec (.nodeRead x) s)) ∧
    ∀ T, s.btree = some T →
      (T.nodes.length ≤ x.toNat → Failed 3 s (exec (.nodeRead x) s)) ∧
      ∀ n, T.nodes[x.toNat]? = some n →
        ∃ t, exec (.nodeRead x) s = .next t ∧
          (∀ y w, n = Node.leaf y w → t.res0.toNat = 2 ^ 31 + w.toNat / 2 ^ 32 * 2 ^ 16 + y.toNat ∧ t.res1 = 0 ∧
            t.res2.toNat = w.toNat % 2 ^ 32) ∧
          (∀ w z o, n = Node.internal w z o → t.res0.toNat = w.toNat / 2 ^ 32 * 2 ^ 16 ∧
            t.res1.toNat = o.toNat * 2 ^ 16 + z.toNat ∧ t.res2.toNat = w.toNat % 2 ^ 32) ∧
          SameOperands s t ∧ SameControl s t ∧ SameBuilder s t ∧ t.code = s.code ∧ t.obuf = s.obuf ∧ SameDecoder s t ∧
          SameModel s t

/-! ### Code table commands -/

/-- R130 to R133: GEN_CODES replaces the whole code table: nothing for a tree with no root, "0" for a single leaf, else for
each leaf exactly the bit string that leads from the root to it; NO_TREE (5) when TV = 0. Stated for the trees of
R39.1. -/
def Obligations.GenCodesAssignsThePathOfEachLeaf : Prop :=
  Encodes 0x20000000 .genCodes ∧
  ∀ s : State, InvTree s →
    (s.btree = none → Failed 5 s (exec .genCodes s)) ∧
    ∀ T, s.btree = some T →
      ∃ t, exec .genCodes s = .next t ∧
        (T.root = none → ∀ x, t.code.lookup x = none) ∧
        (∀ r y w, T.root = some r → T.nodes[r.toNat]? = some (Node.leaf y w) →
          ∀ x, t.code.lookup x = if x = y then some [false] else none) ∧
        (∀ r w z o, T.root = some r → T.nodes[r.toNat]? = some (Node.internal w z o) →
          ∀ x c, t.code.lookup x = some c ↔ ∃ i w', walk T.nodes r.toNat c = some i ∧ T.nodes[i]? = some (Node.leaf x w')) ∧
        SameOperands s t ∧ SameResults s t ∧ SameControl s t ∧ SameBuilder s t ∧ t.obuf = s.obuf ∧ SameDecoder s t ∧
        SameModel s t

/-- R137: after BUILD_TREE and GEN_CODES, exactly the symbols of the alphabet have codes, no code is a prefix of another,
every code has 1 to 255 bits, and the Kraft sum is 1 for two symbols or more and 1/2 for one. -/
def Obligations.GeneratedCodesArePrefixFree : Prop :=
  ∀ s : State, ∃ t u, exec .buildTree s = .next t ∧ exec .genCodes t = .next u ∧
    (∀ x, u.code.lookup x ≠ none ↔ s.freq.lookup x ≠ 0) ∧ PrefixFree u.code ∧ CodesSized u.code ∧
    (∀ x y, x ≠ y → s.freq.lookup x ≠ 0 → s.freq.lookup y ≠ 0 → kraftSum u.code = 2 ^ 255) ∧
    (∀ x, (∀ y, s.freq.lookup y ≠ 0 ↔ y = x) → kraftSum u.code = 2 ^ 254)

/-- R134: CODE_CLEAR removes every entry of the code table. -/
def Obligations.CodeClearRemovesEveryEntry : Prop :=
  Encodes 0x21000000 .codeClear ∧
  ∀ s : State, ∃ t, exec .codeClear s = .next t ∧ (∀ x, t.code.lookup x = none) ∧ SameOperands s t ∧ SameResults s t ∧
    SameControl s t ∧ SameBuilder s t ∧ t.obuf = s.obuf ∧ SameDecoder s t ∧ SameModel s t

/-- R135: CODE_WRITE sets the code of one symbol to the first LEN bits of the latched CB, or removes it when LEN is 0;
BAD_ARG (4) when any of A0[31:8] is 1. -/
def Obligations.CodeWriteSetsOneCode : Prop :=
  (∀ x : Sym, Encodes ((0x22000000 : Word) ||| x.setWidth 32) (.codeWrite x)) ∧
  ∀ (s : State) (p : Pending) (x : Sym), s.pending = some p →
    (256 ≤ p.a0.toNat → Failed 4 s (exec (.codeWrite x) s)) ∧
    (p.a0.toNat < 256 →
      ∃ t, exec (.codeWrite x) s = .next t ∧ (p.a0 = 0 → t.code.lookup x = none) ∧
        (p.a0 ≠ 0 → ∃ bs, t.code.lookup x = some bs ∧ bs.length = p.a0.toNat ∧
          ∀ (j : Fin 8) (k : Nat), k < 32 → 32 * j.val + k < p.a0.toNat →
            bs[32 * j.val + k]? = some (p.cb[j].getLsbD (31 - k))) ∧
        (∀ y, y ≠ x → t.code.lookup y = s.code.lookup y) ∧ SameOperands s t ∧ SameResults s t ∧ SameControl s t ∧
        SameBuilder s t ∧ t.obuf = s.obuf ∧ SameDecoder s t ∧ SameModel s t)

/-- R136: CODE_READ returns the code of one symbol: PRESENT and LEN in RES0, the bits in CBUF0..7 with 0 beyond the length,
0 in RES1 and RES2. Stated for the code lengths of R39.2. -/
def Obligations.CodeReadReturnsTheCode : Prop :=
  (∀ x : Sym, Encodes ((0x23000000 : Word) ||| x.setWidth 32) (.codeRead x)) ∧
  ∀ (s : State) (x : Sym), CodesSized s.code →
    ∃ t, exec (.codeRead x) s = .next t ∧ t.res1 = 0 ∧ t.res2 = 0 ∧
      (s.code.lookup x = none → t.res0 = 0 ∧ ∀ j : Fin 8, t.cbuf[j] = 0) ∧
      (∀ bs, s.code.lookup x = some bs → t.res0.toNat = 256 + bs.length ∧
        ∀ (j : Fin 8) (k : Nat), k < 32 → t.cbuf[j].getLsbD (31 - k) = (bs[32 * j.val + k]?).getD false) ∧
      t.arg0 = s.arg0 ∧ SameControl s t ∧ SameBuilder s t ∧ t.code = s.code ∧ t.obuf = s.obuf ∧ SameDecoder s t ∧
      SameModel s t

/-- CODE_WRITE followed by CODE_READ of the same symbol reproduces the entry (W3): the length, the bits up to it, and 0
beyond it (R135, R136). -/
def Obligations.CodeWriteThenReadReproduces : Prop :=
  ∀ (s t : State) (p : Pending) (x : Sym), s.pending = some p → 1 ≤ p.a0.toNat → p.a0.toNat < 256 →
    exec (.codeWrite x) s = .next t →
    ∃ u, exec (.codeRead x) t = .next u ∧ u.res0 = 0x100 + p.a0 ∧
      ∀ (j : Fin 8) (k : Nat), k < 32 →
        u.cbuf[j].getLsbD (31 - k) = (decide (32 * j.val + k < p.a0.toNat) && p.cb[j].getLsbD (31 - k))

/-! ### Encoder commands -/

/-- R150: ENC_BYTE appends the code of one byte; NO_CODE (6) without an entry, else OBUF_FULL (7) when the code does not
fit, in this order. -/
def Obligations.EncByteAppendsTheCode : Prop :=
  (∀ x : Sym, Encodes ((0x30000000 : Word) ||| x.setWidth 32) (.encByte x)) ∧
  ∀ (s : State) (x : Sym),
    (s.code.lookup x = none → Failed 6 s (exec (.encByte x) s)) ∧
    ∀ c, s.code.lookup x = some c →
      (512 < s.obuf.length + c.length → Failed 7 s (exec (.encByte x) s)) ∧
      (s.obuf.length + c.length ≤ 512 →
        ∃ t, exec (.encByte x) s = .next t ∧ t.obuf = s.obuf ++ c ∧ SameOperands s t ∧ SameResults s t ∧ SameControl s t ∧
          SameBuilder s t ∧ t.code = s.code ∧ SameDecoder s t ∧ SameModel s t)

/-- R151, R154: ENC_POP removes up to 8 bits from the front of obuf; NBITS in RES0[11:8], the bits from RES0[7] downward, 0
in every bit below them, 0 in RES0[31:12], RES1 and RES2. -/
def Obligations.EncPopTakesUpToEightBits : Prop :=
  Encodes 0x31000000 .encPop ∧
  ∀ s : State, ∃ t, exec .encPop s = .next t ∧ t.obuf = s.obuf.drop (min 8 s.obuf.length) ∧
    (t.res0.extractLsb' 8 4).toNat = min 8 s.obuf.length ∧ t.res0.extractLsb' 12 20 = 0 ∧
    (∀ i, i < 8 → t.res0.getLsbD (7 - i) = (s.obuf[i]?).getD false) ∧ t.res1 = 0 ∧ t.res2 = 0 ∧ SameOperands s t ∧
    SameControl s t ∧ SameBuilder s t ∧ t.code = s.code ∧ SameDecoder s t ∧ SameModel s t

/-- R152: ENC_CLEAR discards the output bit buffer. -/
def Obligations.EncClearEmptiesTheBuffer : Prop :=
  Encodes 0x32000000 .encClear ∧
  ∀ s : State, ∃ t, exec .encClear s = .next t ∧ t.obuf = [] ∧ t.bufinfo.extractLsb' 0 10 = 0 ∧ SameOperands s t ∧
    SameResults s t ∧ SameControl s t ∧ SameBuilder s t ∧ t.code = s.code ∧ SameDecoder s t ∧ SameModel s t

/-- R153: from an empty obuf, over any interleaving of ENC_BYTEs that raise no error with ENC_POPs, the bits the pops
deliver, followed by what is left in obuf, are the codes of the bytes in order. -/
def Obligations.PoppedBitsAreTheEncodedStream : Prop :=
  ∀ (s u : State) (ops : List (Option Sym)) (out : Bits), s.obuf = [] → EncRun s ops out u →
    stream s.code (ops.filterMap id) = some (out ++ u.obuf)

/-! ### Decoder commands -/

/-- R170, R171: DEC_LOAD takes the code table as the decoder table and resets the decoder when the table has the prefix
property; otherwise CODE_CONFLICT (8), and the previous decoder table stays. -/
def Obligations.DecLoadTakesPrefixFreeTables : Prop :=
  Encodes 0x40000000 .decLoad ∧
  ∀ s : State,
    (PrefixFree s.code →
      ∃ t, exec .decLoad s = .next t ∧ t.dcode = some s.code ∧ t.dpath = [] ∧ t.dcount = 0 ∧ t.dtarget = 0 ∧ t.dout = [] ∧
        t.status.extractLsb' 2 2 = 3 ∧ SameOperands s t ∧ SameResults s t ∧ SameControl s t ∧ SameBuilder s t ∧
        t.code = s.code ∧ t.obuf = s.obuf ∧ SameModel s t) ∧
    (¬ PrefixFree s.code → Failed 8 s (exec .decLoad s))

/-- R173: DEC_START sets the target to the latched A0 and restarts the decoder; NO_DTREE (9) when DV = 0. -/
def Obligations.DecStartSetsTheTarget : Prop :=
  Encodes 0x41000000 .decStart ∧
  ∀ (s : State) (p : Pending), s.pending = some p →
    (s.dcode = none → Failed 9 s (exec .decStart s)) ∧
    (s.dcode ≠ none →
      ∃ t, exec .decStart s = .next t ∧ t.dtarget = p.a0 ∧ t.dcount = 0 ∧ t.dpath = [] ∧ t.dout = [] ∧ t.dcode = s.dcode ∧
        (t.status.getLsbD 3 = true ↔ p.a0 = 0) ∧ SameOperands s t ∧ SameResults s t ∧ SameControl s t ∧ SameBuilder s t ∧
        t.code = s.code ∧ t.obuf = s.obuf ∧ SameModel s t)

/-- R174, R175, R216: DEC_BITS decodes its N bits in order; NO_DTREE (9), then DOUT_FULL (11), then BAD_PATH (10) when some
bit has no step, in which case the whole command has no effect. Stated for the decoder states of R39.3. -/
def Obligations.DecBitsDecodesInOrder : Prop :=
  (∀ (n : BitVec 4) (b : BitVec 8), 1 ≤ n.toNat → n.toNat ≤ 8 →
    Encodes ((0x42000000 : Word) ||| (n.setWidth 32 <<< 16) ||| b.setWidth 32) (.decBits n b)) ∧
  ∀ (s : State) (n : BitVec 4) (b : BitVec 8), InvDecoder s → 1 ≤ n.toNat → n.toNat ≤ 8 →
    (s.dcode = none → Failed 9 s (exec (.decBits n b) s)) ∧
    ∀ d, s.dcode = some d →
      (16 < s.dout.length + n.toNat → Failed 11 s (exec (.decBits n b) s)) ∧
      (s.dout.length + n.toNat ≤ 16 →
        (∀ r, Decodes d s.dtarget ⟨s.dpath, s.dcount, s.dout⟩ ((List.range n.toNat).map fun j => b.getLsbD (7 - j)) r →
          ∃ t, exec (.decBits n b) s = .next t ∧ t.dpath = r.path ∧ t.dcount = r.count ∧ t.dout = r.out ∧
            t.dcode = s.dcode ∧ t.dtarget = s.dtarget ∧ SameOperands s t ∧ SameResults s t ∧ SameControl s t ∧
            SameBuilder s t ∧ t.code = s.code ∧ t.obuf = s.obuf ∧ SameModel s t) ∧
        ((∀ r, ¬ Decodes d s.dtarget ⟨s.dpath, s.dcount, s.dout⟩ ((List.range n.toNat).map fun j => b.getLsbD (7 - j)) r) →
          Failed 10 s (exec (.decBits n b) s)))

/-- R177: DEC_POP removes one byte from the front of dout and returns it with VALID; an empty buffer reads 0. -/
def Obligations.DecPopTakesOneByte : Prop :=
  Encodes 0x43000000 .decPop ∧
  ∀ s : State, ∃ t, exec .decPop s = .next t ∧ t.res1 = 0 ∧ t.res2 = 0 ∧
    (s.dout = [] → t.res0 = 0 ∧ t.dout = []) ∧
    (∀ x xs, s.dout = x :: xs → t.res0.toNat = 256 + x.toNat ∧ t.dout = xs) ∧
    t.dcode = s.dcode ∧ t.dpath = s.dpath ∧ t.dcount = s.dcount ∧ t.dtarget = s.dtarget ∧ SameOperands s t ∧
    SameControl s t ∧ SameBuilder s t ∧ t.code = s.code ∧ t.obuf = s.obuf ∧ SameModel s t

/-- R178: DEC_END checks that the whole target was decoded: NO_DTREE (9), then TRUNCATED (12), else nothing changes. -/
def Obligations.DecEndChecksTheTarget : Prop :=
  Encodes 0x44000000 .decEnd ∧
  ∀ s : State,
    (s.dcode = none → Failed 9 s (exec .decEnd s)) ∧
    (s.dcode ≠ none → s.dcount.toNat < s.dtarget.toNat → Failed 12 s (exec .decEnd s)) ∧
    (s.dcode ≠ none → s.dtarget.toNat ≤ s.dcount.toNat → exec .decEnd s = .next s)

/-- R179, over runs of the commands: after DEC_START with target T, any sequence of DEC_BITS that raise no error, with
DEC_POPs between them, emits at most T bytes, those whose codes were fed; it emits exactly T once enough bits are fed,
and whatever is fed after them changes nothing. So the stream of a byte sequence of length T, with any bits after it,
decodes to that sequence. Stated for the decoder tables of R39.2 and R39.3. -/
def Obligations.DecodingInvertsTheStream : Prop :=
  ∀ (s t u : State) (p : Pending) (d : Table (Option Code)) (fed : Bits) (out : List Sym), s.pending = some p →
    s.dcode = some d → PrefixFree d → CodesSized d → exec .decStart s = .next t → DecRun t fed out u →
    u.dcount.toNat = (out ++ u.dout).length ∧ (out ++ u.dout).length ≤ p.a0.toNat ∧
      (∃ bs, stream d (out ++ u.dout) = some bs ∧
        ((out ++ u.dout).length < p.a0.toNat → fed = bs ++ u.dpath) ∧
        ((out ++ u.dout).length = p.a0.toNat → bs <+: fed ∧ u.dpath = [])) ∧
      ∀ (xs : List Sym) (bs pad : Bits), stream d xs = some bs → xs.length = p.a0.toNat → fed = bs ++ pad →
        out ++ u.dout = xs

/-- A property of the generated table (R137, R180): whatever the counts, BUILD_TREE, GEN_CODES and DEC_LOAD complete
without an error, every byte sequence over the alphabet has a stream in the generated codes, and by the cases of R175 the
decoder table decodes that stream, with any bits after it, to the sequence. That the commands do so is
`RoundTripRestoresTheBytes`. -/
def Obligations.CodecRoundTrip : Prop :=
  ∀ s : State, ∃ t u v, exec .buildTree s = .next t ∧ exec .genCodes t = .next u ∧ exec .decLoad u = .next v ∧
    v.err = s.err ∧ v.dcode = some u.code ∧ v.code = u.code ∧
    ∀ xs : List Sym, (∀ x ∈ xs, s.freq.lookup x ≠ 0) →
      ∃ bs, stream v.code xs = some bs ∧
        ∀ (target : Word) (pad : Bits), xs.length = target.toNat →
          ∀ d, v.dcode = some d → Decodes d target ⟨[], 0, []⟩ (bs ++ pad) ⟨[], target, xs⟩

/-! ### Invariants -/

/-- The reset state meets every invariant of R39. -/
def Obligations.ResetMeetsTheInvariants : Prop := Inv State.reset

/-- R39: every step keeps the invariants, from every state that meets them. -/
def Obligations.StepKeepsTheInvariants : Prop := ∀ s t : State, Inv s → step s = .next t → Inv t

/-- R39.1 alone: every step keeps the shape of the builder tree. -/
def Obligations.StepKeepsTheTreeShape : Prop := ∀ s t : State, InvTree s → step s = .next t → InvTree t

/-- R39.3 and R39.4 alone: every step keeps the decoder table free of prefixes and the path inside it. -/
def Obligations.StepKeepsTheDecoder : Prop := ∀ s t : State, InvDecoder s → step s = .next t → InvDecoder t

/-- R39.5 alone: every step keeps dcount within dtarget and the buffers within their capacities. -/
def Obligations.StepKeepsTheBufferBounds : Prop := ∀ s t : State, InvBuffers s → step s = .next t → InvBuffers t

/-- R39.6 and R210: every step keeps err among the codes of R212 and the pending word legal. -/
def Obligations.StepKeepsErrAndPendingLegal : Prop :=
  ∀ s t : State, InvErr s → InvPending s → step s = .next t → InvErr t ∧ InvPending t

/-! ### Whole runs -/

/-- After a run has ended (R252), the engine is idle and the host reads nothing more: a step changes nothing of the block
unless it is a later hardware reset, which is no part of the run. -/
def Obligations.EndedRunsStayEnded : Prop :=
  ∀ s t : State, Ended s → step s = .next t →
    Ended t ∧ t.hostReads = s.hostReads ∧ ((∀ rest, s.agenda ≠ .hardwareReset :: rest) → SameBlock s t) ∧
      ((∃ rest, s.agenda = .hardwareReset :: rest) → AtReset t)

/-- R180, over runs of the commands: from a state with no error and an empty obuf, BUILD_TREE, GEN_CODES and DEC_LOAD
complete without an error. For every byte sequence over the alphabet there is a run of ENC_BYTEs of it and ENC_POPs that
empties obuf, and for every such run: DEC_START with its length completes, some run of DEC_BITS and DEC_POP that raises no
error takes the popped bits followed by any others, and every such run gives the byte sequence back, after which DEC_END
completes without an error. -/
def Obligations.RoundTripRestoresTheBytes : Prop :=
  ∀ s : State, s.err = 0 → s.obuf = [] →
    ∃ t u v, exec .buildTree s = .next t ∧ exec .genCodes t = .next u ∧ exec .decLoad u = .next v ∧ v.err = 0 ∧
      ∀ xs : List Sym, (∀ x ∈ xs, s.freq.lookup x ≠ 0) → xs.length < 2 ^ 32 →
        (∃ ops bits w, EncRun v ops bits w ∧ ops.filterMap id = xs ∧ w.obuf = []) ∧
        ∀ ops bits w, EncRun v ops bits w → ops.filterMap id = xs → w.obuf = [] →
          ∀ p : Pending, p.a0.toNat = xs.length →
            ∃ y, exec .decStart { w with pending := some p } = .next y ∧ y.err = 0 ∧
              ∀ pad, (∃ out z, DecRun y (bits ++ pad) out z ∧ z.dout = []) ∧
                ∀ out z, DecRun y (bits ++ pad) out z → out ++ z.dout = xs ∧ exec .decEnd z = .next z
end

