-- ==== Sys2Proof/Laws/Bits.lean ====
section
/-! SUPPORT. Laws of bit strings in registers (`Operands`): placing a bit string in a register and taking it out. -/

namespace Sys2Proof

/-- Two fields side by side as a number. (By rw: the width of a register is a literal, which simp does not read as the sum
of the fields' widths.) -/
theorem toNat_fields {m n : Nat} (x : BitVec m) (y : BitVec n) : (x ++ y).toNat = x.toNat * 2 ^ n + y.toNat := by
  rw [BitVec.toNat_append, Nat.shiftLeft_eq, ← Nat.shiftLeft_eq, Nat.shiftLeft_add_eq_or_of_lt y.isLt]

/-- A field taken out of a register, as a number. -/
theorem toNat_extract {w : Nat} (x : BitVec w) (lo len : Nat) :
    (x.extractLsb' lo len).toNat = x.toNat / 2 ^ lo % 2 ^ len := by
  rw [BitVec.extractLsb'_toNat, Nat.shiftRight_eq_div_pow]

theorem bitsVal_lt (w : Nat) (b : Bits) : bitsVal w b < 2 ^ w := by
  induction w generalizing b with
  | zero => simp [bitsVal]
  | succ w ih =>
    cases b with
    | nil => simp [bitsVal]
    | cons x xs =>
      have := ih xs
      rw [bitsVal, Nat.pow_succ]
      split <;> omega

theorem testBit_bitsVal (w : Nat) (b : Bits) (i : Nat) (h : i < w) :
    (bitsVal w b).testBit (w - 1 - i) = (b[i]?).getD false := by
  induction w generalizing b i with
  | zero => omega
  | succ w ih =>
    cases b with
    | nil => simp [bitsVal]
    | cons x xs =>
      rw [bitsVal]
      cases i with
      | zero =>
        have hlt := bitsVal_lt w xs
        cases x
        · simp [Nat.testBit_lt_two_pow hlt]
        · simp [Nat.testBit_two_pow_add_eq, Nat.testBit_lt_two_pow hlt]
      | succ i =>
        have hi : w + 1 - 1 - (i + 1) = w - 1 - i := by omega
        have hne : w ≠ w - 1 - i := by omega
        rw [hi, List.getElem?_cons_succ, ← ih xs i (by omega)]
        cases x
        · simp
        · simp [Nat.testBit_two_pow_add_gt (show w - 1 - i < w by omega)]

/-- Bit `i` of a bit string lies at bit `w - 1 - i`, and the bits beyond the string are 0 (R55, R81). -/
theorem getLsbD_packBits (w : Nat) (b : Bits) (i : Nat) (h : i < w) :
    (packBits w b).getLsbD (w - 1 - i) = (b[i]?).getD false := by
  rw [packBits, BitVec.getLsbD_ofNat, testBit_bitsVal w b i h]
  simp only [Bool.and_eq_right_iff_imp, decide_eq_true_eq]
  omega

@[simp] theorem length_codeOfCbuf (cb : Vector Word 8) (len : Nat) : (codeOfCbuf cb len).length = len := by
  simp [codeOfCbuf]

/-- The bits of the code in CBUF (R81). -/
theorem getElem?_codeOfCbuf (cb : Vector Word 8) (len : Nat) (j : Fin 8) (k : Nat) (hk : k < 32)
    (h : 32 * j.val + k < len) : (codeOfCbuf cb len)[32 * j.val + k]? = some (cb[j].getLsbD (31 - k)) := by
  have hd : (32 * j.val + k) / 32 = j.val := by omega
  have hm : (32 * j.val + k) % 32 = k := by omega
  simp [codeOfCbuf, h, hd, hm]

/-- The bits of a code laid into CBUF (R136). -/
theorem getLsbD_cbufOfCode (b : Code) (j : Fin 8) (k : Nat) (hk : k < 32) :
    (cbufOfCode b)[j].getLsbD (31 - k) = (b[32 * j.val + k]?).getD false := by
  have := getLsbD_packBits 32 (b.drop (32 * j.val)) k hk
  simpa [cbufOfCode, List.getElem?_drop] using this

theorem consumedBits_eq (n : BitVec 4) (bits : BitVec 8) (h : n.toNat ≤ 8) :
    consumedBits n bits = (List.range n.toNat).map fun j => bits.getLsbD (7 - j) := by
  rw [consumedBits, ← List.map_take, List.take_range, Nat.min_eq_left h]

theorem length_consumedBits_le (n : BitVec 4) (bits : BitVec 8) : (consumedBits n bits).length ≤ n.toNat := by
  simp [consumedBits]

end Sys2Proof
end

