-- ==== Sys2Proof/Laws/Tables.lean ====
section
/-! SUPPORT. Laws of the tables, of the symbols and of the prefix order (`Ops`), and of the prefix check (`Decoder`). -/

namespace Sys2Proof

theorem mem_allSyms (s : Sym) : s ∈ allSyms := by
  refine List.mem_map.2 ⟨s.toNat, List.mem_range.2 s.isLt, ?_⟩
  simp

@[simp] theorem length_allSyms : allSyms.length = 256 := by simp [allSyms]

theorem allSyms_getElem? (i : Nat) (h : i < 256) : allSyms[i]? = some (BitVec.ofNat 8 i) := by
  simp [allSyms, h]

/-- The symbols are listed in ascending order. -/
theorem allSyms_ascending : allSyms.Pairwise fun a b => a.toNat < b.toNat := by
  refine List.pairwise_map.2 (List.Pairwise.imp_of_mem ?_ List.pairwise_lt_range)
  intro a b ha hb hab
  have ha : a < 256 := List.mem_range.1 ha
  have hb : b < 256 := List.mem_range.1 hb
  simp only [BitVec.toNat_ofNat]
  omega

theorem allSyms_nodup : allSyms.Nodup :=
  allSyms_ascending.imp fun h e => by subst e; exact Nat.lt_irrefl _ h

/-! ### Tables -/

@[simp] theorem Table.lookup_update_same {α : Type} (t : Table α) (s : Sym) (a : α) : (t.update s a).lookup s = a := by
  simp [Table.lookup, Table.update]

theorem Table.lookup_update_ne {α : Type} (t : Table α) {s x : Sym} (a : α) (h : x ≠ s) :
    (t.update s a).lookup x = t.lookup x := by
  have : s.toNat ≠ x.toNat := fun e => h (BitVec.eq_of_toNat_eq e.symm)
  simp [Table.lookup, Table.update, Vector.getElem_set_ne, this]

/-- A read after a write: the value written at its symbol, the old entry at every other. -/
theorem Table.lookup_update {α : Type} (t : Table α) (s x : Sym) (a : α) :
    (t.update s a).lookup x = if x = s then a else t.lookup x := by
  split
  · subst x; simp
  · exact Table.lookup_update_ne t a ‹_›

@[simp] theorem Table.lookup_const {α : Type} (a : α) (s : Sym) : (Table.const a).lookup s = a := by
  simp [Table.lookup, Table.const]

/-- Tables with the same entries are equal. -/
theorem Table.ext {α : Type} {t u : Table α} (h : ∀ s, t.lookup s = u.lookup s) : t = u := by
  refine Vector.ext fun i hi => ?_
  have := h (BitVec.ofNat 8 i)
  simpa [Table.lookup, Nat.mod_eq_of_lt hi] using this

theorem Table.entries_eq {α : Type} (t : Table α) : t.entries = allSyms.map fun s => (s, t.lookup s) := by
  refine List.ext_getElem (by simp [entries, allSyms]) fun i h _ => ?_
  have hi : i < 256 := by simp [entries, allSyms] at h; exact h
  simp [entries, allSyms, Table.lookup, Nat.mod_eq_of_lt hi]

/-! ### Prefixes -/

theorem isPrefix_iff (a b : Bits) : isPrefix a b = true ↔ a <+: b := by
  rw [isPrefix, List.prefix_iff_eq_take]
  simp only [Bool.and_eq_true, decide_eq_true_eq, beq_iff_eq]
  constructor
  · rintro ⟨-, h⟩; exact h.symm
  · intro h
    refine ⟨?_, h.symm⟩
    have := congrArg List.length h
    simp at this
    omega

theorem isProperPrefix_iff (a b : Bits) : isProperPrefix a b = true ↔ a <+: b ∧ a.length < b.length := by
  rw [isProperPrefix, Bool.and_eq_true, isPrefix_iff, decide_eq_true_eq, and_comm]

namespace Machine

/-! ### The prefix check -/

/-- The present codes, by reading the table at each symbol. -/
theorem presentCodes_eq (t : Table (Option Code)) : presentCodes t = allSyms.filterMap t.lookup := by
  rw [presentCodes, Table.entries_eq, List.filterMap_map]
  rfl

theorem mem_presentCodes (t : Table (Option Code)) (c : Code) :
    c ∈ presentCodes t ↔ ∃ s, t.lookup s = some c := by
  simp [presentCodes_eq, mem_allSyms]

theorem codesConflict_comm (a b : Code) : codesConflict a b = codesConflict b a := by
  rw [codesConflict, codesConflict, Bool.or_comm]

theorem anyConflict_eq_false (cs : List Code) :
    anyConflict cs = false ↔ cs.Pairwise fun a b => codesConflict a b = false := by
  induction cs with
  | nil => simp [anyConflict]
  | cons c cs ih => simp [anyConflict, ih]

/-- The check of DEC_LOAD passes exactly the tables with the prefix property (R170, R171). -/
theorem anyConflict_iff_prefixFree (t : Table (Option Code)) :
    anyConflict (presentCodes t) = false ↔ PrefixFree t := by
  rw [anyConflict_eq_false, presentCodes_eq, List.pairwise_filterMap]
  constructor
  · intro h s u a b hne ha hb
    let R := fun x y : Sym => x ≠ y → ∀ c, t.lookup x = some c → ∀ d, t.lookup y = some d → codesConflict c d = false
    have hsymm : Std.Symm R :=
      ⟨fun _ _ hR hne c hc d hd => by rw [codesConflict_comm]; exact hR hne.symm d hd c hc⟩
    have hall := List.Pairwise.forall_of_forall (R := R) (l := allSyms) (fun _ _ hne => absurd rfl hne)
      (List.Pairwise.imp (S := R) (fun hxy _ => hxy) h)
    have := hall (mem_allSyms s) (mem_allSyms u) hne a ha b hb
    simp [codesConflict] at this
    exact this.1
  · intro h
    refine allSyms_nodup.imp fun {x y} hne c hc d hd => ?_
    simp [codesConflict, h x y c d hne hc hd, h y x d c (Ne.symm hne) hd hc]

end Machine

end Sys2Proof
end

