-- ==== Sys2Proof/Laws/Merge.lean ====
section
/-! SUPPORT. Laws of the tree builder: what `extractMin` answers, the invariant of the merge loop, and what the loop
leaves (`TreeBuilder`, R103 to R108). -/

namespace Sys2Proof.Machine

/-! ### extractMin -/

theorem QItem.le_iff (a b : QItem) :
    a.le b = true ↔ a.weight.toNat < b.weight.toNat ∨ (a.weight = b.weight ∧ a.index ≤ b.index) := by
  simp [QItem.le]

theorem QItem.le_total (a b : QItem) : a.le b = true ∨ b.le a = true := by
  simp only [QItem.le_iff, ← BitVec.toNat_inj]
  omega

theorem QItem.le_trans {a b c : QItem} (h : a.le b = true) (h' : b.le c = true) : a.le c = true := by
  simp only [QItem.le_iff, ← BitVec.toNat_inj] at *
  omega

theorem extractMin_eq_none (q : List QItem) : extractMin q = none ↔ q = [] := by
  cases q with
  | nil => simp [extractMin]
  | cons x xs =>
    simp only [extractMin, reduceCtorEq, iff_false]
    cases extractMin xs with
    | none => simp
    | some p => obtain ⟨m, r⟩ := p; dsimp only; split <;> simp

/-- What `extractMin` answers: the pair it removes and the rest make up the ordering, and the pair is smallest. -/
theorem extractMin_spec {q : List QItem} {m : QItem} {r : List QItem} (h : extractMin q = some (m, r)) :
    q.Perm (m :: r) ∧ ∀ x ∈ r, m.le x = true := by
  induction q generalizing m r with
  | nil => simp [extractMin] at h
  | cons x xs ih =>
    rw [extractMin] at h
    cases hx : extractMin xs with
    | none =>
      rw [hx] at h
      obtain ⟨rfl, rfl⟩ : x = m ∧ [] = r := by simpa using h
      rw [(extractMin_eq_none xs).1 hx]
      simp
    | some p =>
      obtain ⟨m', r'⟩ := p
      obtain ⟨hp, hm⟩ := ih hx
      rw [hx] at h
      dsimp only at h
      split at h
      next hle =>
        obtain ⟨rfl, rfl⟩ : x = m ∧ xs = r := by simpa using h
        refine ⟨List.Perm.refl _, fun y hy => ?_⟩
        rcases List.mem_cons.1 (hp.subset hy) with rfl | hy
        · exact hle
        · exact QItem.le_trans hle (hm y hy)
      next hle =>
        obtain ⟨rfl, rfl⟩ : m' = m ∧ x :: r' = r := by simpa using h
        refine ⟨(hp.cons x).trans (List.Perm.swap m' x r'), fun y hy => ?_⟩
        rcases List.mem_cons.1 hy with rfl | hy
        · exact (QItem.le_total y m').resolve_left hle
        · exact hm y hy

/-! ### The loop's invariant -/

/-- The claim of R104 to R106 and R108 about one internal node of an arena. -/
def MergedAt (nodes : List Node) (i : Nat) (w : Weight) (z o : NodeIdx) : Prop :=
  waiting nodes i z.toNat ∧ waiting nodes i o.toNat ∧ nodeBefore nodes z.toNat o.toNat ∧
    (∀ j, waiting nodes i j → j ≠ z.toNat → nodeBefore nodes z.toNat j) ∧
    (∀ j, waiting nodes i j → j ≠ z.toNat → j ≠ o.toNat → nodeBefore nodes o.toNat j) ∧
    ∃ m n, nodes[z.toNat]? = some m ∧ nodes[o.toNat]? = some n ∧ w.toNat = m.weight.toNat + n.weight.toNat

/-- What holds of the arena and of the ordering at the head of the merge loop, for `k` leaves of total weight
`total`. -/
structure MergeInv (k total : Nat) (nodes : List Node) (q : List QItem) : Prop where
  size : nodes.length + q.length = 2 * k
  leaves : k ≤ nodes.length
  some_left : 0 < k → 0 < q.length
  leavesFirst : ∀ (i : Nat) (n : Node), nodes[i]? = some n → (n.isLeaf = true ↔ i < k)
  items : ∀ x ∈ q, ∃ n, nodes[x.index]? = some n ∧ n.weight = x.weight
  /-- Every node waits in the ordering once or is a child once, never both. -/
  once : ∀ j < nodes.length, (nodes.flatMap Node.children).count j + (q.map QItem.index).count j = 1
  merged : ∀ (i : Nat) (w : Weight) (z o : NodeIdx), nodes[i]? = some (Node.internal w z o) → MergedAt nodes i w z o
  sum : (q.map fun x => x.weight.toNat).sum = total

theorem getElem?_append_of_some {nodes : List Node} {i : Nat} {n : Node} (more : List Node) (h : nodes[i]? = some n) :
    (nodes ++ more)[i]? = some n := by
  have hi := (List.getElem?_eq_some_iff.1 h).1
  rwa [List.getElem?_append_left hi]

theorem nodeBefore_append {nodes : List Node} {a b : Nat} (more : List Node) (h : nodeBefore nodes a b) :
    nodeBefore (nodes ++ more) a b := by
  obtain ⟨m, n, hm, hn, h⟩ := h
  exact ⟨m, n, getElem?_append_of_some more hm, getElem?_append_of_some more hn, h⟩

theorem waiting_append {nodes : List Node} {i : Nat} (more : List Node) (j : Nat) (hi : i ≤ nodes.length) :
    waiting (nodes ++ more) i j ↔ waiting nodes i j := by
  refine and_congr_right fun _ => forall₃_congr fun m n hm => ?_
  rw [List.getElem?_append_left (by omega)]

theorem MergedAt.append {nodes : List Node} {i : Nat} {w : Weight} {z o : NodeIdx} (more : List Node)
    (hi : i ≤ nodes.length) (h : MergedAt nodes i w z o) : MergedAt (nodes ++ more) i w z o := by
  obtain ⟨hz, ho, hzo, hzj, hoj, m, n, hm, hn, hw⟩ := h
  refine ⟨(waiting_append more _ hi).2 hz, (waiting_append more _ hi).2 ho, nodeBefore_append more hzo,
    fun j hj hne => nodeBefore_append more (hzj j ((waiting_append more _ hi).1 hj) hne),
    fun j hj hne hne' => nodeBefore_append more (hoj j ((waiting_append more _ hi).1 hj) hne hne'),
    m, n, getElem?_append_of_some more hm, getElem?_append_of_some more hn, hw⟩

/-- The nodes that wait when the next node is created are those of the ordering. -/
theorem MergeInv.waiting_iff {k total : Nat} {nodes : List Node} {q : List QItem} (h : MergeInv k total nodes q)
    (j : Nat) : waiting nodes nodes.length j ↔ j ∈ q.map QItem.index := by
  have hmem : (∀ m n, m < nodes.length → nodes[m]? = some n → j ∉ n.children) ↔ j ∉ nodes.flatMap Node.children := by
    rw [List.mem_flatMap]
    constructor
    · rintro h ⟨n, hn, hj⟩
      obtain ⟨m, hm⟩ := List.getElem?_of_mem hn
      exact h m n (List.getElem?_eq_some_iff.1 hm).1 hm hj
    · rintro h m n - hm hj
      exact h ⟨n, List.mem_of_getElem? hm, hj⟩
  rw [waiting, hmem]
  constructor
  · rintro ⟨hlt, hj⟩
    have := h.once j hlt
    rw [List.count_eq_zero_of_not_mem hj] at this
    exact List.count_pos_iff.1 (by omega)
  · intro hj
    obtain ⟨x, hx, rfl⟩ := List.mem_map.1 hj
    obtain ⟨n, hn, -⟩ := h.items x hx
    have hlt := (List.getElem?_eq_some_iff.1 hn).1
    refine ⟨hlt, fun hc => ?_⟩
    have h1 := h.once x.index hlt
    have h2 := List.count_pos_iff.2 hc
    have h3 := List.count_pos_iff.2 hj
    omega

/-- A smaller pair of the ordering is the earlier node. -/
theorem nodeBefore_of_le {nodes : List Node} {a b : QItem} (ha : ∃ n, nodes[a.index]? = some n ∧ n.weight = a.weight)
    (hb : ∃ n, nodes[b.index]? = some n ∧ n.weight = b.weight) (hne : a.index ≠ b.index) (h : a.le b = true) :
    nodeBefore nodes a.index b.index := by
  obtain ⟨m, hm, hmw⟩ := ha
  obtain ⟨n, hn, hnw⟩ := hb
  refine ⟨m, n, hm, hn, ?_⟩
  rw [hmw, hnw]
  rcases (QItem.le_iff a b).1 h with h | ⟨h, h'⟩
  · exact .inl h
  · exact .inr ⟨h, by omega⟩

/-- One round of the loop keeps the invariant. -/
theorem MergeInv.round {k total : Nat} {nodes : List Node} {q q1 q2 : List QItem} {a b : QItem}
    (h : MergeInv k total nodes q) (hk : k ≤ 256) (htotal : total < 2 ^ 40) (ha : extractMin q = some (a, q1))
    (hb : extractMin q1 = some (b, q2)) :
    MergeInv k total
      (nodes ++ [.internal (a.weight + b.weight) (BitVec.ofNat 9 a.index) (BitVec.ofNat 9 b.index)])
      (⟨a.weight + b.weight, nodes.length⟩ :: q2) := by
  obtain ⟨hpa, hmina⟩ := extractMin_spec ha
  obtain ⟨hpb, hminb⟩ := extractMin_spec hb
  have hp : q.Perm (a :: b :: q2) := hpa.trans (hpb.cons a)
  have hlen : q.length = q2.length + 2 := by simpa using hp.length_eq
  have hsize := h.size
  have haq : a ∈ q := hp.mem_iff.2 (by simp)
  have hbq : b ∈ q := hp.mem_iff.2 (by simp)
  have hnd : (q.map QItem.index).Nodup := by
    refine List.nodup_iff_count_le_one.2 fun j => ?_
    by_cases hj : j ∈ q.map QItem.index
    · have := h.once j ((h.waiting_iff j).2 hj).1
      omega
    · rw [List.count_eq_zero_of_not_mem hj]; omega
  have hnd' := (hp.map QItem.index).nodup_iff.1 hnd
  simp only [List.map_cons, List.nodup_cons, List.mem_cons, not_or] at hnd'
  obtain ⟨⟨hab, haq2⟩, hbq2, -⟩ := hnd'
  obtain ⟨na, hna, hwa⟩ := h.items a haq
  obtain ⟨nb, hnb, hwb⟩ := h.items b hbq
  have hal : a.index < nodes.length := (List.getElem?_eq_some_iff.1 hna).1
  have hbl : b.index < nodes.length := (List.getElem?_eq_some_iff.1 hnb).1
  have hai : (BitVec.ofNat 9 a.index).toNat = a.index := by simp; omega
  have hbi : (BitVec.ofNat 9 b.index).toNat = b.index := by simp; omega
  have hsum : a.weight.toNat + b.weight.toNat + (q2.map fun x => x.weight.toNat).sum = total := by
    rw [← h.sum, (hp.map _).sum_eq]; simp; omega
  have hw : (a.weight + b.weight).toNat = a.weight.toNat + b.weight.toNat := by
    rw [BitVec.toNat_add]; omega
  have hone : ∀ n : Node, (nodes ++ [n])[nodes.length]? = some n := fun n => by simp
  generalize hnew : Node.internal (a.weight + b.weight) (BitVec.ofNat 9 a.index) (BitVec.ofNat 9 b.index) = new
  have hcases : ∀ (i : Nat) (n : Node), (nodes ++ [new])[i]? = some n → nodes[i]? = some n ∨ (i = nodes.length ∧ n = new) := by
    intro i n hi
    rcases Nat.lt_or_ge i nodes.length with hlt | hge
    · rw [List.getElem?_append_left hlt] at hi; exact .inl hi
    · rw [List.getElem?_append_right hge] at hi
      have : i - nodes.length < 1 := by simpa using (List.getElem?_eq_some_iff.1 hi).1
      have hi0 : i = nodes.length := by omega
      subst hi0
      simp at hi
      exact .inr ⟨rfl, hi.symm⟩
  have hleaves := h.leaves
  refine ⟨by simp; omega, by simp; omega, by simp, ?_, ?_, ?_, ?_, ?_⟩
  · intro i n hi
    rcases hcases i n hi with hi | ⟨rfl, rfl⟩
    · exact h.leavesFirst i n hi
    · rw [← hnew]; simp [Node.isLeaf]; omega
  · intro x hx
    rcases List.mem_cons.1 hx with rfl | hx
    · exact ⟨new, hone new, by rw [← hnew]; rfl⟩
    · obtain ⟨n, hn, hw⟩ := h.items x (hp.mem_iff.2 (by simp [hx]))
      exact ⟨n, getElem?_append_of_some _ hn, hw⟩
  · intro j hj
    have hch : new.children = [a.index, b.index] := by rw [← hnew, Node.children, hai, hbi]
    rw [List.flatMap_append, List.count_append]
    simp only [List.flatMap_cons, List.flatMap_nil, List.append_nil, hch, List.map_cons]
    rcases Nat.lt_or_ge j nodes.length with hlt | hge
    · have h1 := h.once j hlt
      have h2 := (hp.map QItem.index).count_eq j
      simp only [List.map_cons, List.count_cons, List.count_nil] at h2 ⊢
      have h3 : nodes.length ≠ j := by omega
      simp only [beq_iff_eq, h3, if_false] at h2 ⊢
      omega
    · have hj' : j = nodes.length := by simp at hj; omega
      subst hj'
      have hc0 : (nodes.flatMap Node.children).count nodes.length = 0 := by
        refine List.count_eq_zero_of_not_mem fun hm => ?_
        obtain ⟨n, hn, hc⟩ := List.mem_flatMap.1 hm
        obtain ⟨i, hi⟩ := List.getElem?_of_mem hn
        have hil := (List.getElem?_eq_some_iff.1 hi).1
        cases n with
        | leaf s w => simp [Node.children] at hc
        | internal w z o =>
          obtain ⟨⟨hz, -⟩, ⟨ho, -⟩, -⟩ := h.merged i w z o hi
          simp [Node.children] at hc
          omega
      have hq2 : (q2.map QItem.index).count nodes.length = 0 := by
        refine List.count_eq_zero_of_not_mem fun hm => ?_
        obtain ⟨x, hx, hxe⟩ := List.mem_map.1 hm
        obtain ⟨n, hn, -⟩ := h.items x (hp.mem_iff.2 (by simp [hx]))
        have := (List.getElem?_eq_some_iff.1 hn).1
        omega
      simp only [List.count_cons, List.count_nil, hc0, hq2]
      have h1 : (a.index == nodes.length) = false := by simp; omega
      have h2 : (b.index == nodes.length) = false := by simp; omega
      simp [h1, h2]
  · intro i w z o hi
    rcases hcases i _ hi with hi | ⟨rfl, he⟩
    · exact (h.merged i w z o hi).append _ (List.getElem?_eq_some_iff.1 hi).1.le
    · rw [← hnew] at he
      obtain ⟨rfl, rfl, rfl⟩ : w = a.weight + b.weight ∧ z = BitVec.ofNat 9 a.index ∧ o = BitVec.ofNat 9 b.index := by
        simpa using he
      refine MergedAt.append _ (Nat.le_refl _) ?_
      rw [MergedAt, hai, hbi]
      refine ⟨(h.waiting_iff _).2 (List.mem_map_of_mem haq), (h.waiting_iff _).2 (List.mem_map_of_mem hbq),
        nodeBefore_of_le (h.items a haq) (h.items b hbq) hab (hmina b (hpb.mem_iff.2 (by simp))), ?_, ?_, na, nb, hna, hnb, ?_⟩
      · intro j hj hne
        obtain ⟨x, hx, rfl⟩ := List.mem_map.1 ((h.waiting_iff j).1 hj)
        rcases List.mem_cons.1 (hpa.mem_iff.1 hx) with rfl | hx1
        · exact absurd rfl hne
        · exact nodeBefore_of_le (h.items a haq) (h.items x hx) (Ne.symm hne) (hmina x hx1)
      · intro j hj hne hne'
        obtain ⟨x, hx, rfl⟩ := List.mem_map.1 ((h.waiting_iff j).1 hj)
        rcases List.mem_cons.1 (hp.mem_iff.1 hx) with rfl | hx1
        · exact absurd rfl hne
        rcases List.mem_cons.1 hx1 with rfl | hx2
        · exact absurd rfl hne'
        · exact nodeBefore_of_le (h.items b hbq) (h.items x hx) (Ne.symm hne') (hminb x hx2)
      · rw [hw, hwa, hwb]
  · simp only [List.map_cons, List.sum_cons, hw]
    exact hsum

/-- What the merge loop leaves: the invariant with at most one pair left in the ordering. -/
theorem mergeLoop_inv {k total : Nat} (hk : k ≤ 256) (htotal : total < 2 ^ 40) :
    ∀ (fuel : Nat) (nodes : List Node) (q : List QItem), MergeInv k total nodes q → q.length ≤ fuel + 1 →
      ∃ q', MergeInv k total (mergeLoop fuel nodes q) q' ∧ q'.length ≤ 1 ∧ nodes <+: mergeLoop fuel nodes q
  | 0, nodes, q, h, hf => ⟨q, h, hf, List.prefix_refl _⟩
  | fuel + 1, nodes, q, h, hf => by
    rw [mergeLoop]
    cases ha : extractMin q with
    | none => exact ⟨q, h, by simp [(extractMin_eq_none q).1 ha], List.prefix_refl _⟩
    | some p =>
      obtain ⟨a, q1⟩ := p
      dsimp only
      have hla : q.length = q1.length + 1 := by simpa using (extractMin_spec ha).1.length_eq
      cases hb : extractMin q1 with
      | none => exact ⟨q, h, by simp [hla, (extractMin_eq_none q1).1 hb], List.prefix_refl _⟩
      | some p =>
        obtain ⟨b, q2⟩ := p
        dsimp only
        have hlb : q1.length = q2.length + 1 := by simpa using (extractMin_spec hb).1.length_eq
        obtain ⟨q', hinv, hle, hpre⟩ := mergeLoop_inv hk htotal fuel _ _ (h.round hk htotal ha hb) (by simp; omega)
        exact ⟨q', hinv, hle, (List.prefix_append _ _).trans hpre⟩

end Sys2Proof.Machine
end

