-- ==== Sys2Proof/Laws/Tree.lean ====
section
/-! SUPPORT. Laws of the built tree (`TreeBuilder`, R103 to R110) and of the trees of R39.1: their size, their paths. -/

namespace Sys2Proof.Machine

/-! ### The leaves and the first ordering -/

/-- The alphabet, by reading the table at each symbol. -/
theorem alphabet_eq (freq : Table Count) : alphabet freq = allSyms.filter fun s => freq.lookup s != 0 := by
  rw [alphabet, Table.entries_eq, List.filter_map, List.map_map]
  exact List.map_id _

theorem toNat_leafWeight (n : Count) : (leafWeight n).toNat = n.toNat := by
  have := n.isLt
  show (n.setWidth 40).toNat = _
  rw [BitVec.toNat_setWidth]
  omega

theorem length_alphabet_le (freq : Table Count) : (alphabet freq).length ≤ 256 := by
  rw [alphabet_eq]
  refine (List.length_filter_le _ _).trans ?_
  simp [allSyms]

theorem mem_alphabet (freq : Table Count) (s : Sym) : s ∈ alphabet freq ↔ freq.lookup s ≠ 0 := by
  simp [alphabet_eq, mem_allSyms]

theorem alphabet_ascending (freq : Table Count) : (alphabet freq).Pairwise fun a b => a.toNat < b.toNat := by
  rw [alphabet_eq]
  exact allSyms_ascending.filter _

@[simp] theorem length_leavesOf (freq : Table Count) : (leavesOf freq).length = (alphabet freq).length := by
  simp [leavesOf]

theorem leavesOf_getElem? (freq : Table Count) (i : Nat) (n : Node) :
    (leavesOf freq)[i]? = some n ↔
      ∃ s, (alphabet freq)[i]? = some s ∧ n = .leaf s (leafWeight (freq.lookup s)) := by
  simp [leavesOf, eq_comm]

theorem queueOf_index (leaves : List Node) : (queueOf leaves).map QItem.index = List.range leaves.length := by
  rw [queueOf, List.map_map, List.range_eq_range', ← List.zipIdx_map_snd 0 leaves]
  rfl

theorem queueOf_weight (leaves : List Node) :
    (queueOf leaves).map (fun x => x.weight.toNat) = leaves.map fun n => n.weight.toNat := by
  rw [queueOf, List.map_map]
  conv_rhs => rw [← List.zipIdx_map_fst 0 leaves, List.map_map]
  rfl

theorem sum_filter_ne_zero {α : Type} (f : α → Nat) (p : α → Bool) (l : List α) (h : ∀ a ∈ l, p a = false → f a = 0) :
    ((l.filter p).map f).sum = (l.map f).sum := by
  induction l with
  | nil => rfl
  | cons a l ih =>
    have ih := ih fun b hb => h b (List.mem_cons_of_mem a hb)
    have ha := h a List.mem_cons_self
    rw [List.filter_cons]
    cases hp : p a
    · simp [ih, ha hp]
    · simp [ih]

/-- The leaves weigh together what all counts sum to. -/
theorem sum_leavesOf (freq : Table Count) : ((leavesOf freq).map fun n => n.weight.toNat).sum = totalCount freq := by
  rw [leavesOf, List.map_map, totalCount, alphabet_eq]
  rw [← sum_filter_ne_zero (fun s => (freq.lookup s).toNat) (fun s => freq.lookup s != 0) allSyms]
  · refine congrArg List.sum (List.map_congr_left fun s _ => ?_)
    exact toNat_leafWeight _
  · intro s _ h
    have h : freq.lookup s = 0 := by simpa using h
    simp [h]

theorem sum_le_length_mul (l : List Nat) (b : Nat) (h : ∀ a ∈ l, a ≤ b) : l.sum ≤ l.length * b := by
  induction l with
  | nil => simp
  | cons a l ih =>
    have := ih fun x hx => h x (List.mem_cons_of_mem a hx)
    have := h a List.mem_cons_self
    simp only [List.sum_cons, List.length_cons, Nat.add_mul]
    omega

/-- No sum of counts overflows 40 bits (R108). -/
theorem totalCount_lt (freq : Table Count) : totalCount freq < 2 ^ 40 := by
  have := sum_le_length_mul (allSyms.map fun s => (freq.lookup s).toNat) (2 ^ 32 - 1) (by
    intro a ha
    obtain ⟨s, -, rfl⟩ := List.mem_map.1 ha
    have := (freq.lookup s).isLt
    omega)
  simp only [List.length_map] at this
  have hl : allSyms.length = 256 := by simp [allSyms]
  rw [hl] at this
  rw [totalCount]
  omega

theorem mergeInv_leaves (freq : Table Count) :
    MergeInv (alphabet freq).length (totalCount freq) (leavesOf freq) (queueOf (leavesOf freq)) := by
  have hql : (queueOf (leavesOf freq)).length = (alphabet freq).length := by simp [queueOf]
  have hleaf : ∀ (i : Nat) (n : Node), (leavesOf freq)[i]? = some n → n.isLeaf = true ∧ n.children = [] := by
    intro i n h
    obtain ⟨s, -, rfl⟩ := (leavesOf_getElem? freq i n).1 h
    exact ⟨rfl, rfl⟩
  refine ⟨by rw [hql, length_leavesOf]; omega, by simp, by rw [hql]; exact id, ?_, ?_, ?_, ?_, ?_⟩
  · intro i n h
    have := (List.getElem?_eq_some_iff.1 h).1
    simp only [(hleaf i n h).1, true_iff]
    simpa using this
  · intro x hx
    obtain ⟨⟨n, i⟩, hp, rfl⟩ := List.mem_map.1 hx
    exact ⟨n, List.mem_zipIdx_iff_getElem?.1 hp, rfl⟩
  · intro j hj
    have h0 : (leavesOf freq).flatMap Node.children = [] := by
      refine List.flatMap_eq_nil_iff.2 fun n hn => ?_
      obtain ⟨i, hi⟩ := List.getElem?_of_mem hn
      exact (hleaf i n hi).2
    rw [h0, queueOf_index, List.count_nil, List.count_eq_one_of_mem List.nodup_range (List.mem_range.2 hj)]
  · intro i w z o h
    exact absurd (hleaf i _ h).1 (by simp [Node.isLeaf])
  · rw [queueOf_weight, sum_leavesOf]

/-! ### The arena of a built tree -/

theorem countP_of_first {α : Type} (p : α → Bool) (k : Nat) :
    ∀ l : List α, (∀ (i : Nat) (a : α), l[i]? = some a → (p a = true ↔ i < k)) → k ≤ l.length → l.countP p = k := by
  induction k with
  | zero =>
    intro l h _
    refine List.countP_eq_zero.2 fun a ha => ?_
    obtain ⟨i, hi⟩ := List.getElem?_of_mem ha
    simpa using h i a hi
  | succ k ih =>
    intro l h hl
    cases l with
    | nil => simp at hl
    | cons a l =>
      have ha : p a = true := (h 0 a (by simp)).2 (by omega)
      rw [List.countP_cons_of_pos ha, ih l (fun i b hb => ?_) (by simpa using hl)]
      rw [h (i + 1) b (by simpa using hb)]
      omega

/-- What the merge loop leaves of the leaves of a frequency table. -/
structure BuiltArena (freq : Table Count) (nodes : List Node) : Prop where
  inv : ∃ q, MergeInv (alphabet freq).length (totalCount freq) nodes q ∧ q.length ≤ 1
  leaves : leavesOf freq <+: nodes

theorem buildNodes_built (freq : Table Count) : BuiltArena freq (buildNodes freq) := by
  obtain ⟨q, h, hq, hp⟩ := mergeLoop_inv (length_alphabet_le freq) (totalCount_lt freq) (leavesOf freq).length
    (leavesOf freq) (queueOf (leavesOf freq)) (mergeInv_leaves freq) (by simp [queueOf])
  exact ⟨⟨q, h, hq⟩, hp⟩

theorem BuiltArena.length {freq : Table Count} {nodes : List Node} (h : BuiltArena freq nodes) :
    nodes.length = 2 * (alphabet freq).length - 1 := by
  obtain ⟨q, hi, hq⟩ := h.inv
  have := hi.size
  have := hi.some_left
  omega

theorem BuiltArena.countP {freq : Table Count} {nodes : List Node} (h : BuiltArena freq nodes) :
    nodes.countP Node.isLeaf = (alphabet freq).length := by
  obtain ⟨q, hi, -⟩ := h.inv
  exact countP_of_first _ _ _ hi.leavesFirst hi.leaves

/-- The leaves of the arena are those of R105. -/
theorem BuiltArena.leaf_iff {freq : Table Count} {nodes : List Node} (h : BuiltArena freq nodes) (i : Nat) (s : Sym)
    (w : Weight) :
    nodes[i]? = some (.leaf s w) ↔ (alphabet freq)[i]? = some s ∧ w = leafWeight (freq.lookup s) := by
  obtain ⟨more, rfl⟩ := h.leaves
  obtain ⟨q, hi, -⟩ := h.inv
  constructor
  · intro hn
    have hlt := (hi.leavesFirst i _ hn).1 rfl
    rw [List.getElem?_append_left (by simpa using hlt)] at hn
    obtain ⟨s', hs', he⟩ := (leavesOf_getElem? freq i _).1 hn
    obtain ⟨rfl, rfl⟩ : s = s' ∧ w = leafWeight (freq.lookup s') := by simpa using he
    exact ⟨hs', rfl⟩
  · rintro ⟨hs, rfl⟩
    exact getElem?_append_of_some _ ((leavesOf_getElem? freq i _).2 ⟨s, hs, rfl⟩)

/-- The last node of the arena is the one that is left in the ordering, and weighs what all counts sum to. -/
theorem BuiltArena.last_weight {freq : Table Count} {nodes : List Node} (h : BuiltArena freq nodes) {n : Node}
    (hn : nodes[nodes.length - 1]? = some n) : n.weight.toNat = totalCount freq := by
  obtain ⟨q, hi, hq⟩ := h.inv
  have hlt := (List.getElem?_eq_some_iff.1 hn).1
  have hc : (nodes.flatMap Node.children).count (nodes.length - 1) = 0 := by
    refine List.count_eq_zero_of_not_mem fun hm => ?_
    obtain ⟨m, hm, hc⟩ := List.mem_flatMap.1 hm
    obtain ⟨i, hmi⟩ := List.getElem?_of_mem hm
    have hil := (List.getElem?_eq_some_iff.1 hmi).1
    cases m with
    | leaf s w => simp [Node.children] at hc
    | internal w z o =>
      obtain ⟨⟨hz, -⟩, ⟨ho, -⟩, -⟩ := hi.merged i w z o hmi
      simp [Node.children] at hc
      omega
  have honce := hi.once _ hlt
  rw [hc, Nat.zero_add] at honce
  obtain ⟨x, hx, hxi⟩ := List.mem_map.1 (List.count_pos_iff.1 (by omega : 0 < (q.map QItem.index).count (nodes.length - 1)))
  obtain ⟨m, hm, hw⟩ := hi.items x hx
  rw [hxi, hn] at hm
  obtain rfl : n = m := by simpa using hm
  have hqx : q = [x] := by
    cases q with
    | nil => cases hx
    | cons y ys =>
      have hys : ys = [] := by simpa using hq
      rw [hys] at hx ⊢
      rw [List.mem_singleton.1 hx]
  rw [hw, ← hi.sum, hqx]
  simp

/-- The tree of BUILD_TREE has the shape of R39.1. -/
theorem buildTree_wf (freq : Table Count) : (buildTree freq).Wf := by
  have h := buildNodes_built freq
  obtain ⟨q, hi, hq⟩ := h.inv
  have hk : (buildTree freq).leafCount = (alphabet freq).length := h.countP
  have hl := h.length
  refine ⟨by rw [hk]; exact hl, ?_, by rw [hk]; exact hi.leavesFirst, ?_, ?_, ?_, ?_⟩
  · have := length_alphabet_le freq
    show (buildNodes freq).length ≤ 511
    omega
  · intro i j s s' w w' hij hs hs'
    obtain ⟨hs, -⟩ := (h.leaf_iff i s w).1 hs
    obtain ⟨hs', -⟩ := (h.leaf_iff j s' w').1 hs'
    obtain ⟨hil, rfl⟩ := List.getElem?_eq_some_iff.1 hs
    obtain ⟨hjl, rfl⟩ := List.getElem?_eq_some_iff.1 hs'
    exact List.pairwise_iff_getElem.1 (alphabet_ascending freq) i j hil hjl hij
  · intro i w z o hn
    obtain ⟨⟨hz, -⟩, ⟨ho, -⟩, -⟩ := hi.merged i w z o hn
    exact ⟨hz, ho⟩
  · intro j hj
    have hj : j + 1 < (buildNodes freq).length := hj
    have honce := hi.once j (by omega)
    have hqj : (q.map QItem.index).count j = 0 := by
      refine List.count_eq_zero_of_not_mem fun hm => ?_
      obtain ⟨n, hn⟩ : ∃ n, (buildNodes freq)[(buildNodes freq).length - 1]? = some n :=
        ⟨_, List.getElem?_eq_getElem (by omega)⟩
      have hlast := (hi.waiting_iff ((buildNodes freq).length - 1)).1 ⟨by omega, fun m n hm hmn hc => ?_⟩
      · have h2 : (q.map QItem.index).length ≤ 1 := by simpa using hq
        match hqm : q.map QItem.index, hm, hlast, h2 with
        | [y], hm, hlast, _ =>
          have h1 := List.mem_singleton.1 hm
          have h2 := List.mem_singleton.1 hlast
          omega
      · cases n with
        | leaf s w => simp [Node.children] at hc
        | internal w z o =>
          obtain ⟨⟨hz, -⟩, ⟨ho, -⟩, -⟩ := hi.merged m w z o hmn
          simp [Node.children] at hc
          omega
    show ((buildNodes freq).flatMap Node.children).count j = 1
    omega
  · rw [hk]
    have hr : (buildTree freq).root =
        if buildNodes freq = [] then none else some (BitVec.ofNat 9 ((buildNodes freq).length - 1)) := by
      unfold buildTree; rfl
    have he : buildNodes freq = [] ↔ (alphabet freq).length = 0 := by
      rw [← List.length_eq_zero_iff, hl]; omega
    rw [hr]
    simp only [he, hl, Nat.sub_sub]

/-! ### The trees of R39.1 -/

theorem BTree.Wf.leafCount_le {t : BTree} (h : t.Wf) : t.leafCount ≤ 256 := by
  have hleaf : ∀ i, i < t.leafCount → ∃ s w, t.nodes[i]? = some (Node.leaf s w) := by
    intro i hi
    have hl : i < t.nodes.length := by have := h.size; omega
    have hn := List.getElem?_eq_getElem hl
    have := (h.leavesFirst i _ hn).2 hi
    cases hc : t.nodes[i] with
    | leaf s w => exact ⟨s, w, by rw [hn, hc]⟩
    | internal w z o => rw [hc] at this; simp [Node.isLeaf] at this
  have key : ∀ i, i < t.leafCount → ∀ s w, t.nodes[i]? = some (Node.leaf s w) → i ≤ s.toNat := by
    intro i
    induction i with
    | zero => intros; omega
    | succ i ih =>
      intro hi s w hs
      obtain ⟨s', w', hs'⟩ := hleaf i (by omega)
      have := ih (by omega) s' w' hs'
      have := h.ascending i (i + 1) s' s w' w (by omega) hs' hs
      omega
  by_contra hgt
  obtain ⟨s, w, hs⟩ := hleaf 256 (by omega)
  have := key 256 (by omega) s w hs
  have := s.isLt
  omega

/-- The root of a tree with a node is its last node. -/
theorem BTree.Wf.root_toNat {t : BTree} (h : t.Wf) {r : NodeIdx} (hr : t.root = some r) :
    0 < t.leafCount ∧ r.toNat = 2 * t.leafCount - 2 ∧ r.toNat + 1 = t.nodes.length := by
  have hroot := h.root
  have := h.leafCount_le
  have := h.size
  rw [hr] at hroot
  split at hroot
  · simp at hroot
  · obtain rfl : r = BitVec.ofNat 9 (2 * t.leafCount - 2) := by simpa using hroot
    simp only [BitVec.toNat_ofNat]
    omega

/-- A path from a node is no longer than the number of internal nodes up to it (R110). -/
theorem BTree.Wf.walk_length {t : BTree} (h : t.Wf) :
    ∀ (c : Bits) (n j : Nat), walk t.nodes n c = some j → c.length + t.leafCount ≤ max (n + 1) t.leafCount
  | [], n, j, _ => by simp
  | b :: bs, n, j, hw => by
    rw [walk] at hw
    split at hw
    next w z o hn =>
      have hlt : ¬ n < t.leafCount := fun hlt => by
        have := (h.leavesFirst n _ hn).2 hlt
        simp [Node.isLeaf] at this
      obtain ⟨hz, ho⟩ := h.below n w z o hn
      have ih := h.walk_length bs _ j hw
      have : (if b = true then o.toNat else z.toNat) < n := by split <;> assumption
      simp only [List.length_cons]
      omega
    next => simp at hw

end Sys2Proof.Machine
end

