-- ==== Sys2Proof/Laws/Codes.lean ====
section
/-! SUPPORT. Laws of code generation (`CodeTable`, R130 to R133, R137): the traversal writes at each leaf the path that
leads to it, and the paths of a tree of R39.1 are unique. -/

namespace Sys2Proof.Machine

/-! ### Paths through an arena -/

theorem walk_append (nodes : List Node) :
    ∀ (p q : Bits) (n : Nat), walk nodes n (p ++ q) = (walk nodes n p).bind fun m => walk nodes m q
  | [], q, n => by
    rw [walk, List.nil_append]
    split
    · rfl
    next h =>
      cases q with
      | nil => simp [walk, h]
      | cons b bs => simp [walk, List.getElem?_eq_none (Nat.le_of_not_lt h)]
  | b :: p, q, n => by
    rw [List.cons_append, walk, walk]
    split
    · exact walk_append nodes p q _
    · rfl

theorem walk_nil_eq {nodes : List Node} {n : Nat} (h : n < nodes.length) : walk nodes n [] = some n := by
  simp [walk, h]

theorem walk_lt_length {nodes : List Node} : ∀ {p : Bits} {n j : Nat}, walk nodes n p = some j → j < nodes.length
  | [], n, j, h => by
    rw [walk] at h
    split at h
    · obtain rfl : n = j := by simpa using h
      assumption
    · simp at h
  | b :: p, n, j, h => by
    rw [walk] at h
    split at h
    · exact walk_lt_length h
    · simp at h

/-- One step of a path: the node is internal and the step goes to the child of the bit. -/
theorem walk_singleton {nodes : List Node} {n j : Nat} {b : Bool} (h : walk nodes n [b] = some j) :
    ∃ w z o, nodes[n]? = some (.internal w z o) ∧ j = if b then o.toNat else z.toNat := by
  rw [walk] at h
  split at h
  next w z o hn =>
    refine ⟨w, z, o, hn, ?_⟩
    generalize (if b then o.toNat else z.toNat) = m at h
    rw [walk] at h
    split at h
    · simpa using h.symm
    · simp at h
  · simp at h

theorem walk_concat {nodes : List Node} {n j : Nat} {p : Bits} {b : Bool} (h : walk nodes n (p ++ [b]) = some j) :
    ∃ m w z o, walk nodes n p = some m ∧ nodes[m]? = some (.internal w z o) ∧
      j = if b then o.toNat else z.toNat := by
  rw [walk_append, Option.bind_eq_some_iff] at h
  obtain ⟨m, hm, h⟩ := h
  obtain ⟨w, z, o, h⟩ := walk_singleton h
  exact ⟨m, w, z, o, hm, h⟩

theorem BTree.Wf.walk_le {t : BTree} (h : t.Wf) :
    ∀ (p : Bits) (n j : Nat), walk t.nodes n p = some j → j + p.length ≤ n
  | [], n, j, hw => by
    rw [walk] at hw
    split at hw
    · obtain rfl : n = j := by simpa using hw
      simp
    · simp at hw
  | b :: p, n, j, hw => by
    rw [walk] at hw
    split at hw
    next w z o hn =>
      obtain ⟨hz, ho⟩ := h.below n w z o hn
      have := h.walk_le p _ j hw
      have : (if b = true then o.toNat else z.toNat) < n := by split <;> assumption
      simp only [List.length_cons]
      omega
    · simp at hw

theorem count_le_count_flatMap {α : Type} (f : α → List Nat) (j : Nat) {a : α} {l : List α} (h : a ∈ l) :
    (f a).count j ≤ (l.flatMap f).count j := by
  obtain ⟨l1, l2, rfl⟩ := List.append_of_mem h
  simp only [List.flatMap_append, List.flatMap_cons, List.count_append]
  omega

theorem count_add_count_le {α : Type} (f : α → List Nat) (j : Nat) {a b : α} {l : List α} {m m' : Nat} (hm : m < m')
    (ha : l[m]? = some a) (hb : l[m']? = some b) : (f a).count j + (f b).count j ≤ (l.flatMap f).count j := by
  conv_rhs => rw [← List.take_append_drop m' l, List.flatMap_append, List.count_append]
  have h1 : a ∈ l.take m' := List.mem_of_getElem? (i := m) (by rw [List.getElem?_take, if_pos hm, ha])
  have h2 : b ∈ l.drop m' := List.mem_of_getElem? (i := 0) (by rw [List.getElem?_drop, Nat.add_zero, hb])
  exact Nat.add_le_add (count_le_count_flatMap f j h1) (count_le_count_flatMap f j h2)

/-- A node of a tree of R39.1 is reached by one path only. -/
theorem BTree.Wf.walk_unique {t : BTree} (h : t.Wf) {n j : Nat} :
    ∀ {p q : Bits}, walk t.nodes n p = some j → walk t.nodes n q = some j → p = q := by
  intro p
  induction p using List.reverseRecOn generalizing j with
  | nil =>
    intro q hp hq
    have h1 := h.walk_le q n j hq
    rw [walk] at hp
    split at hp
    · obtain rfl : n = j := by simpa using hp
      exact (List.eq_nil_of_length_eq_zero (by omega)).symm
    · simp at hp
  | append_singleton p b ih =>
    intro q hp hq
    induction q using List.reverseRecOn with
    | nil =>
      have h1 := h.walk_le _ n j hp
      rw [walk] at hq
      split at hq
      · obtain rfl : n = j := by simpa using hq
        simp at h1
      · simp at hq
    | append_singleton q b' _ =>
      obtain ⟨m, w, z, o, hm, hnm, hj⟩ := walk_concat hp
      obtain ⟨m', w', z', o', hm', hnm', hj'⟩ := walk_concat hq
      obtain ⟨hz, ho⟩ := h.below m w z o hnm
      have hlt := (List.getElem?_eq_some_iff.1 hnm).1
      have hjlt : j + 1 < t.nodes.length := by
        have : j < m := by rw [hj]; split <;> assumption
        omega
      have hone := h.oneParent j hjlt
      have hc : 0 < ((Node.internal w z o).children).count j := by
        rw [List.count_pos_iff, Node.children, hj]; cases b <;> simp
      have hc' : 0 < ((Node.internal w' z' o').children).count j := by
        rw [List.count_pos_iff, Node.children, hj']; cases b' <;> simp
      have hmm : m = m' := by
        rcases Nat.lt_trichotomy m m' with hlt | he | hlt
        · have := count_add_count_le Node.children j hlt hnm hnm'; omega
        · exact he
        · have := count_add_count_le Node.children j hlt hnm' hnm; omega
      subst hmm
      rw [ih hm hm']
      rw [hnm] at hnm'
      obtain ⟨rfl, rfl, rfl⟩ : w = w' ∧ z = z' ∧ o = o' := by simpa using hnm'
      by_cases hb : b = b'
      · rw [hb]
      · exfalso
        have h2 := count_le_count_flatMap Node.children j (List.mem_of_getElem? hnm)
        have : ((Node.internal w z o).children).count j = 2 := by
          rw [Node.children]
          cases b <;> cases b' <;> simp_all
        omega

/-- Every node of a tree of R39.1 is reached from the last. -/
theorem BTree.Wf.reachable {t : BTree} (h : t.Wf) :
    ∀ d j, j + 1 + d = t.nodes.length → ∃ p, walk t.nodes (t.nodes.length - 1) p = some j := by
  intro d
  induction d using Nat.strongRecOn with
  | _ d ih =>
    intro j hj
    cases d with
    | zero => exact ⟨[], by simp [walk]; omega⟩
    | succ d =>
      have hone := h.oneParent j (by omega)
      obtain ⟨n, hn, hc⟩ := List.mem_flatMap.1 (List.count_pos_iff.1 (by omega : 0 < (t.nodes.flatMap Node.children).count j))
      obtain ⟨m, hm⟩ := List.getElem?_of_mem hn
      have hml := (List.getElem?_eq_some_iff.1 hm).1
      cases n with
      | leaf s w => simp [Node.children] at hc
      | internal w z o =>
        obtain ⟨hz, ho⟩ := h.below m w z o hm
        have hc : j = z.toNat ∨ j = o.toNat := by simpa [Node.children] using hc
        have hjm : j < m := by omega
        obtain ⟨p, hp⟩ := ih (t.nodes.length - 1 - m) (by omega) m (by omega)
        rcases hc with hc | hc
        · exact ⟨p ++ [false], by rw [walk_append, hp]; simp [walk, hm, ← hc]; omega⟩
        · exact ⟨p ++ [true], by rw [walk_append, hp]; simp [walk, hm, ← hc]; omega⟩

/-! ### The traversal -/

/-- A leaf of symbol `x` lies below node `n`, at the end of the path `p`. -/
def LeafAt (nodes : List Node) (n : Nat) (p : Bits) (x : Sym) : Prop :=
  ∃ i w, walk nodes n p = some i ∧ nodes[i]? = some (.leaf x w)

theorem leafAt_leaf {nodes : List Node} {n : Nat} {s : Sym} {w : Weight} (hn : nodes[n]? = some (.leaf s w)) (p : Bits)
    (x : Sym) : LeafAt nodes n p x ↔ p = [] ∧ x = s := by
  have hl := (List.getElem?_eq_some_iff.1 hn).1
  cases p with
  | nil =>
    simp only [LeafAt, walk_nil_eq hl, true_and]
    constructor
    · rintro ⟨i, w', hi, hx⟩
      obtain rfl : n = i := by simpa using hi
      rw [hn] at hx
      simpa [eq_comm] using (show s = x ∧ w = w' by simpa using hx).1
    · rintro rfl
      exact ⟨n, w, rfl, hn⟩
  | cons b p => simp [LeafAt, walk, hn]

theorem leafAt_internal {nodes : List Node} {n : Nat} {w : Weight} {z o : NodeIdx}
    (hn : nodes[n]? = some (.internal w z o)) (p : Bits) (x : Sym) :
    LeafAt nodes n p x ↔ ∃ b q, p = b :: q ∧ LeafAt nodes (if b then o.toNat else z.toNat) q x := by
  have hl := (List.getElem?_eq_some_iff.1 hn).1
  cases p with
  | nil => simp [LeafAt, walk_nil_eq hl, hn]
  | cons b p => simp [LeafAt, walk, hn]

/-- The leaf of a symbol lies at the end of one path only. -/
theorem BTree.Wf.leafAt_unique {t : BTree} (h : t.Wf) {n : Nat} {p q : Bits} {x : Sym} (hp : LeafAt t.nodes n p x)
    (hq : LeafAt t.nodes n q x) : p = q := by
  obtain ⟨i, w, hi, hx⟩ := hp
  obtain ⟨j, w', hj, hx'⟩ := hq
  rcases Nat.lt_trichotomy i j with hlt | rfl | hlt
  · exact absurd (h.ascending i j x x w w' hlt hx hx') (Nat.lt_irrefl _)
  · exact h.walk_unique hi hj
  · exact absurd (h.ascending j i x x w' w hlt hx' hx) (Nat.lt_irrefl _)

/-- The traversal does not touch the entry of a symbol with no leaf below the node. -/
theorem visit_of_no_leaf (nodes : List Node) (x : Sym) :
    ∀ (fuel n : Nat) (acc : Code) (new : Table (Option Code)), (∀ p, ¬ LeafAt nodes n p x) →
      (visit nodes fuel n acc new).lookup x = new.lookup x
  | 0, _, _, _, _ => rfl
  | fuel + 1, n, acc, new, h => by
    rw [visit]
    split
    · rfl
    next s w hn =>
      rw [Table.lookup_update_ne]
      exact fun hx => h [] ((leafAt_leaf hn [] x).2 ⟨rfl, hx⟩)
    next w z o hn =>
      rw [visit_of_no_leaf nodes x fuel, visit_of_no_leaf nodes x fuel]
      · exact fun p hp => h (false :: p) ((leafAt_internal hn _ x).2 ⟨false, p, rfl, hp⟩)
      · exact fun p hp => h (true :: p) ((leafAt_internal hn _ x).2 ⟨true, p, rfl, hp⟩)

/-- The traversal writes the path of each leaf below the node (R131). -/
theorem visit_of_leaf (nodes : List Node) (x : Sym)
    (hbelow : ∀ (i : Nat) (w : Weight) (z o : NodeIdx), nodes[i]? = some (.internal w z o) → z.toNat < i ∧ o.toNat < i) :
    ∀ (fuel n : Nat) (acc : Code) (new : Table (Option Code)) (p : Bits), n < fuel → LeafAt nodes n p x →
      (∀ q, LeafAt nodes n q x → q = p) → (visit nodes fuel n acc new).lookup x = some (acc ++ p)
  | 0, _, _, _, _, hf, _, _ => by omega
  | fuel + 1, n, acc, new, p, hf, hp, hu => by
    rw [visit]
    split
    next hn =>
      obtain ⟨i, w, hi, -⟩ := hp
      cases p with
      | nil =>
        have hl := List.getElem?_eq_none_iff.1 hn
        simp [walk, Nat.not_lt.2 hl] at hi
      | cons b p => simp [walk, hn] at hi
    next s w hn =>
      obtain ⟨rfl, rfl⟩ := (leafAt_leaf hn p x).1 hp
      simp
    next w z o hn =>
      obtain ⟨hz, ho⟩ := hbelow n w z o hn
      obtain ⟨b, q, rfl, hq⟩ := (leafAt_internal hn p x).1 hp
      cases b with
      | true =>
        rw [visit_of_leaf nodes x hbelow fuel o.toNat _ _ q (by omega) hq]
        · simp
        · intro q' hq'
          simpa using hu (true :: q') ((leafAt_internal hn _ x).2 ⟨true, q', rfl, hq'⟩)
      | false =>
        rw [visit_of_no_leaf nodes x fuel, visit_of_leaf nodes x hbelow fuel z.toNat _ _ q (by omega) hq]
        · simp
        · intro q' hq'
          simpa using hu (false :: q') ((leafAt_internal hn _ x).2 ⟨false, q', rfl, hq'⟩)
        · intro q' hq'
          simpa using hu (true :: q') ((leafAt_internal hn _ x).2 ⟨true, q', rfl, hq'⟩)

/-- What GEN_CODES computes for a tree of R39.1 whose root is internal: the code of a symbol is the path to its
leaf. -/
theorem BTree.Wf.codesOf_lookup {t : BTree} (h : t.Wf) {r : NodeIdx} {w : Weight} {z o : NodeIdx} (hr : t.root = some r)
    (hn : t.nodes[r.toNat]? = some (.internal w z o)) (x : Sym) (c : Code) :
    (codesOf t).lookup x = some c ↔ LeafAt t.nodes r.toNat c x := by
  have he : codesOf t = visit t.nodes (r.toNat + 1) r.toNat [] (Table.const none) := by
    simp only [codesOf, hr, hn]
  rw [he]
  constructor
  · intro hc
    by_cases hx : ∃ p, LeafAt t.nodes r.toNat p x
    · obtain ⟨p, hp⟩ := hx
      rw [visit_of_leaf t.nodes x h.below _ _ _ _ p (by omega) hp fun q hq => h.leafAt_unique hq hp] at hc
      obtain rfl : p = c := by simpa using hc
      exact hp
    · rw [visit_of_no_leaf t.nodes x _ _ _ _ fun p hp => hx ⟨p, hp⟩] at hc
      simp at hc
  · intro hp
    rw [visit_of_leaf t.nodes x h.below _ _ _ _ c (by omega) hp fun q hq => h.leafAt_unique hq hp]
    rfl

/-! ### The Kraft sum -/

/-- What an entry adds to the Kraft sum. -/
def kraftTerm : Option Code → Nat
  | none => 0
  | some c => 2 ^ (Config.maxCodeLen - c.length)

theorem kraftSum_eq (t : Table (Option Code)) : kraftSum t = (allSyms.map fun s => kraftTerm (t.lookup s)).sum := by
  rw [kraftSum, presentCodes_eq]
  induction allSyms with
  | nil => rfl
  | cons s l ih =>
    rw [List.filterMap_cons]
    cases hs : t.lookup s <;> simp [hs, kraftTerm, ih]

theorem sum_map_update {l : List Sym} (hl : l.Nodup) (f g : Sym → Nat) (s : Sym) (d : Nat) (hs : s ∈ l)
    (hfs : f s = g s + d) (hne : ∀ x, x ≠ s → f x = g x) : (l.map f).sum = (l.map g).sum + d := by
  induction l with
  | nil => simp at hs
  | cons a l ih =>
    obtain ⟨ha, hl⟩ := List.nodup_cons.1 hl
    rcases List.mem_cons.1 hs with rfl | hs
    · have : l.map f = l.map g := List.map_congr_left fun x hx => hne x fun e => ha (e ▸ hx)
      simp only [List.map_cons, List.sum_cons, this, hfs]
      omega
    · have := ih hl hs
      have hna : f a = g a := hne a fun e => ha (e ▸ hs)
      simp only [List.map_cons, List.sum_cons, this, hna]
      omega

/-- A code for a symbol that had none adds its term. -/
theorem kraftSum_update {t : Table (Option Code)} {s : Sym} (c : Code) (h : t.lookup s = none) :
    kraftSum (t.update s (some c)) = kraftSum t + 2 ^ (Config.maxCodeLen - c.length) := by
  rw [kraftSum_eq, kraftSum_eq]
  refine sum_map_update allSyms_nodup _ _ s _ (mem_allSyms s) (by simp [h, kraftTerm]) fun x hx => ?_
  rw [Table.lookup_update_ne t _ hx]

theorem kraftSum_const : kraftSum (Table.const none) = 0 := by
  rw [kraftSum_eq]
  have : ∀ l : List Sym, (l.map fun s => kraftTerm ((Table.const (none : Option Code)).lookup s)).sum = 0 := by
    intro l
    induction l with
    | nil => rfl
    | cons a l ih => simp [kraftTerm]
  exact this allSyms

/-- The subtree of a node adds the term of the path to it: the tree is full (R137(c)). -/
theorem BTree.Wf.kraftSum_visit {t : BTree} (h : t.Wf) :
    ∀ (fuel n : Nat) (acc : Code) (new : Table (Option Code)), n < fuel → n < t.nodes.length →
      acc.length + (n + 1 - t.leafCount) ≤ Config.maxCodeLen →
      (∀ p x, LeafAt t.nodes n p x → new.lookup x = none) →
      kraftSum (visit t.nodes fuel n acc new) = kraftSum new + 2 ^ (Config.maxCodeLen - acc.length)
  | 0, _, _, _, hf, _, _, _ => by omega
  | fuel + 1, n, acc, new, hf, hl, hd, hnew => by
    rw [visit]
    split
    next hn => rw [List.getElem?_eq_getElem hl] at hn; simp at hn
    next s w hn => exact kraftSum_update acc (hnew [] s ((leafAt_leaf hn [] s).2 ⟨rfl, rfl⟩))
    next w z o hn =>
      obtain ⟨hz, ho⟩ := h.below n w z o hn
      have hk : t.leafCount ≤ n := by
        by_contra hlt
        have := (h.leavesFirst n _ hn).2 (by omega)
        simp [Node.isLeaf] at this
      have hpz : ∀ p x, LeafAt t.nodes z.toNat p x → LeafAt t.nodes n (false :: p) x := fun p x hp =>
        (leafAt_internal hn _ x).2 ⟨false, p, rfl, hp⟩
      have hpo : ∀ p x, LeafAt t.nodes o.toNat p x → LeafAt t.nodes n (true :: p) x := fun p x hp =>
        (leafAt_internal hn _ x).2 ⟨true, p, rfl, hp⟩
      rw [h.kraftSum_visit fuel o.toNat _ _ (by omega) (by omega) (by simp; omega),
        h.kraftSum_visit fuel z.toNat _ _ (by omega) (by omega) (by simp; omega)]
      · have he : Config.maxCodeLen - acc.length = (Config.maxCodeLen - (acc.length + 1)) + 1 := by omega
        simp only [List.length_append, List.length_cons, List.length_nil, he, Nat.pow_succ, Nat.zero_add]
        omega
      · exact fun p x hp => hnew _ x (hpz p x hp)
      · intro p x hp
        rw [visit_of_no_leaf t.nodes x]
        · exact hnew _ x (hpo p x hp)
        · intro q hq
          have := h.leafAt_unique (hpz q x hq) (hpo p x hp)
          simp at this

/-! ### All the codes of a tree -/

/-- What the codes of a tree of R39.1 can be, by the kind of its root (R130 to R133). -/
theorem BTree.Wf.codesOf_cases {t : BTree} (h : t.Wf) :
    (t.root = none ∧ codesOf t = Table.const none) ∨
    (∃ r s w, t.root = some r ∧ t.nodes[r.toNat]? = some (.leaf s w) ∧
      codesOf t = (Table.const none).update s (some [false])) ∨
    (∃ r w z o, t.root = some r ∧ t.nodes[r.toNat]? = some (.internal w z o) ∧
      ∀ x c, (codesOf t).lookup x = some c ↔ LeafAt t.nodes r.toNat c x) := by
  cases hr : t.root with
  | none => exact .inl ⟨rfl, by simp [codesOf, hr]⟩
  | some r =>
    have hl := (h.root_toNat hr).2.2
    have hn := List.getElem?_eq_getElem (l := t.nodes) (i := r.toNat) (by omega)
    cases hx : t.nodes[r.toNat]'(by omega) with
    | leaf s w => rw [hx] at hn; exact .inr (.inl ⟨r, s, w, rfl, hn, by simp [codesOf, hr, hn]⟩)
    | internal w z o =>
      rw [hx] at hn
      exact .inr (.inr ⟨r, w, z, o, rfl, hn, fun x c => h.codesOf_lookup hr hn x c⟩)

/-- No code of a tree is a prefix of another (R137(a)). -/
theorem BTree.Wf.codesOf_prefixFree {t : BTree} (h : t.Wf) : PrefixFree (codesOf t) := by
  intro x y a b hne ha hb
  by_contra hp
  obtain ⟨e, rfl⟩ := (isPrefix_iff a b).1 (by simpa using hp)
  rcases h.codesOf_cases with ⟨-, he⟩ | ⟨r, s, w, -, -, he⟩ | ⟨r, w, z, o, hr, hn, he⟩
  · simp [he] at ha
  · rw [he, Table.lookup_update] at ha hb
    split at ha <;> split at hb <;> simp_all
  · obtain ⟨i, w1, hi, hx⟩ := (he x a).1 ha
    obtain ⟨j, w2, hj, hy⟩ := (he y _).1 hb
    rw [walk_append, hi] at hj
    cases e with
    | nil =>
      have hji := (leafAt_leaf hx [] y).1 ⟨j, w2, hj, hy⟩
      exact hne hji.2.symm
    | cons b e =>
      have hji := (leafAt_leaf hx (b :: e) y).1 ⟨j, w2, hj, hy⟩
      simp at hji

/-- The codes of a tree have 1 to 255 bits (R137(b)). -/
theorem BTree.Wf.codesOf_sized {t : BTree} (h : t.Wf) : CodesSized (codesOf t) := by
  intro x c hc
  rcases h.codesOf_cases with ⟨-, he⟩ | ⟨r, s, w, -, -, he⟩ | ⟨r, w, z, o, hr, hn, he⟩
  · simp [he] at hc
  · rw [he, Table.lookup_update] at hc
    split at hc
    · obtain rfl : [false] = c := by simpa using hc
      simp [Config.maxCodeLen]
    · simp at hc
  · obtain ⟨b, q, rfl, -⟩ := (leafAt_internal hn c x).1 ((he x c).1 hc)
    obtain ⟨i, w', hi, -⟩ := (he x _).1 hc
    have h1 := h.walk_length _ _ _ hi
    have h2 := h.leafCount_le
    obtain ⟨h3, h4, -⟩ := h.root_toNat hr
    simp only [Config.maxCodeLen] at *
    simp only [List.length_cons] at *
    omega

end Sys2Proof.Machine
end

