-- ==== Sys2Proof/Laws/State.lean ====
section
/-! SUPPORT. What each named update of the state leaves in each field: one equation per update and field, so that no
later proof unfolds a record update. -/

namespace Sys2Proof.Machine

variable (s : State)

/-! ### recordErr -/

@[simp] theorem State.recordErr_arg0 (e : ErrCode) : (s.recordErr e).arg0 = s.arg0 := rfl
@[simp] theorem State.recordErr_cbuf (e : ErrCode) : (s.recordErr e).cbuf = s.cbuf := rfl
@[simp] theorem State.recordErr_res0 (e : ErrCode) : (s.recordErr e).res0 = s.res0 := rfl
@[simp] theorem State.recordErr_res1 (e : ErrCode) : (s.recordErr e).res1 = s.res1 := rfl
@[simp] theorem State.recordErr_res2 (e : ErrCode) : (s.recordErr e).res2 = s.res2 := rfl
@[simp] theorem State.recordErr_err (e : ErrCode) : (s.recordErr e).err = if s.err = 0 then e.num else s.err := rfl
@[simp] theorem State.recordErr_pending (e : ErrCode) : (s.recordErr e).pending = s.pending := rfl
@[simp] theorem State.recordErr_freq (e : ErrCode) : (s.recordErr e).freq = s.freq := rfl
@[simp] theorem State.recordErr_btree (e : ErrCode) : (s.recordErr e).btree = s.btree := rfl
@[simp] theorem State.recordErr_code (e : ErrCode) : (s.recordErr e).code = s.code := rfl
@[simp] theorem State.recordErr_obuf (e : ErrCode) : (s.recordErr e).obuf = s.obuf := rfl
@[simp] theorem State.recordErr_dcode (e : ErrCode) : (s.recordErr e).dcode = s.dcode := rfl
@[simp] theorem State.recordErr_dpath (e : ErrCode) : (s.recordErr e).dpath = s.dpath := rfl
@[simp] theorem State.recordErr_dcount (e : ErrCode) : (s.recordErr e).dcount = s.dcount := rfl
@[simp] theorem State.recordErr_dtarget (e : ErrCode) : (s.recordErr e).dtarget = s.dtarget := rfl
@[simp] theorem State.recordErr_dout (e : ErrCode) : (s.recordErr e).dout = s.dout := rfl
@[simp] theorem State.recordErr_agenda (e : ErrCode) : (s.recordErr e).agenda = s.agenda := rfl
@[simp] theorem State.recordErr_hostReads (e : ErrCode) : (s.recordErr e).hostReads = s.hostReads := rfl
@[simp] theorem State.recordErr_draws (e : ErrCode) : (s.recordErr e).draws = s.draws := rfl

/-! ### clearErr -/

@[simp] theorem State.clearErr_arg0 : s.clearErr.arg0 = s.arg0 := rfl
@[simp] theorem State.clearErr_cbuf : s.clearErr.cbuf = s.cbuf := rfl
@[simp] theorem State.clearErr_res0 : s.clearErr.res0 = s.res0 := rfl
@[simp] theorem State.clearErr_res1 : s.clearErr.res1 = s.res1 := rfl
@[simp] theorem State.clearErr_res2 : s.clearErr.res2 = s.res2 := rfl
@[simp] theorem State.clearErr_err : s.clearErr.err = 0 := rfl
@[simp] theorem State.clearErr_pending : s.clearErr.pending = s.pending := rfl
@[simp] theorem State.clearErr_freq : s.clearErr.freq = s.freq := rfl
@[simp] theorem State.clearErr_btree : s.clearErr.btree = s.btree := rfl
@[simp] theorem State.clearErr_code : s.clearErr.code = s.code := rfl
@[simp] theorem State.clearErr_obuf : s.clearErr.obuf = s.obuf := rfl
@[simp] theorem State.clearErr_dcode : s.clearErr.dcode = s.dcode := rfl
@[simp] theorem State.clearErr_dpath : s.clearErr.dpath = s.dpath := rfl
@[simp] theorem State.clearErr_dcount : s.clearErr.dcount = s.dcount := rfl
@[simp] theorem State.clearErr_dtarget : s.clearErr.dtarget = s.dtarget := rfl
@[simp] theorem State.clearErr_dout : s.clearErr.dout = s.dout := rfl
@[simp] theorem State.clearErr_agenda : s.clearErr.agenda = s.agenda := rfl
@[simp] theorem State.clearErr_hostReads : s.clearErr.hostReads = s.hostReads := rfl
@[simp] theorem State.clearErr_draws : s.clearErr.draws = s.draws := rfl

/-! ### resetBlock -/

@[simp] theorem State.resetBlock_arg0 : s.resetBlock.arg0 = State.reset.arg0 := rfl
@[simp] theorem State.resetBlock_cbuf : s.resetBlock.cbuf = State.reset.cbuf := rfl
@[simp] theorem State.resetBlock_res0 : s.resetBlock.res0 = State.reset.res0 := rfl
@[simp] theorem State.resetBlock_res1 : s.resetBlock.res1 = State.reset.res1 := rfl
@[simp] theorem State.resetBlock_res2 : s.resetBlock.res2 = State.reset.res2 := rfl
@[simp] theorem State.resetBlock_err : s.resetBlock.err = State.reset.err := rfl
@[simp] theorem State.resetBlock_pending : s.resetBlock.pending = State.reset.pending := rfl
@[simp] theorem State.resetBlock_freq : s.resetBlock.freq = State.reset.freq := rfl
@[simp] theorem State.resetBlock_btree : s.resetBlock.btree = State.reset.btree := rfl
@[simp] theorem State.resetBlock_code : s.resetBlock.code = State.reset.code := rfl
@[simp] theorem State.resetBlock_obuf : s.resetBlock.obuf = State.reset.obuf := rfl
@[simp] theorem State.resetBlock_dcode : s.resetBlock.dcode = State.reset.dcode := rfl
@[simp] theorem State.resetBlock_dpath : s.resetBlock.dpath = State.reset.dpath := rfl
@[simp] theorem State.resetBlock_dcount : s.resetBlock.dcount = State.reset.dcount := rfl
@[simp] theorem State.resetBlock_dtarget : s.resetBlock.dtarget = State.reset.dtarget := rfl
@[simp] theorem State.resetBlock_dout : s.resetBlock.dout = State.reset.dout := rfl
@[simp] theorem State.resetBlock_agenda : s.resetBlock.agenda = s.agenda := rfl
@[simp] theorem State.resetBlock_hostReads : s.resetBlock.hostReads = s.hostReads := rfl
@[simp] theorem State.resetBlock_draws : s.resetBlock.draws = s.draws := rfl

/-! ### setRes -/

@[simp] theorem State.setRes_arg0 (r0 r1 r2 : Word) : (s.setRes r0 r1 r2).arg0 = s.arg0 := rfl
@[simp] theorem State.setRes_cbuf (r0 r1 r2 : Word) : (s.setRes r0 r1 r2).cbuf = s.cbuf := rfl
@[simp] theorem State.setRes_res0 (r0 r1 r2 : Word) : (s.setRes r0 r1 r2).res0 = r0 := rfl
@[simp] theorem State.setRes_res1 (r0 r1 r2 : Word) : (s.setRes r0 r1 r2).res1 = r1 := rfl
@[simp] theorem State.setRes_res2 (r0 r1 r2 : Word) : (s.setRes r0 r1 r2).res2 = r2 := rfl
@[simp] theorem State.setRes_err (r0 r1 r2 : Word) : (s.setRes r0 r1 r2).err = s.err := rfl
@[simp] theorem State.setRes_pending (r0 r1 r2 : Word) : (s.setRes r0 r1 r2).pending = s.pending := rfl
@[simp] theorem State.setRes_freq (r0 r1 r2 : Word) : (s.setRes r0 r1 r2).freq = s.freq := rfl
@[simp] theorem State.setRes_btree (r0 r1 r2 : Word) : (s.setRes r0 r1 r2).btree = s.btree := rfl
@[simp] theorem State.setRes_code (r0 r1 r2 : Word) : (s.setRes r0 r1 r2).code = s.code := rfl
@[simp] theorem State.setRes_obuf (r0 r1 r2 : Word) : (s.setRes r0 r1 r2).obuf = s.obuf := rfl
@[simp] theorem State.setRes_dcode (r0 r1 r2 : Word) : (s.setRes r0 r1 r2).dcode = s.dcode := rfl
@[simp] theorem State.setRes_dpath (r0 r1 r2 : Word) : (s.setRes r0 r1 r2).dpath = s.dpath := rfl
@[simp] theorem State.setRes_dcount (r0 r1 r2 : Word) : (s.setRes r0 r1 r2).dcount = s.dcount := rfl
@[simp] theorem State.setRes_dtarget (r0 r1 r2 : Word) : (s.setRes r0 r1 r2).dtarget = s.dtarget := rfl
@[simp] theorem State.setRes_dout (r0 r1 r2 : Word) : (s.setRes r0 r1 r2).dout = s.dout := rfl
@[simp] theorem State.setRes_agenda (r0 r1 r2 : Word) : (s.setRes r0 r1 r2).agenda = s.agenda := rfl
@[simp] theorem State.setRes_hostReads (r0 r1 r2 : Word) : (s.setRes r0 r1 r2).hostReads = s.hostReads := rfl
@[simp] theorem State.setRes_draws (r0 r1 r2 : Word) : (s.setRes r0 r1 r2).draws = s.draws := rfl

/-! ### setArg0 -/

@[simp] theorem State.setArg0_arg0 (v : Word) : (s.setArg0 v).arg0 = v := rfl
@[simp] theorem State.setArg0_cbuf (v : Word) : (s.setArg0 v).cbuf = s.cbuf := rfl
@[simp] theorem State.setArg0_res0 (v : Word) : (s.setArg0 v).res0 = s.res0 := rfl
@[simp] theorem State.setArg0_res1 (v : Word) : (s.setArg0 v).res1 = s.res1 := rfl
@[simp] theorem State.setArg0_res2 (v : Word) : (s.setArg0 v).res2 = s.res2 := rfl
@[simp] theorem State.setArg0_err (v : Word) : (s.setArg0 v).err = s.err := rfl
@[simp] theorem State.setArg0_pending (v : Word) : (s.setArg0 v).pending = s.pending := rfl
@[simp] theorem State.setArg0_freq (v : Word) : (s.setArg0 v).freq = s.freq := rfl
@[simp] theorem State.setArg0_btree (v : Word) : (s.setArg0 v).btree = s.btree := rfl
@[simp] theorem State.setArg0_code (v : Word) : (s.setArg0 v).code = s.code := rfl
@[simp] theorem State.setArg0_obuf (v : Word) : (s.setArg0 v).obuf = s.obuf := rfl
@[simp] theorem State.setArg0_dcode (v : Word) : (s.setArg0 v).dcode = s.dcode := rfl
@[simp] theorem State.setArg0_dpath (v : Word) : (s.setArg0 v).dpath = s.dpath := rfl
@[simp] theorem State.setArg0_dcount (v : Word) : (s.setArg0 v).dcount = s.dcount := rfl
@[simp] theorem State.setArg0_dtarget (v : Word) : (s.setArg0 v).dtarget = s.dtarget := rfl
@[simp] theorem State.setArg0_dout (v : Word) : (s.setArg0 v).dout = s.dout := rfl
@[simp] theorem State.setArg0_agenda (v : Word) : (s.setArg0 v).agenda = s.agenda := rfl
@[simp] theorem State.setArg0_hostReads (v : Word) : (s.setArg0 v).hostReads = s.hostReads := rfl
@[simp] theorem State.setArg0_draws (v : Word) : (s.setArg0 v).draws = s.draws := rfl

/-! ### setCbuf -/

@[simp] theorem State.setCbuf_arg0 (c : Vector Word 8) : (s.setCbuf c).arg0 = s.arg0 := rfl
@[simp] theorem State.setCbuf_cbuf (c : Vector Word 8) : (s.setCbuf c).cbuf = c := rfl
@[simp] theorem State.setCbuf_res0 (c : Vector Word 8) : (s.setCbuf c).res0 = s.res0 := rfl
@[simp] theorem State.setCbuf_res1 (c : Vector Word 8) : (s.setCbuf c).res1 = s.res1 := rfl
@[simp] theorem State.setCbuf_res2 (c : Vector Word 8) : (s.setCbuf c).res2 = s.res2 := rfl
@[simp] theorem State.setCbuf_err (c : Vector Word 8) : (s.setCbuf c).err = s.err := rfl
@[simp] theorem State.setCbuf_pending (c : Vector Word 8) : (s.setCbuf c).pending = s.pending := rfl
@[simp] theorem State.setCbuf_freq (c : Vector Word 8) : (s.setCbuf c).freq = s.freq := rfl
@[simp] theorem State.setCbuf_btree (c : Vector Word 8) : (s.setCbuf c).btree = s.btree := rfl
@[simp] theorem State.setCbuf_code (c : Vector Word 8) : (s.setCbuf c).code = s.code := rfl
@[simp] theorem State.setCbuf_obuf (c : Vector Word 8) : (s.setCbuf c).obuf = s.obuf := rfl
@[simp] theorem State.setCbuf_dcode (c : Vector Word 8) : (s.setCbuf c).dcode = s.dcode := rfl
@[simp] theorem State.setCbuf_dpath (c : Vector Word 8) : (s.setCbuf c).dpath = s.dpath := rfl
@[simp] theorem State.setCbuf_dcount (c : Vector Word 8) : (s.setCbuf c).dcount = s.dcount := rfl
@[simp] theorem State.setCbuf_dtarget (c : Vector Word 8) : (s.setCbuf c).dtarget = s.dtarget := rfl
@[simp] theorem State.setCbuf_dout (c : Vector Word 8) : (s.setCbuf c).dout = s.dout := rfl
@[simp] theorem State.setCbuf_agenda (c : Vector Word 8) : (s.setCbuf c).agenda = s.agenda := rfl
@[simp] theorem State.setCbuf_hostReads (c : Vector Word 8) : (s.setCbuf c).hostReads = s.hostReads := rfl
@[simp] theorem State.setCbuf_draws (c : Vector Word 8) : (s.setCbuf c).draws = s.draws := rfl

/-! ### setFreq -/

@[simp] theorem State.setFreq_arg0 (f : Table Count) : (s.setFreq f).arg0 = s.arg0 := rfl
@[simp] theorem State.setFreq_cbuf (f : Table Count) : (s.setFreq f).cbuf = s.cbuf := rfl
@[simp] theorem State.setFreq_res0 (f : Table Count) : (s.setFreq f).res0 = s.res0 := rfl
@[simp] theorem State.setFreq_res1 (f : Table Count) : (s.setFreq f).res1 = s.res1 := rfl
@[simp] theorem State.setFreq_res2 (f : Table Count) : (s.setFreq f).res2 = s.res2 := rfl
@[simp] theorem State.setFreq_err (f : Table Count) : (s.setFreq f).err = s.err := rfl
@[simp] theorem State.setFreq_pending (f : Table Count) : (s.setFreq f).pending = s.pending := rfl
@[simp] theorem State.setFreq_freq (f : Table Count) : (s.setFreq f).freq = f := rfl
@[simp] theorem State.setFreq_btree (f : Table Count) : (s.setFreq f).btree = none := rfl
@[simp] theorem State.setFreq_code (f : Table Count) : (s.setFreq f).code = s.code := rfl
@[simp] theorem State.setFreq_obuf (f : Table Count) : (s.setFreq f).obuf = s.obuf := rfl
@[simp] theorem State.setFreq_dcode (f : Table Count) : (s.setFreq f).dcode = s.dcode := rfl
@[simp] theorem State.setFreq_dpath (f : Table Count) : (s.setFreq f).dpath = s.dpath := rfl
@[simp] theorem State.setFreq_dcount (f : Table Count) : (s.setFreq f).dcount = s.dcount := rfl
@[simp] theorem State.setFreq_dtarget (f : Table Count) : (s.setFreq f).dtarget = s.dtarget := rfl
@[simp] theorem State.setFreq_dout (f : Table Count) : (s.setFreq f).dout = s.dout := rfl
@[simp] theorem State.setFreq_agenda (f : Table Count) : (s.setFreq f).agenda = s.agenda := rfl
@[simp] theorem State.setFreq_hostReads (f : Table Count) : (s.setFreq f).hostReads = s.hostReads := rfl
@[simp] theorem State.setFreq_draws (f : Table Count) : (s.setFreq f).draws = s.draws := rfl

/-! ### setTree -/

@[simp] theorem State.setTree_arg0 (t : BTree) : (s.setTree t).arg0 = s.arg0 := rfl
@[simp] theorem State.setTree_cbuf (t : BTree) : (s.setTree t).cbuf = s.cbuf := rfl
@[simp] theorem State.setTree_res0 (t : BTree) : (s.setTree t).res0 = s.res0 := rfl
@[simp] theorem State.setTree_res1 (t : BTree) : (s.setTree t).res1 = s.res1 := rfl
@[simp] theorem State.setTree_res2 (t : BTree) : (s.setTree t).res2 = s.res2 := rfl
@[simp] theorem State.setTree_err (t : BTree) : (s.setTree t).err = s.err := rfl
@[simp] theorem State.setTree_pending (t : BTree) : (s.setTree t).pending = s.pending := rfl
@[simp] theorem State.setTree_freq (t : BTree) : (s.setTree t).freq = s.freq := rfl
@[simp] theorem State.setTree_btree (t : BTree) : (s.setTree t).btree = some t := rfl
@[simp] theorem State.setTree_code (t : BTree) : (s.setTree t).code = s.code := rfl
@[simp] theorem State.setTree_obuf (t : BTree) : (s.setTree t).obuf = s.obuf := rfl
@[simp] theorem State.setTree_dcode (t : BTree) : (s.setTree t).dcode = s.dcode := rfl
@[simp] theorem State.setTree_dpath (t : BTree) : (s.setTree t).dpath = s.dpath := rfl
@[simp] theorem State.setTree_dcount (t : BTree) : (s.setTree t).dcount = s.dcount := rfl
@[simp] theorem State.setTree_dtarget (t : BTree) : (s.setTree t).dtarget = s.dtarget := rfl
@[simp] theorem State.setTree_dout (t : BTree) : (s.setTree t).dout = s.dout := rfl
@[simp] theorem State.setTree_agenda (t : BTree) : (s.setTree t).agenda = s.agenda := rfl
@[simp] theorem State.setTree_hostReads (t : BTree) : (s.setTree t).hostReads = s.hostReads := rfl
@[simp] theorem State.setTree_draws (t : BTree) : (s.setTree t).draws = s.draws := rfl

/-! ### setCode -/

@[simp] theorem State.setCode_arg0 (c : Table (Option Code)) : (s.setCode c).arg0 = s.arg0 := rfl
@[simp] theorem State.setCode_cbuf (c : Table (Option Code)) : (s.setCode c).cbuf = s.cbuf := rfl
@[simp] theorem State.setCode_res0 (c : Table (Option Code)) : (s.setCode c).res0 = s.res0 := rfl
@[simp] theorem State.setCode_res1 (c : Table (Option Code)) : (s.setCode c).res1 = s.res1 := rfl
@[simp] theorem State.setCode_res2 (c : Table (Option Code)) : (s.setCode c).res2 = s.res2 := rfl
@[simp] theorem State.setCode_err (c : Table (Option Code)) : (s.setCode c).err = s.err := rfl
@[simp] theorem State.setCode_pending (c : Table (Option Code)) : (s.setCode c).pending = s.pending := rfl
@[simp] theorem State.setCode_freq (c : Table (Option Code)) : (s.setCode c).freq = s.freq := rfl
@[simp] theorem State.setCode_btree (c : Table (Option Code)) : (s.setCode c).btree = s.btree := rfl
@[simp] theorem State.setCode_code (c : Table (Option Code)) : (s.setCode c).code = c := rfl
@[simp] theorem State.setCode_obuf (c : Table (Option Code)) : (s.setCode c).obuf = s.obuf := rfl
@[simp] theorem State.setCode_dcode (c : Table (Option Code)) : (s.setCode c).dcode = s.dcode := rfl
@[simp] theorem State.setCode_dpath (c : Table (Option Code)) : (s.setCode c).dpath = s.dpath := rfl
@[simp] theorem State.setCode_dcount (c : Table (Option Code)) : (s.setCode c).dcount = s.dcount := rfl
@[simp] theorem State.setCode_dtarget (c : Table (Option Code)) : (s.setCode c).dtarget = s.dtarget := rfl
@[simp] theorem State.setCode_dout (c : Table (Option Code)) : (s.setCode c).dout = s.dout := rfl
@[simp] theorem State.setCode_agenda (c : Table (Option Code)) : (s.setCode c).agenda = s.agenda := rfl
@[simp] theorem State.setCode_hostReads (c : Table (Option Code)) : (s.setCode c).hostReads = s.hostReads := rfl
@[simp] theorem State.setCode_draws (c : Table (Option Code)) : (s.setCode c).draws = s.draws := rfl

/-! ### setObuf -/

@[simp] theorem State.setObuf_arg0 (b : Bits) : (s.setObuf b).arg0 = s.arg0 := rfl
@[simp] theorem State.setObuf_cbuf (b : Bits) : (s.setObuf b).cbuf = s.cbuf := rfl
@[simp] theorem State.setObuf_res0 (b : Bits) : (s.setObuf b).res0 = s.res0 := rfl
@[simp] theorem State.setObuf_res1 (b : Bits) : (s.setObuf b).res1 = s.res1 := rfl
@[simp] theorem State.setObuf_res2 (b : Bits) : (s.setObuf b).res2 = s.res2 := rfl
@[simp] theorem State.setObuf_err (b : Bits) : (s.setObuf b).err = s.err := rfl
@[simp] theorem State.setObuf_pending (b : Bits) : (s.setObuf b).pending = s.pending := rfl
@[simp] theorem State.setObuf_freq (b : Bits) : (s.setObuf b).freq = s.freq := rfl
@[simp] theorem State.setObuf_btree (b : Bits) : (s.setObuf b).btree = s.btree := rfl
@[simp] theorem State.setObuf_code (b : Bits) : (s.setObuf b).code = s.code := rfl
@[simp] theorem State.setObuf_obuf (b : Bits) : (s.setObuf b).obuf = b := rfl
@[simp] theorem State.setObuf_dcode (b : Bits) : (s.setObuf b).dcode = s.dcode := rfl
@[simp] theorem State.setObuf_dpath (b : Bits) : (s.setObuf b).dpath = s.dpath := rfl
@[simp] theorem State.setObuf_dcount (b : Bits) : (s.setObuf b).dcount = s.dcount := rfl
@[simp] theorem State.setObuf_dtarget (b : Bits) : (s.setObuf b).dtarget = s.dtarget := rfl
@[simp] theorem State.setObuf_dout (b : Bits) : (s.setObuf b).dout = s.dout := rfl
@[simp] theorem State.setObuf_agenda (b : Bits) : (s.setObuf b).agenda = s.agenda := rfl
@[simp] theorem State.setObuf_hostReads (b : Bits) : (s.setObuf b).hostReads = s.hostReads := rfl
@[simp] theorem State.setObuf_draws (b : Bits) : (s.setObuf b).draws = s.draws := rfl

/-! ### restartDecoder -/

@[simp] theorem State.restartDecoder_arg0 (target : Word) : (s.restartDecoder target).arg0 = s.arg0 := rfl
@[simp] theorem State.restartDecoder_cbuf (target : Word) : (s.restartDecoder target).cbuf = s.cbuf := rfl
@[simp] theorem State.restartDecoder_res0 (target : Word) : (s.restartDecoder target).res0 = s.res0 := rfl
@[simp] theorem State.restartDecoder_res1 (target : Word) : (s.restartDecoder target).res1 = s.res1 := rfl
@[simp] theorem State.restartDecoder_res2 (target : Word) : (s.restartDecoder target).res2 = s.res2 := rfl
@[simp] theorem State.restartDecoder_err (target : Word) : (s.restartDecoder target).err = s.err := rfl
@[simp] theorem State.restartDecoder_pending (target : Word) : (s.restartDecoder target).pending = s.pending := rfl
@[simp] theorem State.restartDecoder_freq (target : Word) : (s.restartDecoder target).freq = s.freq := rfl
@[simp] theorem State.restartDecoder_btree (target : Word) : (s.restartDecoder target).btree = s.btree := rfl
@[simp] theorem State.restartDecoder_code (target : Word) : (s.restartDecoder target).code = s.code := rfl
@[simp] theorem State.restartDecoder_obuf (target : Word) : (s.restartDecoder target).obuf = s.obuf := rfl
@[simp] theorem State.restartDecoder_dcode (target : Word) : (s.restartDecoder target).dcode = s.dcode := rfl
@[simp] theorem State.restartDecoder_dpath (target : Word) : (s.restartDecoder target).dpath = [] := rfl
@[simp] theorem State.restartDecoder_dcount (target : Word) : (s.restartDecoder target).dcount = 0 := rfl
@[simp] theorem State.restartDecoder_dtarget (target : Word) : (s.restartDecoder target).dtarget = target := rfl
@[simp] theorem State.restartDecoder_dout (target : Word) : (s.restartDecoder target).dout = [] := rfl
@[simp] theorem State.restartDecoder_agenda (target : Word) : (s.restartDecoder target).agenda = s.agenda := rfl
@[simp] theorem State.restartDecoder_hostReads (target : Word) : (s.restartDecoder target).hostReads = s.hostReads := rfl
@[simp] theorem State.restartDecoder_draws (target : Word) : (s.restartDecoder target).draws = s.draws := rfl

/-! ### setDcode -/

@[simp] theorem State.setDcode_arg0 (d : Table (Option Code)) : (s.setDcode d).arg0 = s.arg0 := rfl
@[simp] theorem State.setDcode_cbuf (d : Table (Option Code)) : (s.setDcode d).cbuf = s.cbuf := rfl
@[simp] theorem State.setDcode_res0 (d : Table (Option Code)) : (s.setDcode d).res0 = s.res0 := rfl
@[simp] theorem State.setDcode_res1 (d : Table (Option Code)) : (s.setDcode d).res1 = s.res1 := rfl
@[simp] theorem State.setDcode_res2 (d : Table (Option Code)) : (s.setDcode d).res2 = s.res2 := rfl
@[simp] theorem State.setDcode_err (d : Table (Option Code)) : (s.setDcode d).err = s.err := rfl
@[simp] theorem State.setDcode_pending (d : Table (Option Code)) : (s.setDcode d).pending = s.pending := rfl
@[simp] theorem State.setDcode_freq (d : Table (Option Code)) : (s.setDcode d).freq = s.freq := rfl
@[simp] theorem State.setDcode_btree (d : Table (Option Code)) : (s.setDcode d).btree = s.btree := rfl
@[simp] theorem State.setDcode_code (d : Table (Option Code)) : (s.setDcode d).code = s.code := rfl
@[simp] theorem State.setDcode_obuf (d : Table (Option Code)) : (s.setDcode d).obuf = s.obuf := rfl
@[simp] theorem State.setDcode_dcode (d : Table (Option Code)) : (s.setDcode d).dcode = some d := rfl
@[simp] theorem State.setDcode_dpath (d : Table (Option Code)) : (s.setDcode d).dpath = s.dpath := rfl
@[simp] theorem State.setDcode_dcount (d : Table (Option Code)) : (s.setDcode d).dcount = s.dcount := rfl
@[simp] theorem State.setDcode_dtarget (d : Table (Option Code)) : (s.setDcode d).dtarget = s.dtarget := rfl
@[simp] theorem State.setDcode_dout (d : Table (Option Code)) : (s.setDcode d).dout = s.dout := rfl
@[simp] theorem State.setDcode_agenda (d : Table (Option Code)) : (s.setDcode d).agenda = s.agenda := rfl
@[simp] theorem State.setDcode_hostReads (d : Table (Option Code)) : (s.setDcode d).hostReads = s.hostReads := rfl
@[simp] theorem State.setDcode_draws (d : Table (Option Code)) : (s.setDcode d).draws = s.draws := rfl

/-! ### setProgress -/

@[simp] theorem State.setProgress_arg0 (path : Bits) (count : Word) (out : List Sym) : (s.setProgress path count out).arg0 = s.arg0 := rfl
@[simp] theorem State.setProgress_cbuf (path : Bits) (count : Word) (out : List Sym) : (s.setProgress path count out).cbuf = s.cbuf := rfl
@[simp] theorem State.setProgress_res0 (path : Bits) (count : Word) (out : List Sym) : (s.setProgress path count out).res0 = s.res0 := rfl
@[simp] theorem State.setProgress_res1 (path : Bits) (count : Word) (out : List Sym) : (s.setProgress path count out).res1 = s.res1 := rfl
@[simp] theorem State.setProgress_res2 (path : Bits) (count : Word) (out : List Sym) : (s.setProgress path count out).res2 = s.res2 := rfl
@[simp] theorem State.setProgress_err (path : Bits) (count : Word) (out : List Sym) : (s.setProgress path count out).err = s.err := rfl
@[simp] theorem State.setProgress_pending (path : Bits) (count : Word) (out : List Sym) : (s.setProgress path count out).pending = s.pending := rfl
@[simp] theorem State.setProgress_freq (path : Bits) (count : Word) (out : List Sym) : (s.setProgress path count out).freq = s.freq := rfl
@[simp] theorem State.setProgress_btree (path : Bits) (count : Word) (out : List Sym) : (s.setProgress path count out).btree = s.btree := rfl
@[simp] theorem State.setProgress_code (path : Bits) (count : Word) (out : List Sym) : (s.setProgress path count out).code = s.code := rfl
@[simp] theorem State.setProgress_obuf (path : Bits) (count : Word) (out : List Sym) : (s.setProgress path count out).obuf = s.obuf := rfl
@[simp] theorem State.setProgress_dcode (path : Bits) (count : Word) (out : List Sym) : (s.setProgress path count out).dcode = s.dcode := rfl
@[simp] theorem State.setProgress_dpath (path : Bits) (count : Word) (out : List Sym) : (s.setProgress path count out).dpath = path := rfl
@[simp] theorem State.setProgress_dcount (path : Bits) (count : Word) (out : List Sym) : (s.setProgress path count out).dcount = count := rfl
@[simp] theorem State.setProgress_dtarget (path : Bits) (count : Word) (out : List Sym) : (s.setProgress path count out).dtarget = s.dtarget := rfl
@[simp] theorem State.setProgress_dout (path : Bits) (count : Word) (out : List Sym) : (s.setProgress path count out).dout = out := rfl
@[simp] theorem State.setProgress_agenda (path : Bits) (count : Word) (out : List Sym) : (s.setProgress path count out).agenda = s.agenda := rfl
@[simp] theorem State.setProgress_hostReads (path : Bits) (count : Word) (out : List Sym) : (s.setProgress path count out).hostReads = s.hostReads := rfl
@[simp] theorem State.setProgress_draws (path : Bits) (count : Word) (out : List Sym) : (s.setProgress path count out).draws = s.draws := rfl

/-! ### setDout -/

@[simp] theorem State.setDout_arg0 (d : List Sym) : (s.setDout d).arg0 = s.arg0 := rfl
@[simp] theorem State.setDout_cbuf (d : List Sym) : (s.setDout d).cbuf = s.cbuf := rfl
@[simp] theorem State.setDout_res0 (d : List Sym) : (s.setDout d).res0 = s.res0 := rfl
@[simp] theorem State.setDout_res1 (d : List Sym) : (s.setDout d).res1 = s.res1 := rfl
@[simp] theorem State.setDout_res2 (d : List Sym) : (s.setDout d).res2 = s.res2 := rfl
@[simp] theorem State.setDout_err (d : List Sym) : (s.setDout d).err = s.err := rfl
@[simp] theorem State.setDout_pending (d : List Sym) : (s.setDout d).pending = s.pending := rfl
@[simp] theorem State.setDout_freq (d : List Sym) : (s.setDout d).freq = s.freq := rfl
@[simp] theorem State.setDout_btree (d : List Sym) : (s.setDout d).btree = s.btree := rfl
@[simp] theorem State.setDout_code (d : List Sym) : (s.setDout d).code = s.code := rfl
@[simp] theorem State.setDout_obuf (d : List Sym) : (s.setDout d).obuf = s.obuf := rfl
@[simp] theorem State.setDout_dcode (d : List Sym) : (s.setDout d).dcode = s.dcode := rfl
@[simp] theorem State.setDout_dpath (d : List Sym) : (s.setDout d).dpath = s.dpath := rfl
@[simp] theorem State.setDout_dcount (d : List Sym) : (s.setDout d).dcount = s.dcount := rfl
@[simp] theorem State.setDout_dtarget (d : List Sym) : (s.setDout d).dtarget = s.dtarget := rfl
@[simp] theorem State.setDout_dout (d : List Sym) : (s.setDout d).dout = d := rfl
@[simp] theorem State.setDout_agenda (d : List Sym) : (s.setDout d).agenda = s.agenda := rfl
@[simp] theorem State.setDout_hostReads (d : List Sym) : (s.setDout d).hostReads = s.hostReads := rfl
@[simp] theorem State.setDout_draws (d : List Sym) : (s.setDout d).draws = s.draws := rfl

/-! ### setPending -/

@[simp] theorem State.setPending_arg0 (p : Option Pending) : (s.setPending p).arg0 = s.arg0 := rfl
@[simp] theorem State.setPending_cbuf (p : Option Pending) : (s.setPending p).cbuf = s.cbuf := rfl
@[simp] theorem State.setPending_res0 (p : Option Pending) : (s.setPending p).res0 = s.res0 := rfl
@[simp] theorem State.setPending_res1 (p : Option Pending) : (s.setPending p).res1 = s.res1 := rfl
@[simp] theorem State.setPending_res2 (p : Option Pending) : (s.setPending p).res2 = s.res2 := rfl
@[simp] theorem State.setPending_err (p : Option Pending) : (s.setPending p).err = s.err := rfl
@[simp] theorem State.setPending_pending (p : Option Pending) : (s.setPending p).pending = p := rfl
@[simp] theorem State.setPending_freq (p : Option Pending) : (s.setPending p).freq = s.freq := rfl
@[simp] theorem State.setPending_btree (p : Option Pending) : (s.setPending p).btree = s.btree := rfl
@[simp] theorem State.setPending_code (p : Option Pending) : (s.setPending p).code = s.code := rfl
@[simp] theorem State.setPending_obuf (p : Option Pending) : (s.setPending p).obuf = s.obuf := rfl
@[simp] theorem State.setPending_dcode (p : Option Pending) : (s.setPending p).dcode = s.dcode := rfl
@[simp] theorem State.setPending_dpath (p : Option Pending) : (s.setPending p).dpath = s.dpath := rfl
@[simp] theorem State.setPending_dcount (p : Option Pending) : (s.setPending p).dcount = s.dcount := rfl
@[simp] theorem State.setPending_dtarget (p : Option Pending) : (s.setPending p).dtarget = s.dtarget := rfl
@[simp] theorem State.setPending_dout (p : Option Pending) : (s.setPending p).dout = s.dout := rfl
@[simp] theorem State.setPending_agenda (p : Option Pending) : (s.setPending p).agenda = s.agenda := rfl
@[simp] theorem State.setPending_hostReads (p : Option Pending) : (s.setPending p).hostReads = s.hostReads := rfl
@[simp] theorem State.setPending_draws (p : Option Pending) : (s.setPending p).draws = s.draws := rfl

/-! ### setAgenda -/

@[simp] theorem State.setAgenda_arg0 (a : List Turn) : (s.setAgenda a).arg0 = s.arg0 := rfl
@[simp] theorem State.setAgenda_cbuf (a : List Turn) : (s.setAgenda a).cbuf = s.cbuf := rfl
@[simp] theorem State.setAgenda_res0 (a : List Turn) : (s.setAgenda a).res0 = s.res0 := rfl
@[simp] theorem State.setAgenda_res1 (a : List Turn) : (s.setAgenda a).res1 = s.res1 := rfl
@[simp] theorem State.setAgenda_res2 (a : List Turn) : (s.setAgenda a).res2 = s.res2 := rfl
@[simp] theorem State.setAgenda_err (a : List Turn) : (s.setAgenda a).err = s.err := rfl
@[simp] theorem State.setAgenda_pending (a : List Turn) : (s.setAgenda a).pending = s.pending := rfl
@[simp] theorem State.setAgenda_freq (a : List Turn) : (s.setAgenda a).freq = s.freq := rfl
@[simp] theorem State.setAgenda_btree (a : List Turn) : (s.setAgenda a).btree = s.btree := rfl
@[simp] theorem State.setAgenda_code (a : List Turn) : (s.setAgenda a).code = s.code := rfl
@[simp] theorem State.setAgenda_obuf (a : List Turn) : (s.setAgenda a).obuf = s.obuf := rfl
@[simp] theorem State.setAgenda_dcode (a : List Turn) : (s.setAgenda a).dcode = s.dcode := rfl
@[simp] theorem State.setAgenda_dpath (a : List Turn) : (s.setAgenda a).dpath = s.dpath := rfl
@[simp] theorem State.setAgenda_dcount (a : List Turn) : (s.setAgenda a).dcount = s.dcount := rfl
@[simp] theorem State.setAgenda_dtarget (a : List Turn) : (s.setAgenda a).dtarget = s.dtarget := rfl
@[simp] theorem State.setAgenda_dout (a : List Turn) : (s.setAgenda a).dout = s.dout := rfl
@[simp] theorem State.setAgenda_agenda (a : List Turn) : (s.setAgenda a).agenda = a := rfl
@[simp] theorem State.setAgenda_hostReads (a : List Turn) : (s.setAgenda a).hostReads = s.hostReads := rfl
@[simp] theorem State.setAgenda_draws (a : List Turn) : (s.setAgenda a).draws = s.draws := rfl

/-! ### logRead -/

@[simp] theorem State.logRead_arg0 (offset : Nat) (v : Word) : (s.logRead offset v).arg0 = s.arg0 := rfl
@[simp] theorem State.logRead_cbuf (offset : Nat) (v : Word) : (s.logRead offset v).cbuf = s.cbuf := rfl
@[simp] theorem State.logRead_res0 (offset : Nat) (v : Word) : (s.logRead offset v).res0 = s.res0 := rfl
@[simp] theorem State.logRead_res1 (offset : Nat) (v : Word) : (s.logRead offset v).res1 = s.res1 := rfl
@[simp] theorem State.logRead_res2 (offset : Nat) (v : Word) : (s.logRead offset v).res2 = s.res2 := rfl
@[simp] theorem State.logRead_err (offset : Nat) (v : Word) : (s.logRead offset v).err = s.err := rfl
@[simp] theorem State.logRead_pending (offset : Nat) (v : Word) : (s.logRead offset v).pending = s.pending := rfl
@[simp] theorem State.logRead_freq (offset : Nat) (v : Word) : (s.logRead offset v).freq = s.freq := rfl
@[simp] theorem State.logRead_btree (offset : Nat) (v : Word) : (s.logRead offset v).btree = s.btree := rfl
@[simp] theorem State.logRead_code (offset : Nat) (v : Word) : (s.logRead offset v).code = s.code := rfl
@[simp] theorem State.logRead_obuf (offset : Nat) (v : Word) : (s.logRead offset v).obuf = s.obuf := rfl
@[simp] theorem State.logRead_dcode (offset : Nat) (v : Word) : (s.logRead offset v).dcode = s.dcode := rfl
@[simp] theorem State.logRead_dpath (offset : Nat) (v : Word) : (s.logRead offset v).dpath = s.dpath := rfl
@[simp] theorem State.logRead_dcount (offset : Nat) (v : Word) : (s.logRead offset v).dcount = s.dcount := rfl
@[simp] theorem State.logRead_dtarget (offset : Nat) (v : Word) : (s.logRead offset v).dtarget = s.dtarget := rfl
@[simp] theorem State.logRead_dout (offset : Nat) (v : Word) : (s.logRead offset v).dout = s.dout := rfl
@[simp] theorem State.logRead_agenda (offset : Nat) (v : Word) : (s.logRead offset v).agenda = s.agenda := rfl
@[simp] theorem State.logRead_hostReads (offset : Nat) (v : Word) : (s.logRead offset v).hostReads = s.hostReads ++ [⟨offset, v⟩] := rfl
@[simp] theorem State.logRead_draws (offset : Nat) (v : Word) : (s.logRead offset v).draws = s.draws := rfl

/-! ### bumpDraws -/

@[simp] theorem State.bumpDraws_arg0 : s.bumpDraws.arg0 = s.arg0 := rfl
@[simp] theorem State.bumpDraws_cbuf : s.bumpDraws.cbuf = s.cbuf := rfl
@[simp] theorem State.bumpDraws_res0 : s.bumpDraws.res0 = s.res0 := rfl
@[simp] theorem State.bumpDraws_res1 : s.bumpDraws.res1 = s.res1 := rfl
@[simp] theorem State.bumpDraws_res2 : s.bumpDraws.res2 = s.res2 := rfl
@[simp] theorem State.bumpDraws_err : s.bumpDraws.err = s.err := rfl
@[simp] theorem State.bumpDraws_pending : s.bumpDraws.pending = s.pending := rfl
@[simp] theorem State.bumpDraws_freq : s.bumpDraws.freq = s.freq := rfl
@[simp] theorem State.bumpDraws_btree : s.bumpDraws.btree = s.btree := rfl
@[simp] theorem State.bumpDraws_code : s.bumpDraws.code = s.code := rfl
@[simp] theorem State.bumpDraws_obuf : s.bumpDraws.obuf = s.obuf := rfl
@[simp] theorem State.bumpDraws_dcode : s.bumpDraws.dcode = s.dcode := rfl
@[simp] theorem State.bumpDraws_dpath : s.bumpDraws.dpath = s.dpath := rfl
@[simp] theorem State.bumpDraws_dcount : s.bumpDraws.dcount = s.dcount := rfl
@[simp] theorem State.bumpDraws_dtarget : s.bumpDraws.dtarget = s.dtarget := rfl
@[simp] theorem State.bumpDraws_dout : s.bumpDraws.dout = s.dout := rfl
@[simp] theorem State.bumpDraws_agenda : s.bumpDraws.agenda = s.agenda := rfl
@[simp] theorem State.bumpDraws_hostReads : s.bumpDraws.hostReads = s.hostReads := rfl
@[simp] theorem State.bumpDraws_draws : s.bumpDraws.draws = s.draws + 1 := rfl

end Sys2Proof.Machine
end

