-- ==== Sys2Proof/Laws/Commands.lean ====
section
/-! SUPPORT. What each command that can fail does, said once: its checks in order and its effect. The other commands
are one equation each, true by `rfl`. -/

namespace Sys2Proof.Machine

/-! ### Operands -/

theorem State.opA0_of_pending {s : State} {p : Pending} (h : s.pending = some p) : s.opA0 = p.a0 := by
  simp [State.opA0, h]

theorem State.opCb_of_pending {s : State} {p : Pending} (h : s.pending = some p) : s.opCb = p.cb := by
  simp [State.opCb, h]

theorem fieldLenHigh_eq_zero (a : Word) : fieldLenHigh a = 0 ↔ a.toNat < 256 := by
  rw [← BitVec.toNat_inj, fieldLenHigh, toNat_extract]
  have := a.isLt
  change _ = 0 ↔ _
  omega

theorem toNat_fieldLen (a : Word) (h : a.toNat < 256) : (fieldLen a).toNat = a.toNat := by
  rw [fieldLen, toNat_extract]
  omega

/-! ### Commands -/

theorem execNodeRead_cases (x : NodeIdx) (s : State) :
    (s.nodeAt x = none ∧ execNodeRead x s = raise .badIndex s) ∨
    ∃ n, s.nodeAt x = some n ∧ execNodeRead x s = .next (s.setRes n.res0 n.res1 n.res2) := by
  rw [execNodeRead]
  cases s.nodeAt x with
  | none => exact .inl ⟨rfl, rfl⟩
  | some n => exact .inr ⟨n, rfl, rfl⟩

theorem execGenCodes_cases (s : State) :
    (s.btree = none ∧ execGenCodes s = raise .noTree s) ∨
    ∃ t, s.btree = some t ∧ execGenCodes s = .next (s.setCode (codesOf t)) := by
  rw [execGenCodes]
  cases s.btree with
  | none => exact .inl ⟨rfl, rfl⟩
  | some t => exact .inr ⟨t, rfl, rfl⟩

theorem execCodeWrite_cases (x : Sym) (s : State) :
    (256 ≤ s.opA0.toNat ∧ execCodeWrite x s = raise .badArg s) ∨
    (s.opA0.toNat < 256 ∧
      execCodeWrite x s = .next (s.setCode (s.code.update x (codeEntry (fieldLen s.opA0) s.opCb)))) := by
  rw [execCodeWrite]
  split
  next h => exact .inl ⟨Nat.not_lt.1 fun hlt => h ((fieldLenHigh_eq_zero _).2 hlt), rfl⟩
  next h => exact .inr ⟨(fieldLenHigh_eq_zero _).1 (not_not.1 h), rfl⟩

theorem execEncByte_cases (x : Sym) (s : State) :
    (s.code.lookup x = none ∧ execEncByte x s = raise .noCode s) ∨
    (∃ b, s.code.lookup x = some b ∧ Config.obufCap < s.obuf.length + b.length ∧ execEncByte x s = raise .obufFull s) ∨
    (∃ b, s.code.lookup x = some b ∧ s.obuf.length + b.length ≤ Config.obufCap ∧
      execEncByte x s = .next (s.setObuf (s.obuf ++ b))) := by
  rw [execEncByte]
  cases s.code.lookup x with
  | none => exact .inl ⟨rfl, rfl⟩
  | some b =>
    dsimp only
    split
    · exact .inr (.inl ⟨b, rfl, by assumption, rfl⟩)
    · exact .inr (.inr ⟨b, rfl, by omega, rfl⟩)

theorem execDecLoad_cases (s : State) :
    (¬ PrefixFree s.code ∧ execDecLoad s = raise .codeConflict s) ∨
    (PrefixFree s.code ∧ execDecLoad s = .next ((s.setDcode s.code).restartDecoder 0)) := by
  rw [execDecLoad, ← anyConflict_iff_prefixFree]
  cases anyConflict (presentCodes s.code)
  · exact .inr ⟨rfl, rfl⟩
  · exact .inl ⟨by simp, rfl⟩

theorem execDecStart_cases (s : State) :
    (s.dcode = none ∧ execDecStart s = raise .noDtree s) ∨
    (s.dcode ≠ none ∧ execDecStart s = .next (s.restartDecoder s.opA0)) := by
  rw [execDecStart]
  cases s.dcode with
  | none => exact .inl ⟨rfl, rfl⟩
  | some d => exact .inr ⟨by simp, rfl⟩

theorem execDecBits_cases (n : BitVec 4) (bits : BitVec 8) (s : State) :
    (s.dcode = none ∧ execDecBits n bits s = raise .noDtree s) ∨
    ∃ d, s.dcode = some d ∧
      ((Config.doutCap < s.dout.length + n.toNat ∧ execDecBits n bits s = raise .doutFull s) ∨
       (s.dout.length + n.toNat ≤ Config.doutCap ∧
        decodeBits d s.dtarget ⟨s.dpath, s.dcount, s.dout⟩ (consumedBits n bits) = none ∧
        execDecBits n bits s = raise .badPath s) ∨
       (s.dout.length + n.toNat ≤ Config.doutCap ∧
        ∃ p, decodeBits d s.dtarget ⟨s.dpath, s.dcount, s.dout⟩ (consumedBits n bits) = some p ∧
          execDecBits n bits s = .next (s.setProgress p.path p.count p.out))) := by
  rw [execDecBits]
  cases s.dcode with
  | none => exact .inl ⟨rfl, rfl⟩
  | some d =>
    refine .inr ⟨d, rfl, ?_⟩
    dsimp only
    split
    · exact .inl ⟨by assumption, rfl⟩
    · split
      · exact .inr (.inl ⟨by omega, by assumption, rfl⟩)
      · exact .inr (.inr ⟨by omega, _, by assumption, rfl⟩)

theorem execDecEnd_cases (s : State) :
    (s.dcode = none ∧ execDecEnd s = raise .noDtree s) ∨
    (s.dcode ≠ none ∧ s.dcount.toNat < s.dtarget.toNat ∧ execDecEnd s = raise .truncated s) ∨
    (s.dcode ≠ none ∧ s.dtarget.toNat ≤ s.dcount.toNat ∧ execDecEnd s = .next s) := by
  rw [execDecEnd]
  cases s.dcode with
  | none => exact .inl ⟨rfl, rfl⟩
  | some d =>
    dsimp only
    split
    · exact .inr (.inl ⟨by simp, by assumption, rfl⟩)
    · exact .inr (.inr ⟨by simp, by omega, rfl⟩)

end Sys2Proof.Machine
end

