-- ==== Sys2Proof/Laws/Decoding.lean ====
section
/-! SUPPORT. Laws of the decoder (`Decoder`, R172 to R176): what one bit can do, the loop over bits against the cases of
R175, and what decoding keeps. -/

namespace Sys2Proof.Machine

/-- The symbol of a path, by reading the table at each symbol. -/
theorem symOfPath_eq (d : Table (Option Code)) (q : Bits) : symOfPath d q = allSyms.find? fun s => d.lookup s == some q := by
  rw [symOfPath, Table.entries_eq, List.find?_map, Option.map_map]
  exact congrFun Option.map_id _

theorem lookup_of_symOfPath {d : Table (Option Code)} {q : Bits} {s : Sym} (h : symOfPath d q = some s) :
    d.lookup s = some q := by
  rw [symOfPath_eq] at h
  simpa using List.find?_some h

theorem symOfPath_eq_none (d : Table (Option Code)) (q : Bits) :
    symOfPath d q = none ↔ ∀ s, d.lookup s ≠ some q := by
  simp [symOfPath_eq, mem_allSyms]

theorem onPath_iff (d : Table (Option Code)) (q : Bits) :
    onPath d q = true ↔ ∃ s c, d.lookup s = some c ∧ isProperPrefix q c = true := by
  simp only [onPath, List.any_eq_true, mem_presentCodes]
  constructor
  · rintro ⟨c, ⟨s, hs⟩, h⟩; exact ⟨s, c, hs, h⟩
  · rintro ⟨s, c, hs, h⟩; exact ⟨c, ⟨s, hs⟩, h⟩

/-- In a table with the prefix property a code belongs to one symbol. -/
theorem prefixFree_unique {d : Table (Option Code)} (h : PrefixFree d) {s t : Sym} {c : Code}
    (hs : d.lookup s = some c) (ht : d.lookup t = some c) : s = t := by
  by_contra hne
  have := h s t c c hne hs ht
  rw [Bool.eq_false_iff] at this
  exact this ((isPrefix_iff c c).2 (List.prefix_refl c))

/-- In a table with the prefix property no code is a proper prefix of a code: a node that carries a byte value is a leaf
(R172). -/
theorem prefixFree_not_proper {d : Table (Option Code)} (h : PrefixFree d) {s t : Sym} {a b : Code}
    (hs : d.lookup s = some a) (ht : d.lookup t = some b) : isProperPrefix a b = false := by
  by_contra hp
  obtain ⟨hab, hlt⟩ := (isProperPrefix_iff a b).1 (by simpa using hp)
  by_cases hst : s = t
  · subst hst
    rw [hs] at ht
    obtain rfl : a = b := by simpa using ht
    omega
  · have := h s t a b hst hs ht
    rw [Bool.eq_false_iff] at this
    exact this ((isPrefix_iff a b).2 hab)

/-- What one bit can do (R175). -/
theorem decodeBit_cases {d : Table (Option Code)} {target : Word} {p r : Progress} {b : Bool}
    (h : decodeBit d target p b = some r) :
    (p.count = target ∧ r = p) ∨
    (p.count ≠ target ∧ ∃ s, d.lookup s = some (p.path ++ [b]) ∧ r = ⟨[], p.count + 1, p.out ++ [s]⟩) ∨
    (p.count ≠ target ∧ (∀ s, d.lookup s ≠ some (p.path ++ [b])) ∧
      (∃ s c, d.lookup s = some c ∧ isProperPrefix (p.path ++ [b]) c = true) ∧ r = ⟨p.path ++ [b], p.count, p.out⟩) := by
  rw [decodeBit] at h
  split at h
  next hc => exact .inl ⟨hc, by simpa using h.symm⟩
  next hc =>
    split at h
    next s hs => exact .inr (.inl ⟨hc, s, lookup_of_symOfPath hs, by simpa using h.symm⟩)
    next hs =>
      split at h
      next ho =>
        exact .inr (.inr ⟨hc, (symOfPath_eq_none d _).1 hs, (onPath_iff d _).1 ho, by simpa using h.symm⟩)
      next => simp at h

theorem decodeBit_ignored {d : Table (Option Code)} {target : Word} {p : Progress} (b : Bool) (h : p.count = target) :
    decodeBit d target p b = some p := by
  simp [decodeBit, h]

theorem decodeBit_emits {d : Table (Option Code)} (hd : PrefixFree d) {target : Word} {p : Progress} {b : Bool} {s : Sym}
    (h : p.count ≠ target) (hs : d.lookup s = some (p.path ++ [b])) :
    decodeBit d target p b = some ⟨[], p.count + 1, p.out ++ [s]⟩ := by
  rw [decodeBit, if_neg h]
  cases hf : symOfPath d (p.path ++ [b]) with
  | none => exact absurd hs ((symOfPath_eq_none d _).1 hf s)
  | some s' => rw [prefixFree_unique hd (lookup_of_symOfPath hf) hs]

theorem decodeBit_moves {d : Table (Option Code)} {target : Word} {p : Progress} {b : Bool} {s : Sym} {c : Code}
    (h : p.count ≠ target) (hn : ∀ y, d.lookup y ≠ some (p.path ++ [b])) (hs : d.lookup s = some c)
    (hc : isProperPrefix (p.path ++ [b]) c = true) :
    decodeBit d target p b = some ⟨p.path ++ [b], p.count, p.out⟩ := by
  rw [decodeBit, if_neg h, (symOfPath_eq_none d _).2 hn]
  simp [(onPath_iff d _).2 ⟨s, c, hs, hc⟩]

/-- The loop over the bits does what R175 says, bit after bit. -/
theorem decodeBits_iff_decodes {d : Table (Option Code)} (hd : PrefixFree d) (target : Word) (bs : Bits) :
    ∀ (p r : Progress), decodeBits d target p bs = some r ↔ Decodes d target p bs r := by
  induction bs with
  | nil =>
    intro p r
    rw [decodeBits]
    constructor
    · intro h
      obtain rfl : p = r := by simpa using h
      exact .done p
    · rintro ⟨⟩; rfl
  | cons b bs ih =>
    intro p r
    rw [decodeBits]
    constructor
    · intro h
      split at h
      · simp at h
      next p' hp =>
        have hr := (ih p' r).1 h
        rcases decodeBit_cases hp with ⟨hc, rfl⟩ | ⟨hc, s, hs, rfl⟩ | ⟨hc, hn, ⟨s, c, hs, hpre⟩, rfl⟩
        · exact .ignored _ r b bs hc hr
        · exact .emits p r b bs s hc hs hr
        · exact .moves p r b bs s c hc hn hs hpre hr
    · intro h
      cases h with
      | ignored _ _ _ _ hc hr => rw [decodeBit_ignored b hc]; exact (ih p r).2 hr
      | emits _ _ _ _ s hc hs hr => rw [decodeBit_emits hd hc hs]; exact (ih _ r).2 hr
      | moves _ _ _ _ s c hc hn hs hpre hr => rw [decodeBit_moves hc hn hs hpre]; exact (ih _ r).2 hr

/-- The path lies inside the decoder table (R39.4). -/
def PathOk (d : Table (Option Code)) (path : Bits) : Prop :=
  path = [] ∨ ∃ x c, d.lookup x = some c ∧ isProperPrefix path c = true

/-- What decoding keeps (R39.4, R39.5): the path stays in the table, the count within the target, and the bytes emitted
are at most as many as the bits. -/
theorem decodeBits_keeps {d : Table (Option Code)} {target : Word} :
    ∀ (bs : Bits) (p r : Progress), decodeBits d target p bs = some r →
      (PathOk d p.path → PathOk d r.path) ∧ (p.count.toNat ≤ target.toNat → r.count.toNat ≤ target.toNat) ∧
        r.out.length ≤ p.out.length + bs.length
  | [], p, r, h => by
    obtain rfl : p = r := by simpa [decodeBits] using h
    simp
  | b :: bs, p, r, h => by
    rw [decodeBits] at h
    split at h
    · simp at h
    next p' hp =>
      obtain ⟨h1, h2, h3⟩ := decodeBits_keeps bs p' r h
      rcases decodeBit_cases hp with ⟨hc, rfl⟩ | ⟨hc, s, hs, rfl⟩ | ⟨hc, hn, hex, rfl⟩
      · exact ⟨h1, h2, by simp only [List.length_cons]; omega⟩
      · refine ⟨fun _ => h1 (.inl rfl), fun hle => h2 ?_, ?_⟩
        · have := target.isLt
          have : p.count.toNat ≠ target.toNat := fun e => hc (BitVec.eq_of_toNat_eq e)
          have h1 : (1 : Word).toNat = 1 := rfl
          simp only [BitVec.toNat_add, h1]
          omega
        · simp only [List.length_append, List.length_cons, List.length_nil] at h3 ⊢
          omega
      · exact ⟨fun _ => h1 (.inr hex), h2, by simp only [List.length_cons] at h3 ⊢; omega⟩

/-- Bits after the target is reached are ignored (R175, R179). -/
theorem decodes_ignored (d : Table (Option Code)) {target : Word} (p : Progress) (h : p.count = target) :
    ∀ bs : Bits, Decodes d target p bs p
  | [] => .done p
  | b :: bs => .ignored p p b bs h (decodes_ignored d p h bs)

/-- The bits of one code lead from the root back to the root and emit its symbol. -/
theorem decodes_code {d : Table (Option Code)} (hd : PrefixFree d) {target count : Word} {x : Sym} {c : Code}
    {out : List Sym} {rest : Bits} {r : Progress} (hx : d.lookup x = some c) (hc : count ≠ target)
    (hr : Decodes d target ⟨[], count + 1, out ++ [x]⟩ rest r) :
    ∀ (path bs : Bits), bs ≠ [] → path ++ bs = c → Decodes d target ⟨path, count, out⟩ (bs ++ rest) r
  | path, [], hne, _ => absurd rfl hne
  | path, [b], _, he => .emits _ r b rest x hc (by rw [hx, ← he]) hr
  | path, b :: b' :: bs, _, he => by
    have hpre : isProperPrefix (path ++ [b]) c = true := by
      rw [isProperPrefix_iff, ← he]
      exact ⟨⟨b' :: bs, by simp⟩, by simp⟩
    refine .moves _ r b _ x c hc (fun y hy => ?_) hx hpre ?_
    · have := prefixFree_not_proper hd hy hx
      rw [hpre] at this
      exact absurd this (by simp)
    · exact decodes_code hd hx hc hr (path ++ [b]) (b' :: bs) (by simp) (by simpa using he)

end Sys2Proof.Machine
end

