-- ==== Sys2Proof/Laws/Encoding.lean ====
section
/-! SUPPORT. Laws of the command word, one format at a time (`Decode`, R70 to R74): the word of a format as a number, its
opcode, and the reading of its fields. -/

namespace Sys2Proof

/-! ### The words as numbers -/

theorem toNat_encodeF0 (o : BitVec 8) : (encodeF0 o).toNat = o.toNat * 2 ^ 24 := by
  rw [encodeF0, toNat_fields]; simp

theorem toNat_encodeFS (o : BitVec 8) (s : Sym) : (encodeFS o s).toNat = o.toNat * 2 ^ 24 + s.toNat := by
  rw [encodeFS, toNat_fields, toNat_fields]; simp

theorem toNat_encodeFI (o : BitVec 8) (x : NodeIdx) : (encodeFI o x).toNat = o.toNat * 2 ^ 24 + x.toNat := by
  rw [encodeFI, toNat_fields, toNat_fields]; simp

theorem toNat_encodeFB (o : BitVec 8) (n : BitVec 4) (b : BitVec 8) :
    (encodeFB o n b).toNat = o.toNat * 2 ^ 24 + n.toNat * 2 ^ 16 + b.toNat := by
  rw [encodeFB, toNat_fields, toNat_fields, toNat_fields, toNat_fields]; simp; omega

theorem toNat_fieldOpc (w : Word) : (fieldOpc w).toNat = w.toNat / 2 ^ 24 := by
  have := w.isLt
  rw [fieldOpc, toNat_extract]
  omega

/-! ### The opcode of a word -/

@[simp] theorem fieldOpc_encodeF0 (o : BitVec 8) : fieldOpc (encodeF0 o) = o := by
  apply BitVec.eq_of_toNat_eq
  rw [toNat_fieldOpc, toNat_encodeF0]
  omega

@[simp] theorem fieldOpc_encodeFS (o : BitVec 8) (s : Sym) : fieldOpc (encodeFS o s) = o := by
  apply BitVec.eq_of_toNat_eq
  have := s.isLt
  rw [toNat_fieldOpc, toNat_encodeFS]
  omega

@[simp] theorem fieldOpc_encodeFI (o : BitVec 8) (x : NodeIdx) : fieldOpc (encodeFI o x) = o := by
  apply BitVec.eq_of_toNat_eq
  have := x.isLt
  rw [toNat_fieldOpc, toNat_encodeFI]
  omega

@[simp] theorem fieldOpc_encodeFB (o : BitVec 8) (n : BitVec 4) (b : BitVec 8) : fieldOpc (encodeFB o n b) = o := by
  apply BitVec.eq_of_toNat_eq
  have := n.isLt
  have := b.isLt
  rw [toNat_fieldOpc, toNat_encodeFB]
  omega

/-! ### Reading a format back -/

@[simp] theorem decodeF0_encodeF0 (i : Instr) (o : BitVec 8) : decodeF0 i (encodeF0 o) = .ok i := by
  have : (encodeF0 o).extractLsb' 0 24 = 0 := by
    apply BitVec.eq_of_toNat_eq
    rw [toNat_extract, toNat_encodeF0]
    simp
  rw [decodeF0, if_pos this]

@[simp] theorem decodeFS_encodeFS (mk : Sym → Instr) (o : BitVec 8) (s : Sym) : decodeFS mk (encodeFS o s) = .ok (mk s) := by
  have hs := s.isLt
  have h0 : (encodeFS o s).extractLsb' 8 16 = 0 := by
    apply BitVec.eq_of_toNat_eq
    rw [toNat_extract, toNat_encodeFS]
    show _ = 0
    omega
  have h1 : fieldSym (encodeFS o s) = s := by
    apply BitVec.eq_of_toNat_eq
    rw [fieldSym, toNat_extract, toNat_encodeFS]
    omega
  rw [decodeFS, if_pos h0, h1]

@[simp] theorem decodeFI_encodeFI (mk : NodeIdx → Instr) (o : BitVec 8) (x : NodeIdx) :
    decodeFI mk (encodeFI o x) = .ok (mk x) := by
  have hx := x.isLt
  have h0 : (encodeFI o x).extractLsb' 9 15 = 0 := by
    apply BitVec.eq_of_toNat_eq
    rw [toNat_extract, toNat_encodeFI]
    show _ = 0
    omega
  have h1 : fieldIdx (encodeFI o x) = x := by
    apply BitVec.eq_of_toNat_eq
    rw [fieldIdx, toNat_extract, toNat_encodeFI]
    omega
  rw [decodeFI, if_pos h0, h1]

theorem decodeFB_encodeFB (mk : BitVec 4 → BitVec 8 → Instr) (o : BitVec 8) (n : BitVec 4) (b : BitVec 8)
    (hn : 1 ≤ n.toNat ∧ n.toNat ≤ 8) : decodeFB mk (encodeFB o n b) = .ok (mk n b) := by
  have hb := b.isLt
  have h0 : (encodeFB o n b).extractLsb' 20 4 = 0 ∧ (encodeFB o n b).extractLsb' 8 8 = 0 := by
    constructor <;> apply BitVec.eq_of_toNat_eq <;>
      rw [toNat_extract, toNat_encodeFB] <;> show _ = 0 <;> omega
  have h1 : fieldN (encodeFB o n b) = n := by
    apply BitVec.eq_of_toNat_eq
    rw [fieldN, toNat_extract, toNat_encodeFB]
    omega
  have h2 : fieldBits (encodeFB o n b) = b := by
    apply BitVec.eq_of_toNat_eq
    rw [fieldBits, toNat_extract, toNat_encodeFB]
    omega
  rw [decodeFB, if_pos h0, h1, h2, if_pos hn]

/-- The words of a format are read by the row of their opcode (R76). -/
theorem decode_encodeF0 (o : BitVec 8) : decode (encodeF0 o) = decodeOpc o.toNat (encodeF0 o) := by
  rw [decode, fieldOpc_encodeF0]

theorem decode_encodeFS (o : BitVec 8) (s : Sym) : decode (encodeFS o s) = decodeOpc o.toNat (encodeFS o s) := by
  rw [decode, fieldOpc_encodeFS]

theorem decode_encodeFI (o : BitVec 8) (x : NodeIdx) : decode (encodeFI o x) = decodeOpc o.toNat (encodeFI o x) := by
  rw [decode, fieldOpc_encodeFI]

theorem decode_encodeFB (o : BitVec 8) (n : BitVec 4) (b : BitVec 8) :
    decode (encodeFB o n b) = decodeOpc o.toNat (encodeFB o n b) := by
  rw [decode, fieldOpc_encodeFB]

/-! ### What a word of a format is -/

/-- A word that format F0 accepts is its opcode and nothing else. -/
theorem decodeF0_inv {i j : Instr} {w : Word} (h : decodeF0 i w = .ok j) : j = i ∧ encodeF0 (fieldOpc w) = w := by
  rw [decodeF0] at h
  split at h
  next h0 =>
    refine ⟨by simpa using h.symm, BitVec.eq_of_toNat_eq ?_⟩
    have := w.isLt
    have := congrArg BitVec.toNat h0
    rw [toNat_extract] at this
    change _ = 0 at this
    rw [toNat_encodeF0, toNat_fieldOpc]
    omega
  next => simp at h

/-- A word that format FS accepts is its opcode and SYM. -/
theorem decodeFS_inv {mk : Sym → Instr} {j : Instr} {w : Word} (h : decodeFS mk w = .ok j) :
    j = mk (fieldSym w) ∧ encodeFS (fieldOpc w) (fieldSym w) = w := by
  rw [decodeFS] at h
  split at h
  next h0 =>
    refine ⟨by simpa using h.symm, BitVec.eq_of_toNat_eq ?_⟩
    have := w.isLt
    have := congrArg BitVec.toNat h0
    rw [toNat_extract] at this
    change _ = 0 at this
    rw [toNat_encodeFS, toNat_fieldOpc, fieldSym, toNat_extract]
    omega
  next => simp at h

/-- A word that format FI accepts is its opcode and IDX. -/
theorem decodeFI_inv {mk : NodeIdx → Instr} {j : Instr} {w : Word} (h : decodeFI mk w = .ok j) :
    j = mk (fieldIdx w) ∧ encodeFI (fieldOpc w) (fieldIdx w) = w := by
  rw [decodeFI] at h
  split at h
  next h0 =>
    refine ⟨by simpa using h.symm, BitVec.eq_of_toNat_eq ?_⟩
    have := w.isLt
    have := congrArg BitVec.toNat h0
    rw [toNat_extract] at this
    change _ = 0 at this
    rw [toNat_encodeFI, toNat_fieldOpc, fieldIdx, toNat_extract]
    omega
  next => simp at h

/-- A word that format FB accepts is its opcode, N in 1..8, and BITS. -/
theorem decodeFB_inv {mk : BitVec 4 → BitVec 8 → Instr} {j : Instr} {w : Word} (h : decodeFB mk w = .ok j) :
    j = mk (fieldN w) (fieldBits w) ∧ (1 ≤ (fieldN w).toNat ∧ (fieldN w).toNat ≤ 8) ∧
      encodeFB (fieldOpc w) (fieldN w) (fieldBits w) = w := by
  rw [decodeFB] at h
  split at h
  next h0 =>
    split at h
    next hn =>
      refine ⟨by simpa using h.symm, hn, BitVec.eq_of_toNat_eq ?_⟩
      have := w.isLt
      have h1 := congrArg BitVec.toNat h0.1
      have h2 := congrArg BitVec.toNat h0.2
      rw [toNat_extract] at h1 h2
      change _ = 0 at h1
      change _ = 0 at h2
      rw [toNat_encodeFB, toNat_fieldOpc, fieldN, fieldBits, toNat_extract, toNat_extract]
      omega
    next => simp at h
  next => simp at h

end Sys2Proof
end

