-- ==== Sys2Proof/Laws/Window.lean ====
section
/-! SUPPORT. Laws of the register window (`Window`): the register map at the offsets of R51, and what accepting a word
can do (R210). -/

namespace Sys2Proof.Machine

theorem admitted_iff (offset size : Nat) : admitted offset size = true ↔ size = 4 ∧ offset % 4 = 0 ∧ offset ≤ 0xFC := by
  simp only [admitted, Bool.and_eq_true, beq_iff_eq, decide_eq_true_eq]
  show (size = 4 ∧ _) ∧ _ ≤ 256 ↔ _
  omega

theorem winReg_cbuf : ∀ j : Fin 8, winReg (0x40 + 4 * j.val) = .cbuf j := by decide

/-- The reserved offsets (R51). -/
theorem winReg_reserved : ∀ k : Fin 64, (0x28 ≤ 4 * k.val ∧ 4 * k.val ≤ 0x3C) ∨ 0x60 ≤ 4 * k.val →
    winReg (4 * k.val) = .reserved := by decide

/-- The offsets at which a write is ignored (R53). -/
theorem winReg_readOnly : ∀ k : Fin 64, 4 * k.val = 0x04 ∨ (0x0C ≤ 4 * k.val ∧ 4 * k.val ≤ 0x3C) ∨ 0x60 ≤ 4 * k.val →
    winReg (4 * k.val) ∈ [.status, .res0, .res1, .res2, .treeinfo, .bufinfo, .dcount, .dtarget, .reserved] := by decide

theorem winReg_eq_cmd {offset : Nat} (h : winReg offset = .cmd) : offset = 0 := by
  unfold winReg at h
  split at h <;> simp at h ⊢

/-- Everything a CMD write can do: an error is recorded, or nothing, or a legal word becomes pending (R210). -/
theorem accept_cases (w : Word) (s : State) :
    (∃ e, (e = .cmdBusy ∨ e = .illegalCmd) ∧ accept w s = s.recordErr e) ∨ accept w s = s ∨
      (∃ i, decode w = .ok i ∧ s.pending = none ∧ (s.err = 0 ∨ isControl i = true) ∧ accept w s = s.latch w) := by
  unfold accept
  split
  · exact .inl ⟨_, .inl rfl, rfl⟩
  · rename_i hb
    split
    · exact .inl ⟨_, .inr rfl, rfl⟩
    · rename_i i hi
      split
      · exact .inr (.inl rfl)
      · rename_i hc
        refine .inr (.inr ⟨i, hi, by simpa [State.busy] using hb, ?_, rfl⟩)
        by_contra hn
        simp only [not_or] at hn
        exact hc ⟨hn.1, by simpa using hn.2⟩

end Sys2Proof.Machine
end

