-- ==== Sys2Proof/Laws/Engine.lean ====
section
/-! SUPPORT. Laws of the step (`Engine`, `Step`): everything one turn can do, so that no proof need unfold it. -/

namespace Sys2Proof.Machine

theorem engineTurn_idle {s : State} (h : s.pending = none) : engineTurn s = .next s := by
  rw [engineTurn, h]

theorem engineTurn_runs {s t : State} {p : Pending} {i : Instr} (hp : s.pending = some p) (hd : decode p.cmd = .ok i)
    (h : exec i s = .next t) : engineTurn s = .next (t.setPending none) := by
  rw [engineTurn]
  simp only [hp, hd]
  rw [h, finishCommand]

/-- The engine's turn: idle, or the pending command has run (R211, R224). -/
theorem engineTurn_cases {s t : State} (h : engineTurn s = .next t) :
    (s.pending = none ∧ t = s) ∨
    ∃ p i u, s.pending = some p ∧ decode p.cmd = .ok i ∧ exec i s = .next u ∧ t = u.setPending none := by
  cases hp : s.pending with
  | none => rw [engineTurn_idle hp] at h; exact .inl ⟨rfl, (Host.Outcome.next.inj h).symm⟩
  | some p =>
    rw [engineTurn] at h
    simp only [hp] at h
    split at h
    · simp at h
    · rename_i i hd
      cases hx : exec i s with
      | next u =>
        rw [hx, finishCommand] at h
        exact .inr ⟨p, i, u, rfl, hd, hx, (Host.Outcome.next.inj h).symm⟩
      | fault f => rw [hx, finishCommand] at h; simp at h
      | refused r => rw [hx, finishCommand] at h; simp at h

/-- Everything a step can do (R20, R50, R240). -/
theorem step_cases {s t : State} (h : step s = .next t) :
    (∃ rest, engineTurn (s.setAgenda rest) = .next t) ∨
    (∃ rest, s.agenda = .hardwareReset :: rest ∧ t = hardwareReset (s.setAgenda rest)) ∨
    (∃ offset rest, s.agenda = .hostRead offset 4 :: rest ∧ admitted offset 4 = true ∧
      t = hostRead offset (s.setAgenda rest)) ∨
    (∃ offset v rest, s.agenda = .hostWrite offset 4 v :: rest ∧ admitted offset 4 = true ∧
      t = hostWrite offset v (s.setAgenda rest)) := by
  have hsame : s.setAgenda s.agenda = s := rfl
  unfold step takeTurn at h
  split at h
  · exact .inl ⟨s.agenda, by rw [hsame]; exact h⟩
  · exact .inl ⟨_, h⟩
  · exact .inr (.inl ⟨_, by assumption, (Host.Outcome.next.inj h).symm⟩)
  · rename_i offset size rest ha
    split at h
    · rename_i hadm
      obtain rfl := ((admitted_iff _ _).1 hadm).1
      exact .inr (.inr (.inl ⟨offset, rest, ha, hadm, (Host.Outcome.next.inj h).symm⟩))
    · rw [hostStuckTurn] at h
      split at h
      · exact .inl ⟨s.agenda, by rw [hsame]; exact h⟩
      · simp at h
  · rename_i offset size v rest ha
    split at h
    · rename_i hadm
      obtain rfl := ((admitted_iff _ _).1 hadm).1
      exact .inr (.inr (.inr ⟨offset, v, rest, ha, hadm, (Host.Outcome.next.inj h).symm⟩))
    · rw [hostStuckTurn] at h
      split at h
      · exact .inl ⟨s.agenda, by rw [hsame]; exact h⟩
      · simp at h

theorem legal_iff (w : Word) : legal w = true ↔ ∃ i, decode w = .ok i := by
  rw [legal]
  cases decode w <;> simp [Except.isOk, Except.toBool]

end Sys2Proof.Machine
end

