-- ==== Sys2Proof/Laws/PerInstr.lean ====
section
/-! SUPPORT. The family of statements about every instruction as syntax: the word of a well-formed instruction is legal
(R70 to R76). -/

namespace Sys2Proof.Laws.LegalEncoding

/-- The word of a well-formed instruction is legal. -/
def Statement (i : Instr) : Prop := i.wf = true → legal (encode i) = true

/-- A word that decodes is legal. -/
theorem of_decode {w : Word} {i : Instr} (h : decode w = .ok i) : legal w = true := by
  rw [legal, h]; rfl

theorem nop : Statement .nop := fun _ => by decide

theorem clrErr : Statement .clrErr := fun _ => by decide

theorem softReset : Statement .softReset := fun _ => by decide

theorem freqClear : Statement .freqClear := fun _ => by decide

theorem freqWrite (sym : Sym) : Statement (.freqWrite sym) := fun _ =>
  of_decode (i := .freqWrite sym) ((decode_encodeFS _ _).trans (decodeFS_encodeFS _ _ _))

theorem freqRead (sym : Sym) : Statement (.freqRead sym) := fun _ =>
  of_decode (i := .freqRead sym) ((decode_encodeFS _ _).trans (decodeFS_encodeFS _ _ _))

theorem buildTree : Statement .buildTree := fun _ => by decide

theorem nodeRead (idx : NodeIdx) : Statement (.nodeRead idx) := fun _ =>
  of_decode (i := .nodeRead idx) ((decode_encodeFI _ _).trans (decodeFI_encodeFI _ _ _))

theorem genCodes : Statement .genCodes := fun _ => by decide

theorem codeClear : Statement .codeClear := fun _ => by decide

theorem codeWrite (sym : Sym) : Statement (.codeWrite sym) := fun _ =>
  of_decode (i := .codeWrite sym) ((decode_encodeFS _ _).trans (decodeFS_encodeFS _ _ _))

theorem codeRead (sym : Sym) : Statement (.codeRead sym) := fun _ =>
  of_decode (i := .codeRead sym) ((decode_encodeFS _ _).trans (decodeFS_encodeFS _ _ _))

theorem encByte (sym : Sym) : Statement (.encByte sym) := fun _ =>
  of_decode (i := .encByte sym) ((decode_encodeFS _ _).trans (decodeFS_encodeFS _ _ _))

theorem encPop : Statement .encPop := fun _ => by decide

theorem encClear : Statement .encClear := fun _ => by decide

theorem decLoad : Statement .decLoad := fun _ => by decide

theorem decStart : Statement .decStart := fun _ => by decide

theorem decBits (n : BitVec 4) (bits : BitVec 8) : Statement (.decBits n bits) := fun h => by
  have h : 1 ≤ n.toNat ∧ n.toNat ≤ 8 := by simpa [Instr.wf] using h
  exact of_decode (i := .decBits n bits) ((decode_encodeFB _ _ _).trans (decodeFB_encodeFB _ _ _ _ h))

theorem decPop : Statement .decPop := fun _ => by decide

theorem decEnd : Statement .decEnd := fun _ => by decide

end Sys2Proof.Laws.LegalEncoding
end

