-- ==== Sys2Proof/Laws/Views.lean ====
section
/-! SUPPORT. Laws of the views (`Flags`): STATUS, TREEINFO and BUFINFO as numbers (R24, R29, R36). -/

namespace Sys2Proof.Machine

/-- STATUS as a number, with the fields [3:1] free: both readings of it, idle and busy, are of this form (R24, R54). -/
theorem toNat_packStatus (err : BitVec 4) (views : BitVec 3) (busy : Bool) :
    (packStatus err views busy).toNat = err.toNat * 16 + views.toNat * 2 + busy.toNat := by
  rw [packStatus, toNat_fields, toNat_fields, toNat_fields, BitVec.toNat_ofBool]
  show 0 * 2 ^ (4 + (3 + 1)) + _ = _
  omega

theorem toNat_statusViews (s : State) : s.statusViews.toNat = s.ddone.toNat * 4 + s.dv.toNat * 2 + s.tv.toNat := by
  rw [State.statusViews, toNat_fields, toNat_fields]
  simp only [BitVec.toNat_ofBool]
  omega

theorem toNat_status (s : State) :
    s.status.toNat = s.err.toNat * 16 + s.ddone.toNat * 8 + s.dv.toNat * 4 + s.tv.toNat * 2 + s.busy.toNat := by
  rw [State.status, toNat_packStatus, toNat_statusViews]
  omega

theorem toNat_treeinfo (s : State) :
    s.treeinfo.toNat = s.rootIndex.isSome.toNat * 2 ^ 31 + (s.rootIndex.getD 0).toNat * 2 ^ 16 + s.ncount % 2 ^ 10 := by
  rw [State.treeinfo, toNat_fields, toNat_fields, toNat_fields, toNat_fields, BitVec.toNat_ofBool, BitVec.toNat_ofNat]
  show _ + (0 * 2 ^ (9 + (6 + 10)) + (_ + (0 * 2 ^ 10 + _))) = _
  omega

theorem toNat_bufinfo (s : State) :
    s.bufinfo.toNat = s.dpath.length % 2 ^ 8 * 2 ^ 24 + s.dout.length % 2 ^ 5 * 2 ^ 16 + s.obuf.length % 2 ^ 10 := by
  rw [State.bufinfo, toNat_fields, toNat_fields, toNat_fields, toNat_fields, BitVec.toNat_ofNat, BitVec.toNat_ofNat,
    BitVec.toNat_ofNat]
  show _ + (0 * 2 ^ (5 + (6 + 10)) + (_ + (0 * 2 ^ 10 + _))) = _
  omega

/-- A bit of a register, by its number. -/
theorem getLsbD_of_toNat {w : Nat} (x : BitVec w) (i : Nat) (b : Bool) (h : x.toNat / 2 ^ i % 2 = b.toNat) :
    x.getLsbD i = b := by
  rw [BitVec.getLsbD, Nat.testBit_eq_decide_div_mod_eq, h]
  cases b <;> rfl

end Sys2Proof.Machine
end

