-- ==== Sys2Proof/Machine/HostProgram.lean ====
section
/-! DEFINITION. The host's statements and pseudo-instructions as turns of the agenda (`30_encoding.md` R79, R80). They
exist only in host software: the block sees only the bus accesses. WAIT is a host loop that polls STATUS; `issueWait`
is its schedule in which the engine steps before the first poll, so that one read ends the loop (R59, R60). -/

namespace Sys2Proof.Machine

/-- `WR <reg>, <value>` (R79), the register given by its offset (R51). -/
def wr (offset : Nat) (v : Word) : Turn := .hostWrite offset 4 v

/-- `RD <reg>` (R79). -/
def rd (offset : Nat) : Turn := .hostRead offset 4

/-- `<MNEMONIC> <ops>`: the command word written to CMD (R79). -/
def issue (i : Instr) : Turn := wr 0x00 (encode i)

/-- `<MNEMONIC>.W <ops>` (R80). -/
def issueWait (i : Instr) : List Turn := [issue i, .engine, rd 0x04]

/-- `SETFREQ <sym>, <n>` (R80). -/
def setFreqTurns (sym : Sym) (n : Word) : List Turn := wr 0x08 n :: issueWait (.freqWrite sym)

/-- `SETCODE <sym>, <code>` (R80): CBUFj for each j covering the code, packed as R81 says. -/
def setCodeTurns (sym : Sym) (c : Code) : List Turn :=
  (List.range ((c.length + 31) / 32)).map (fun j => wr (0x40 + 4 * j) (packBits 32 (c.drop (32 * j)))) ++
    wr 0x08 (BitVec.ofNat 32 c.length) :: issueWait (.codeWrite sym)

/-- `FEED <byte>` (R80). -/
def feedTurns (b : BitVec 8) : List Turn := issueWait (.decBits 8 b)

end Sys2Proof.Machine
end

