-- ==== Sys2Proof/Tests/Slice0.lean ====
section
/-! SUPPORT. Tests of the model, the expected values taken from the vectors of `95_test_vectors.md` (named in each
comment) or written out from the encodings of `30_encoding.md`, and the witnesses of the statements' hypotheses. -/

namespace Sys2Proof.Tests

open Sys2Proof.Machine

/-! ### Small states -/

/-- The state of an outcome, and the reset state where there is none. -/
def after : Result → State
  | .next t => t
  | .fault _ => State.reset
  | .refused _ => State.reset

/-- The state with a command word pending, its operands latched. -/
def latched (w : Word) (s : State) : State := { s with pending := some ⟨w, s.arg0, s.cbuf⟩ }

/-- The state after the engine has run a command. -/
def run (i : Instr) (s : State) : State := after (step (latched (encode i) s))

/-- The reset state with a schedule. -/
def scheduled (a : List Turn) : State := { State.reset with agenda := a }

/-- Counts 0x41 = 1 and 0x42 = 3 (T-TREE-5). -/
def counts : Table Count := ((Table.const 0).update 0x41 1).update 0x42 3

/-- The reset state with those counts. -/
def counted : State := { State.reset with freq := counts }

/-- The tree of T-TREE-5. -/
def smallTree : BTree := { nodes := [.leaf 0x41 1, .leaf 0x42 3, .internal 4 0 1], root := some 2 }

/-- Those counts and that tree. -/
def treed : State := { counted with btree := some smallTree }

/-- Codes A = "0" and B = "11" (T-DEC-14). -/
def codes : Table (Option Code) := ((Table.const none).update 0x41 (some [false])).update 0x42 (some [true, true])

/-- A code table. -/
def coded : State := { State.reset with code := codes }

/-- A decoder started with target 20 (T-DEC-14). -/
def loaded : State := { coded with dcode := some codes, dtarget := 20 }

theorem codes_free : PrefixFree codes := by
  intro s t a b hne ha hb
  simp only [codes, Table.lookup_update, Table.lookup_const] at ha hb
  split at ha <;> split at hb <;> simp_all
  · obtain ⟨-, rfl⟩ := hb; subst ha; decide
  · obtain ⟨-, rfl⟩ := ha; subst hb; decide

theorem codes_sized : CodesSized codes := by
  intro s a ha
  simp only [codes, Table.lookup_update, Table.lookup_const] at ha
  split at ha
  · obtain rfl := Option.some.inj ha; decide
  · split at ha
    · obtain rfl := Option.some.inj ha; decide
    · simp at ha

theorem empty_sized : CodesSized (Table.const none) := by
  intro s a ha
  simp at ha

/-- A state with something in every element: BUILD_TREE pending, a tree, codes, bits encoded, a path of one bit in the
decoder table, one byte decoded. -/
def busyState : State :=
  latched 0x13000000
    { loaded with freq := counts, btree := some (buildTree counts), dpath := [true], dcount := 1, dout := [0x41]
                  obuf := [true], err := 6 }

/-- It meets every invariant of R39. -/
theorem busyState_inv : Inv busyState where
  tree := fun t h => by obtain rfl := Option.some.inj h; exact buildTree_wf counts
  codes := ⟨codes_sized, fun d h => by obtain rfl := Option.some.inj h; exact codes_sized⟩
  decoder :=
    { prefixFree := fun d h => by obtain rfl := Option.some.inj h; exact codes_free
      path := fun d h => by
        obtain rfl := Option.some.inj h
        exact .inr ⟨0x42, [true, true], by simp [codes], by decide⟩
      unloaded := fun h => by simp [busyState, latched, loaded] at h }
  buffers := by refine ⟨?_, ?_, ?_⟩ <;> decide
  err := by show _ ≤ _; decide
  pending := fun p h => by obtain rfl := Option.some.inj h; decide

/-! ### Well-formedness -/

theorem test_wf_refuses_zero_bits : (Instr.decBits 0 0x70).wf = false := by decide

theorem test_wf_refuses_nine_bits : (Instr.decBits 9 0x70).wf = false := by decide

theorem test_wf_takes_the_range : (Instr.decBits 1 0x70).wf = true ∧ (Instr.decBits 8 0x70).wf = true := by decide

/-! ### Decoding: words written out bit by bit from R70 to R76 -/

/-- Format F0: opcode, then 24 zeros (R71, R76). -/
theorem test_decode_f0 :
    decode 0b00000000000000000000000000000000 = .ok .nop ∧ decode 0b00000001000000000000000000000000 = .ok .clrErr ∧
    decode 0b00000010000000000000000000000000 = .ok .softReset ∧
    decode 0b00010000000000000000000000000000 = .ok .freqClear ∧
    decode 0b00010011000000000000000000000000 = .ok .buildTree ∧
    decode 0b00100000000000000000000000000000 = .ok .genCodes ∧
    decode 0b00100001000000000000000000000000 = .ok .codeClear ∧
    decode 0b00110001000000000000000000000000 = .ok .encPop ∧ decode 0b00110010000000000000000000000000 = .ok .encClear ∧
    decode 0b01000000000000000000000000000000 = .ok .decLoad ∧ decode 0b01000001000000000000000000000000 = .ok .decStart ∧
    decode 0b01000011000000000000000000000000 = .ok .decPop ∧ decode 0b01000100000000000000000000000000 = .ok .decEnd := by
  decide

/-- Format FS: opcode, 16 zeros, SYM (R72, R76); the first word is T-ACC-18's. -/
theorem test_decode_fs :
    decode 0b00010001000000000000000001100001 = .ok (.freqWrite 0x61) ∧
    decode 0b00010010000000000000000010000001 = .ok (.freqRead 0x81) ∧
    decode 0b00100010000000000000000001100010 = .ok (.codeWrite 0x62) ∧
    decode 0b00100011000000000000000011111111 = .ok (.codeRead 0xFF) ∧
    decode 0b00110000000000000000000000000001 = .ok (.encByte 0x01) := by
  decide

/-- Format FI: opcode, 15 zeros, IDX (R73, R76); T-ACC-11 and T-ACC-18. -/
theorem test_decode_fi :
    decode 0b00010100000000000000000111111111 = .ok (.nodeRead 511) ∧
    decode 0b00010100000000000000000000001000 = .ok (.nodeRead 8) := by
  decide

/-- Format FB: opcode, 4 zeros, N, 8 zeros, BITS (R74, R76); T-ACC-18 and T-ACC-12. -/
theorem test_decode_fb :
    decode 0b01000010000010000000000001110000 = .ok (.decBits 8 0x70) ∧
    decode 0b01000010000000010000000000000001 = .ok (.decBits 1 0x01) := by
  decide

/-- Illegal words: T-ACC-2 to T-ACC-10. -/
theorem test_decode_rejects :
    decode 0x00000001 = .error .nonzeroReserved ∧ decode 0x03000000 = .error .reservedOpcode ∧
    decode 0xFF000000 = .error .reservedOpcode ∧ decode 0x42000070 = .error .badBitCount ∧
    decode 0x42090070 = .error .badBitCount ∧ decode 0x42180070 = .error .nonzeroReserved ∧
    decode 0x42088070 = .error .nonzeroReserved ∧ decode 0x11000100 = .error .nonzeroReserved ∧
    decode 0x14000200 = .error .nonzeroReserved := by
  decide

/-- The host's two entry points, on BUILD_TREE's word (R76). -/
theorem test_table_word : decodeTableWord 32 0x13000000 = some .buildTree ∧ decodeTableWord 32 0x42000000 = none := by
  decide

theorem test_fetch_word : (after (step (State.reset.withFetchWord 32 0x20000000))).status = 0x00000050 := by decide

/-! ### The window and acceptance -/

/-- T-ACC-2. -/
theorem test_illegal_word : (after (step (scheduled [wr 0x00 0x00000001]))).status = 0x00000010 := by decide

/-- T-ACC-13: with ERR = 5 the illegal word and the blocked command are dropped. -/
theorem test_blocked :
    (after (step { scheduled [wr 0x00 0xFF000000] with err := 5 })).status = 0x00000050 ∧
    (after (step { scheduled [wr 0x00 0x12000041] with err := 5 })).status = 0x00000050 := by
  decide

/-- T-ACC-14: the second word is dropped with CMD_BUSY, the first stays pending. -/
theorem test_busy :
    (after (step (latched 0x13000000 (scheduled [wr 0x00 0x20000000])))).err = 2 ∧
    (after (step (latched 0x13000000 (scheduled [wr 0x00 0x20000000])))).pending.map (·.cmd) = some 0x13000000 := by
  decide

/-- T-MEM-4 and T-MEM-5. -/
theorem test_operand_writes :
    (after (step (scheduled [wr 0x08 0x12345678]))).arg0 = 0x12345678 ∧
    (after (step (scheduled [wr 0x5C 0xDEADBEEF]))).cbuf[7] = 0xDEADBEEF := by
  decide

/-- T-MEM-3: STATUS is read-only. -/
theorem test_status_write_ignored : (after (step (scheduled [wr 0x04 0xFFFFFFFF]))).status = 0 := by decide

/-- T-MEM-1 and T-MEM-2: CMD and the reserved offsets read 0; a register reads itself. -/
theorem test_reads :
    ([0x00, 0x28, 0x60, 0xFC, 0x0C].map fun off =>
      (after (step { scheduled [rd off] with res0 := 7 })).hostReads.map (·.value)) = [[0], [0], [0], [0], [7]] := by
  decide

/-- T-MEM-6: a 1-byte read at 0x04 and a 4-byte read at 0x06 have no step. -/
theorem test_not_admitted :
    (match step (scheduled [.hostRead 0x04 1]) with | .fault f => some f | _ => none) = some (.hostStuck 0x04 1) ∧
    (match step (scheduled [.hostRead 0x06 4]) with | .fault f => some f | _ => none) = some (.hostStuck 0x06 4) := by
  decide

/-! ### Commands, one step each -/

/-- T-ACC-15. -/
theorem test_nop : (run .nop { State.reset with err := 6 }).status = 0x00000060 := by decide

/-- T-ACC-16. -/
theorem test_clr_err :
    (run .clrErr { State.reset with err := 6, arg0 := 3 }).err = 0 ∧
    (run .clrErr { State.reset with err := 6, arg0 := 3 }).arg0 = 3 := by
  decide

/-- T-CTL-3: SOFT_RESET overwrites the host's write of ARG0. -/
theorem test_soft_reset : (run .softReset { loaded with arg0 := 9, err := 6 }).arg0 = 0 := by decide

/-- T-CTL-2. -/
theorem test_soft_reset_views :
    (run .softReset { loaded with err := 6 }).status = 0 ∧ (run .softReset { loaded with obuf := [true] }).bufinfo = 0 := by
  decide

/-- T-TREE-15. -/
theorem test_freq_clear : (run .freqClear treed).freq.lookup 0x41 = 0 ∧ (run .freqClear treed).status = 0 := by decide

/-- T-MEM-9: the command uses the latched A0, whatever ARG0 holds when it runs. -/
theorem test_freq_write :
    (after (step { latched 0x11000061 { State.reset with arg0 := 5 } with arg0 := 7 })).freq.lookup 0x61 = 5 := by
  decide

/-- T-TREE-13: the tree is discarded. -/
theorem test_freq_write_discards : (run (.freqWrite 0x61) treed).status = 0 ∧ (run (.freqWrite 0x61) treed).treeinfo = 0 := by
  decide

/-- T-TREE-14, with the counts of T-TREE-5. -/
theorem test_freq_read : (run (.freqRead 0x42) treed).res0 = 3 ∧ (run (.freqRead 0x42) treed).status = 0x00000002 := by decide

/-- T-TREE-5: node 2 is I(4, zero 0, one 1). -/
theorem test_build_tree : (run .buildTree counted).btree = some smallTree := by decide

/-- T-TREE-4: leaf c beats the internal node of the same weight. -/
theorem test_merge_tie :
    mergeLoop 3 [.leaf 0x61 1, .leaf 0x62 1, .leaf 0x63 2] (queueOf [.leaf 0x61 1, .leaf 0x62 1, .leaf 0x63 2]) =
      [.leaf 0x61 1, .leaf 0x62 1, .leaf 0x63 2, .internal 2 0 1, .internal 4 2 3] := by
  decide

/-- T-TREE-12's root, as the only node of an arena. -/
theorem test_node_read :
    let t := run (.nodeRead 0) { State.reset with btree := some { nodes := [.internal 0xFFFFFFFF00 508 509], root := some 0 } }
    t.res0 = 0x00FF0000 ∧ t.res1 = 0x01FD01FC ∧ t.res2 = 0xFFFFFF00 := by
  decide

/-- T-TREE-9. -/
theorem test_node_read_bad_index : (run (.nodeRead 0) State.reset).status = 0x00000030 := by decide

/-- T-TREE-5's tree: A is the zero-branch and B the one-branch (R131). -/
theorem test_gen_codes :
    (run .genCodes treed).code.lookup 0x41 = some [false] ∧ (run .genCodes treed).code.lookup 0x42 = some [true] := by
  decide

/-- T-GEN-4: a single leaf has the code "0". -/
theorem test_gen_codes_single :
    (run .genCodes { State.reset with btree := some { nodes := [.leaf 0x41 5000], root := some 0 } }).code.lookup 0x41 =
      some [false] := by
  decide

/-- T-CODE-6. -/
theorem test_code_clear : (run .codeClear coded).code.lookup 0x41 = none := by decide

/-- T-CODE-2: one bit of CBUF0; and the 33rd bit of a code lies at CBUF1[31] (R81). -/
theorem test_code_write :
    (run (.codeWrite 0x41) { State.reset with arg0 := 1, cbuf := Vector.replicate 8 0xFFFFFFFF }).code.lookup 0x41 =
      some [true] ∧
    ((run (.codeWrite 0x41) { State.reset with arg0 := 33, cbuf := (Vector.replicate 8 0).set 1 0x80000000 }).code.lookup
      0x41).bind List.getLast? = some true := by
  decide

/-- T-CODE-5. -/
theorem test_code_write_bad_arg : (run (.codeWrite 0x41) { State.reset with arg0 := 0x100 }).status = 0x00000040 := by decide

/-- T-CODE-1, with the code of T-DEC-14: "11". -/
theorem test_code_read :
    (run (.codeRead 0x42) coded).res0 = 0x00000102 ∧ (run (.codeRead 0x42) coded).cbuf[0] = 0xC0000000 := by
  decide

/-- T-CODE-7. -/
theorem test_code_read_absent :
    let t := run (.codeRead 0x7A) { State.reset with cbuf := Vector.replicate 8 0xFFFFFFFF, res0 := 5 }
    t.res0 = 0 ∧ t.cbuf = Vector.replicate 8 0 := by
  decide

/-- T-ENC-1, with the codes of T-DEC-14. -/
theorem test_enc_byte : (run (.encByte 0x42) { coded with obuf := [false] }).obuf = [false, true, true] := by decide

/-- T-ENC-10: NO_CODE comes before OBUF_FULL. -/
theorem test_enc_byte_no_code : (run (.encByte 0x02) { coded with obuf := List.replicate 510 false }).err = 6 := by decide

/-- T-ENC-1: the pop of "0110". -/
theorem test_enc_pop :
    (run .encPop { State.reset with obuf := [false, true, true, false] }).res0 = 0x00000460 ∧
    (run .encPop { State.reset with obuf := [false, true, true, false] }).bufinfo = 0 := by
  decide

/-- T-ENC-2: a full pop, 0x6E, leaves what follows. -/
theorem test_enc_pop_full :
    let t := run .encPop { State.reset with obuf := [false, true, true, false, true, true, true, false, true] }
    t.res0 = 0x0000086E ∧ t.obuf = [true] := by
  decide

/-- T-ENC-12. -/
theorem test_enc_clear : (run .encClear { State.reset with obuf := [false, true, true, false] }).bufinfo = 0 := by decide

/-- T-DEC-9: A = "1" is a prefix of B = "11". -/
theorem test_dec_load_conflict :
    (run .decLoad { State.reset with code := ((Table.const none).update 0x41 (some [true])).update 0x42 (some [true, true]) }).status =
      0x00000080 := by
  decide

/-- T-DEC-22: the empty table loads. -/
theorem test_dec_load_empty : (run .decLoad State.reset).status = 0x0000000C := by decide

/-- T-DEC-2: DDONE falls when the target is not reached. -/
theorem test_dec_start :
    let t := run .decStart { loaded with arg0 := 11, dpath := [true], dcount := 3, dout := [0x41] }
    t.status = 0x00000004 ∧ t.bufinfo = 0 ∧ t.dtarget = 11 := by
  decide

/-- T-DEC-12. -/
theorem test_dec_start_no_table : (run .decStart State.reset).status = 0x00000090 := by decide

/-- T-DEC-14: "00110110" decodes to A A B A B A. -/
theorem test_dec_bits :
    (run (.decBits 8 0x36) loaded).dout = [0x41, 0x41, 0x42, 0x41, 0x42, 0x41] ∧
    (run (.decBits 8 0x36) loaded).bufinfo = 0x00060000 := by
  decide

/-- T-DEC-17: BAD_PATH at the fourth bit, and no bit has any effect. -/
theorem test_dec_bits_bad_path :
    (run (.decBits 5 0x28) loaded).err = 10 ∧ (run (.decBits 5 0x28) loaded).dout = [] ∧
    (run (.decBits 5 0x28) loaded).dcount = 0 := by
  decide

/-- T-DEC-5. -/
theorem test_dec_pop :
    (run .decPop { loaded with dout := [0x61, 0x62] }).res0 = 0x00000161 ∧
    (run .decPop { loaded with dout := [0x61, 0x62] }).dout = [0x62] := by
  decide

/-- T-DEC-13. -/
theorem test_dec_pop_empty : (run .decPop { loaded with res0 := 5 }).res0 = 0 := by decide

/-- T-DEC-20. -/
theorem test_dec_end_truncated : (run .decEnd { loaded with dcount := 2, dtarget := 3 }).status = 0x000000C4 := by decide

/-- T-DEC-21. -/
theorem test_dec_end : (run .decEnd { loaded with dcount := 3, dtarget := 3 }).status = 0x0000000C := by decide

/-! ### Witnesses of hypotheses -/

theorem witness_decodeOfEncode :
    (Instr.decBits 1 0x80).wf = true ∧ (Instr.decBits 8 0xFF).wf = true ∧ (Instr.nodeRead 511).wf = true := by
  decide

theorem witness_encodeOfDecode : decode 0x140001FF = .ok (.nodeRead 511) ∧ decode 0x42080070 = .ok (.decBits 8 0x70) := by
  decide

/-- Both sides of each clause of the legal words. -/
theorem witness_legalWords :
    legal 0x44000000 = true ∧ legal 0x44800000 = false ∧ legal 0x300000FF = true ∧ legal 0x30000100 = false ∧
    legal 0x140001FF = true ∧ legal 0x14000200 = false ∧ legal 0x42010000 = true ∧ legal 0x420800FF = true ∧
    legal 0x42000000 = false ∧ legal 0x42090000 = false := by
  decide

theorem witness_illegalWord :
    legal 0x42000000 = false ∧ (scheduled [wr 0x00 0x42000000]).pending = none ∧
    (scheduled [wr 0x00 0x42000000]).agenda = [.hostWrite 0x00 4 0x42000000] := by
  decide

theorem witness_unusedBits :
    (Instr.decBits 4 0xA5).wf = true ∧
    (∀ j, j < (4 : BitVec 4).toNat → (0xA5 : BitVec 8).getLsbD (7 - j) = (0xA0 : BitVec 8).getLsbD (7 - j)) ∧
    (Instr.decBits 1 0x80).wf = true ∧
    ∀ j, j < (1 : BitVec 4).toNat → (0x80 : BitVec 8).getLsbD (7 - j) = (0xFF : BitVec 8).getLsbD (7 - j) := by
  decide

theorem witness_views : Inv busyState ∧ ∃ t, busyState.btree = some t := ⟨busyState_inv, _, rfl⟩

/-- A tree with a root (T-TREE-5) and the empty tree (T-TREE-6). -/
theorem witness_treeinfo :
    (run .buildTree counted).btree.bind BTree.root = some 2 ∧ (run .buildTree State.reset).btree = some ⟨[], none⟩ := by
  decide

/-- Admitted requests at the boundaries of every clause of the register map. -/
theorem witness_offsets :
    ∀ off ∈ [0x00, 0x04, 0x08, 0x0C, 0x10, 0x14, 0x18, 0x1C, 0x20, 0x24, 0x28, 0x3C, 0x40, 0x5C, 0x60, 0xFC],
      off % 4 = 0 ∧ off ≤ 0xFC ∧ (scheduled [rd off]).agenda = [.hostRead off 4] ∧ (scheduled [rd off]).pending = none ∧
      (latched 0x13000000 (scheduled [rd off])).pending ≠ none ∧ (scheduled [wr off 7]).agenda = [.hostWrite off 4 7] := by
  decide

/-- The first CBUF register and the last are those of the clause over `j`. -/
theorem witness_cbuf_offsets : 0x40 + 4 * (0 : Fin 8).val = 0x40 ∧ 0x40 + 4 * (7 : Fin 8).val = 0x5C := by decide

/-- A request that is admitted and one for each way not to be, idle and with a command pending. -/
theorem witness_requests :
    (0xFC % 4 = 0 ∧ 0xFC ≤ 0xFC ∧ 4 = 4) ∧ ¬ (0xFE % 4 = 0 ∧ 0xFE ≤ 0xFC ∧ 4 = 4) ∧
    ¬ (0x100 % 4 = 0 ∧ 0x100 ≤ 0xFC ∧ 4 = 4) ∧ ¬ (0x04 % 4 = 0 ∧ 0x04 ≤ 0xFC ∧ 1 = 4) ∧
    (scheduled [.hostRead 0x04 1]).pending = none ∧
    (latched 0x13000000 (scheduled [.hostRead 0x04 1])).pending.map (·.cmd) = some 0x13000000 ∧
    decode 0x13000000 = .ok .buildTree := by
  decide

/-- The four clauses of a CMD write: busy, illegal, blocked, accepted (with ERR = 0 and as a control command). -/
theorem witness_cmdWrites :
    (latched 0x13000000 (scheduled [wr 0x00 0])).pending ≠ none ∧ legal 0x45000000 = false ∧
    (legal 0x13000000 = true ∧ (6 : BitVec 4) ≠ 0 ∧
      (0x13000000 : Word).extractLsb' 24 8 ∉ [0x00#8, 0x01#8, 0x02#8]) ∧
    (legal 0x02000000 = true ∧ (0x02000000 : Word).extractLsb' 24 8 ∈ [0x00#8, 0x01#8, 0x02#8]) ∧
    (scheduled [wr 0x00 0]).err = 0 ∧ (scheduled [wr 0x00 0]).agenda = [.hostWrite 0x00 4 0] := by
  decide

theorem witness_alwaysAccepted :
    let s := { scheduled [wr 0x00 0x01000000] with err := 6 }
    s.agenda = [.hostWrite 0x00 4 0x01000000] ∧ s.pending = none := ⟨rfl, rfl⟩

theorem witness_stepRuns :
    engineNext (latched 0x13000000 State.reset) ∧ engineNext (latched 0x13000000 (scheduled [.engine, rd 0x04])) ∧
    decode 0x13000000 = .ok .buildTree :=
  ⟨.inl rfl, .inr ⟨_, rfl⟩, by decide⟩

theorem witness_idleEngine : engineNext (scheduled [.engine]) ∧ (scheduled [.engine]).pending = none :=
  ⟨.inr ⟨_, rfl⟩, rfl⟩

theorem witness_hardwareReset : (latched 0x13000000 (scheduled [.hardwareReset])).agenda = [.hardwareReset] := rfl

theorem witness_stuckHost :
    InvPending (scheduled [.hostRead 0x04 1]) ∧ step (scheduled [.hostRead 0x04 1]) = .fault (.hostStuck 0x04 1) :=
  ⟨fun p h => by simp [scheduled, State.reset] at h, rfl⟩

theorem witness_runsEnd :
    InvPending (latched 0x13000000 (scheduled [rd 0x04, .engine])) ∧
    ∀ x ∈ (latched 0x13000000 (scheduled [rd 0x04, .engine])).agenda, Turn.possible x = true :=
  ⟨fun p h => by obtain rfl := Option.some.inj h; decide, by decide⟩

/-- A run that has ended, with later turns that are no part of it: an engine turn, hardware reset, none. The run with
NO_TREE recorded has ended and did not succeed (R252), though a hardware reset follows. -/
theorem witness_ended :
    (∀ a ∈ [[], [Turn.engine], [Turn.hardwareReset, Turn.engine]],
      Ended { scheduled a with err := 5 } ∧ ∃ t, step { scheduled a with err := 5 } = .next t) ∧
    ¬ Succeeded { scheduled [.hardwareReset] with err := 5 } ∧ Succeeded (scheduled [.hardwareReset]) ∧
    ¬ Ended (scheduled [rd 0x04]) := by
  refine ⟨fun a ha => ?_, fun h => ?_, ⟨⟨by decide, rfl⟩, rfl⟩, fun h => ?_⟩
  · simp only [List.mem_cons, List.not_mem_nil, or_false] at ha
    rcases ha with rfl | rfl | rfl <;> exact ⟨⟨by decide, rfl⟩, _, rfl⟩
  · exact absurd h.2 (by decide)
  · exact absurd (h.1 (rd 0x04) (.head _)) (by decide)

/-- err rises at a CMD write, for each of its two codes, and at a completion, and falls at CLR_ERR, SOFT_RESET and
hardware reset. -/
theorem witness_firstError :
    (∃ t, step (scheduled [wr 0x00 0xFF000000]) = .next t ∧ t.err = 1) ∧
    (∃ t, step (latched 0x13000000 (scheduled [wr 0x00 0x20000000])) = .next t ∧ t.err = 2) ∧
    (∃ t, step (latched 0x14000000 State.reset) = .next t ∧ t.err = 3) ∧
    (∃ t, step (latched 0x44000000 { loaded with dcount := 2 }) = .next t ∧ t.err = 12) ∧
    (∀ w ∈ [0x01000000, 0x02000000], ∃ t, step (latched w { State.reset with err := 9 }) = .next t ∧ t.err = 0) ∧
    ∃ t, step { scheduled [.hardwareReset] with err := 9 } = .next t ∧ t.err = 0 := by
  refine ⟨⟨_, rfl, by decide⟩, ⟨_, rfl, by decide⟩, ⟨_, rfl, by decide⟩, ⟨_, rfl, by decide⟩, fun w hw => ?_,
    ⟨_, rfl, by decide⟩⟩
  simp only [List.mem_cons, List.not_mem_nil, or_false] at hw
  rcases hw with rfl | rfl
  · exact ⟨_, rfl, by decide⟩
  · exact ⟨_, rfl, by decide⟩

theorem witness_onlyNamedCommands : ∃ t, exec (.freqWrite 0x61) counted = .next t ∧ Instr.freqWrite 0x61 ≠ .softReset :=
  ⟨_, rfl, by decide⟩

theorem witness_operandsAreLatched :
    ∃ p t, (latched 0x11000061 counted).pending = some p ∧ exec (.freqWrite 0x61) (latched 0x11000061 counted) = .next t :=
  ⟨_, _, rfl, rfl⟩

theorem witness_failing : ∃ t, exec .decStart State.reset = .next t ∧ State.reset.err = 0 ∧ t.err ≠ 0 :=
  ⟨_, rfl, rfl, by decide⟩

theorem witness_freqWrite : ∃ p, (latched 0x11000061 counted).pending = some p := ⟨_, rfl⟩

theorem witness_buildTree : treed.freq = counted.freq ∧ treed ≠ counted :=
  ⟨rfl, fun h => by have := congrArg State.btree h; simp [treed, counted, State.reset] at this⟩

/-- Two counts, none and one: the clauses over the alphabet (T-TREE-5, T-TREE-6, T-TREE-7). -/
theorem witness_alphabets :
    counts.lookup 0x41 ≠ 0 ∧ counts.lookup 0x42 ≠ 0 ∧ (∀ x, (Table.const (0 : Count)).lookup x = 0) ∧
    ∀ y, ((Table.const (0 : Count)).update 0x00 9).lookup y ≠ 0 ↔ y = 0x00 := by
  refine ⟨by decide, by decide, by simp, fun y => ?_⟩
  rw [Table.lookup_update]
  split <;> simp_all

/-- The built tree has leaves, an internal node, a root, and a path from it to a leaf. -/
theorem witness_builtTree :
    (buildTree counts).nodes = [.leaf 0x41 1, .leaf 0x42 3, .internal 4 0 1] ∧ (buildTree counts).root = some 2 ∧
    walk [.leaf 0x41 1, .leaf 0x42 3, .internal 4 0 1] 2 [true] = some 1 := by
  decide

/-- NODE_READ: no tree; the last index that has a node and the first that has none; both kinds of node. -/
theorem witness_nodeRead :
    counted.btree = none ∧ treed.btree = some smallTree ∧ smallTree.nodes.length ≤ (3 : NodeIdx).toNat ∧
    smallTree.nodes[(2 : NodeIdx).toNat]? = some (Node.internal 4 0 1) ∧
    smallTree.nodes[(0 : NodeIdx).toNat]? = some (Node.leaf 0x41 1) := by
  decide

/-- GEN_CODES: no tree, the empty tree, a single leaf, an internal root. -/
theorem witness_genCodes :
    InvTree counted ∧ counted.btree = none ∧ (∀ f, InvTree (counted.setTree (buildTree f))) ∧
    (buildTree (Table.const 0)).root = none ∧
    (buildTree ((Table.const 0).update 0x00 9)).nodes = [.leaf 0x00 9] ∧ (buildTree counts).root = some 2 :=
  ⟨fun t h => by simp [counted, State.reset] at h, rfl,
    fun f t h => by obtain rfl := Option.some.inj h; exact buildTree_wf f, by decide, by decide, by decide⟩

/-- CODE_WRITE: the lengths 0, 1 and 255, and the first that is BAD_ARG. -/
theorem witness_codeWrite :
    ∀ a ∈ [0, 1, 255, 256], ∃ p : Pending, (latched 0x22000041 { State.reset with arg0 := a }).pending = some p ∧ p.a0 = a :=
  fun _ _ => ⟨_, rfl, rfl⟩

theorem witness_codeRead :
    CodesSized coded.code ∧ coded.code.lookup 0x42 = some [true, true] ∧ coded.code.lookup 0x43 = none :=
  ⟨codes_sized, by decide, by decide⟩

theorem witness_codeWriteThenRead :
    ∀ a ∈ [(1 : Word), 255], ∃ p t, (latched 0x22000041 { State.reset with arg0 := a }).pending = some p ∧ 1 ≤ p.a0.toNat ∧
      p.a0.toNat < 256 ∧ exec (.codeWrite 0x41) (latched 0x22000041 { State.reset with arg0 := a }) = .next t := by
  intro a ha
  simp only [List.mem_cons, List.not_mem_nil, or_false] at ha
  rcases ha with rfl | rfl
  · exact ⟨_, _, rfl, by decide, by decide, rfl⟩
  · exact ⟨_, _, rfl, by decide, by decide, rfl⟩

/-- ENC_BYTE: no entry; a code of 2 bits with 510 bits in obuf, which fits, and with 511, which does not. -/
theorem witness_encByte :
    coded.code.lookup 0x43 = none ∧ coded.code.lookup 0x42 = some [true, true] ∧
    (List.replicate 510 false).length + [true, true].length ≤ 512 ∧
    512 < (List.replicate 511 false).length + [true, true].length := by
  refine ⟨by decide, by decide, ?_, ?_⟩ <;> rw [List.length_replicate] <;> decide

/-- ENC_BYTE 'B', then ENC_POP, from an empty obuf. -/
theorem witness_encRun : ∃ out u, coded.obuf = [] ∧ EncRun coded [some 0x42, none] out u :=
  ⟨_, _, rfl, .byte _ _ _ _ _ _ rfl rfl rfl (.pop _ _ _ _ _ rfl (.done _))⟩

/-- A table with the prefix property, and T-DEC-10's without it. -/
theorem witness_decLoad :
    PrefixFree coded.code ∧ ¬ PrefixFree (((Table.const none).update 0x41 (some [true])).update 0x42 (some [true])) := by
  refine ⟨codes_free, fun h => ?_⟩
  have := h 0x41 0x42 [true] [true] (by decide) (by decide) (by decide)
  simp [isPrefix] at this

theorem witness_decStart :
    (∃ p, (latched 0x41000000 State.reset).pending = some p) ∧ (latched 0x41000000 State.reset).dcode = none ∧
    (latched 0x41000000 loaded).dcode ≠ none :=
  ⟨⟨_, rfl⟩, rfl, by simp [latched, loaded]⟩

theorem loaded_inv : InvDecoder loaded where
  prefixFree := fun d h => by obtain rfl := Option.some.inj h; exact codes_free
  path := fun d _ => .inl rfl
  unloaded := fun h => by simp [loaded] at h

/-- DEC_BITS: no table; DOUT_LEN 15, which takes one bit, and 16, which does not; a bit that decodes and bits that do
not ("10"). -/
theorem witness_decBits :
    InvDecoder State.reset ∧ InvDecoder loaded ∧ loaded.dcode = some codes ∧
    (1 ≤ (1 : BitVec 4).toNat ∧ (8 : BitVec 4).toNat ≤ 8) ∧
    (List.replicate 15 (0x41 : Sym)).length + (1 : BitVec 4).toNat ≤ 16 ∧
    16 < (List.replicate 16 (0x41 : Sym)).length + (1 : BitVec 4).toNat ∧
    Decodes codes 20 ⟨[], 0, []⟩ ((List.range (1 : BitVec 4).toNat).map fun j => (0x00 : BitVec 8).getLsbD (7 - j))
      ⟨[], 1, [0x41]⟩ ∧
    ∀ r, ¬ Decodes codes 20 ⟨[], 0, []⟩ ((List.range (2 : BitVec 4).toNat).map fun j => (0x80 : BitVec 8).getLsbD (7 - j))
      r := by
  refine ⟨⟨fun d h => by simp [State.reset] at h, fun d h => by simp [State.reset] at h, fun _ => ⟨rfl, rfl, rfl, rfl⟩⟩,
    loaded_inv, rfl, by decide, by decide, by decide, ?_, fun r h => ?_⟩
  · exact (decodeBits_iff_decodes codes_free 20 _ _ _).1 (by decide)
  · have h' := (decodeBits_iff_decodes codes_free 20 _ _ _).2 h
    have : decodeBits codes 20 ⟨[], 0, []⟩
        ((List.range (2 : BitVec 4).toNat).map fun j => (0x80 : BitVec 8).getLsbD (7 - j)) = none := by decide
    rw [this] at h'
    simp at h'

theorem witness_decPop :
    loaded.dout = [] ∧ (loaded.setDout [0x41, 0x42]).dout = [0x41, 0x42] := ⟨rfl, rfl⟩

/-- DEC_END: no table, one byte short, and exactly enough. -/
theorem witness_decEnd :
    State.reset.dcode = none ∧ loaded.dcode ≠ none ∧ (19 : Word).toNat < loaded.dtarget.toNat ∧
    loaded.dtarget.toNat ≤ (20 : Word).toNat := by
  refine ⟨rfl, by simp [loaded], by decide, by decide⟩

/-- DEC_START pending, with a target. -/
def starting (n : Word) : State := latched 0x41000000 { loaded with arg0 := n }

/-- The state DEC_START leaves. -/
def started (n : Word) : State := (starting n).restartDecoder n

/-- DEC_START with target 2, then DEC_BITS of the stream "110" of B A with one bit after it, then a DEC_POP: both
clauses of the count. After the DEC_START alone the target is not reached, and with target 0 it is. -/
theorem witness_decRun :
    PrefixFree codes ∧ CodesSized codes ∧ stream codes [0x42, 0x41] = some [true, true, false] ∧
    (∃ p, (starting 2).pending = some p ∧ [(0x42 : Sym), 0x41].length = p.a0.toNat) ∧ (starting 2).dcode = some codes ∧
    (∀ n, exec .decStart (starting n) = .next (started n)) ∧
    (∃ out u, DecRun (started 2) ([true, true, false] ++ [true]) out u) ∧
    (DecRun (started 2) [] [] (started 2) ∧ (started 2).dout.length < (2 : Word).toNat) ∧
    DecRun (started 0) [] [] (started 0) ∧ (started 0).dout.length = (0 : Word).toNat := by
  refine ⟨codes_free, codes_sized, by decide, ⟨_, rfl, rfl⟩, rfl, fun _ => rfl,
    ⟨_, _, .bits _ _ _ 4 0xD0 [] _ (by decide) rfl rfl rfl (.pop _ _ _ _ _ rfl (.done _))⟩, ⟨.done _, by decide⟩, .done _,
    rfl⟩

theorem witness_codec : (∀ x ∈ [(0x42 : Sym), 0x41], counted.freq.lookup x ≠ 0) ∧ [(0x42 : Sym), 0x41].length = (2 : Word).toNat := by
  decide

/-- No error and an empty obuf; a byte sequence over the alphabet, its ENC_BYTEs and the ENC_POP that empties obuf; the
DEC_BITS and DEC_POPs of the popped bits. -/
theorem witness_roundTrip :
    counted.err = 0 ∧ counted.obuf = [] ∧ (∀ x ∈ [(0x42 : Sym), 0x41], counted.freq.lookup x ≠ 0) ∧
    [(0x42 : Sym), 0x41].length < 2 ^ 32 ∧
    (∃ w, EncRun { State.reset with code := codes } [some 0x42, some 0x41, none] [true, true, false] w ∧ w.obuf = []) ∧
    ∃ z, DecRun { loaded with dtarget := 2 } [true, true, false] [0x42, 0x41] z ∧ z.dout = [] := by
  refine ⟨rfl, rfl, by decide, by decide,
    ⟨_, .byte _ _ _ _ _ _ rfl rfl rfl (.byte _ _ _ _ _ _ rfl rfl rfl (.pop _ _ _ _ [] rfl (.done _))), rfl⟩,
    ⟨_, .bits _ _ _ 3 0xC0 [] _ (by decide) rfl rfl rfl (.pop _ _ _ _ [0x41] rfl (.pop _ _ _ _ [] rfl (.done _))), rfl⟩⟩

/-- A state of the invariants with a next state, for all the statements about what a step keeps. -/
theorem witness_steps :
    Inv busyState ∧ InvTree busyState ∧ InvDecoder busyState ∧ InvBuffers busyState ∧ InvErr busyState ∧
    InvPending busyState ∧ ∃ t, step busyState = .next t :=
  ⟨busyState_inv, busyState_inv.tree, busyState_inv.decoder, busyState_inv.buffers, busyState_inv.err,
    busyState_inv.pending, _, rfl⟩

end Sys2Proof.Tests
end

section
/-! PROOFS. What a command can do to STATUS.ERR (R211), said once over all commands. -/

namespace Sys2Proof.Machine

/-- Every command completes in one of three ways: it raises one of its own errors (ILLEGAL_CMD and CMD_BUSY belong to
acceptance, R210), it leaves err as it was, or it is one of the two returns from an error (R217). -/
theorem exec_err_cases (i : Instr) (s : State) :
    (∃ e, 3 ≤ e.num.toNat ∧ exec i s = raise e s) ∨
    (∃ t, exec i s = .next t ∧ t.err = s.err) ∨
    (i = .clrErr ∨ i = .softReset) ∧ ∃ t, exec i s = .next t ∧ t.err = 0 := by
  cases i with
  | clrErr => exact .inr (.inr ⟨.inl rfl, _, rfl, rfl⟩)
  | softReset => exact .inr (.inr ⟨.inr rfl, _, rfl, rfl⟩)
  | nop | freqClear | freqWrite _ | freqRead _ | buildTree | codeClear | codeRead _ | encPop | encClear | decPop =>
    exact .inr (.inl ⟨_, rfl, rfl⟩)
  | nodeRead x =>
    obtain ⟨-, h⟩ | ⟨n, -, h⟩ := execNodeRead_cases x s
    · exact .inl ⟨.badIndex, by decide, h⟩
    · exact .inr (.inl ⟨_, h, rfl⟩)
  | genCodes =>
    obtain ⟨-, h⟩ | ⟨t, -, h⟩ := execGenCodes_cases s
    · exact .inl ⟨.noTree, by decide, h⟩
    · exact .inr (.inl ⟨_, h, rfl⟩)
  | codeWrite x =>
    obtain ⟨-, h⟩ | ⟨-, h⟩ := execCodeWrite_cases x s
    · exact .inl ⟨.badArg, by decide, h⟩
    · exact .inr (.inl ⟨_, h, rfl⟩)
  | encByte x =>
    obtain ⟨-, h⟩ | ⟨b, -, -, h⟩ | ⟨b, -, -, h⟩ := execEncByte_cases x s
    · exact .inl ⟨.noCode, by decide, h⟩
    · exact .inl ⟨.obufFull, by decide, h⟩
    · exact .inr (.inl ⟨_, h, rfl⟩)
  | decLoad =>
    obtain ⟨-, h⟩ | ⟨-, h⟩ := execDecLoad_cases s
    · exact .inl ⟨.codeConflict, by decide, h⟩
    · exact .inr (.inl ⟨_, h, rfl⟩)
  | decStart =>
    obtain ⟨-, h⟩ | ⟨-, h⟩ := execDecStart_cases s
    · exact .inl ⟨.noDtree, by decide, h⟩
    · exact .inr (.inl ⟨_, h, rfl⟩)
  | decBits n bits =>
    obtain ⟨-, h⟩ | ⟨d, -, ⟨-, h⟩ | ⟨-, -, h⟩ | ⟨-, p, -, h⟩⟩ := execDecBits_cases n bits s
    · exact .inl ⟨.noDtree, by decide, h⟩
    · exact .inl ⟨.doutFull, by decide, h⟩
    · exact .inl ⟨.badPath, by decide, h⟩
    · exact .inr (.inl ⟨_, h, rfl⟩)
  | decEnd =>
    obtain ⟨-, h⟩ | ⟨-, -, h⟩ | ⟨-, -, h⟩ := execDecEnd_cases s
    · exact .inl ⟨.noDtree, by decide, h⟩
    · exact .inl ⟨.truncated, by decide, h⟩
    · exact .inr (.inl ⟨_, h, rfl⟩)

/-- Settles O24: a command that turns err from 0 to a code has raised it, for the other two ways to complete leave err
at 0; and a raise writes err alone. -/
theorem failingCommandsChangeOnlyErr : Obligations.FailingCommandsChangeOnlyErr := by
  intro i s t ht hs hne
  obtain ⟨e, -, h⟩ | ⟨u, h, hu⟩ | ⟨-, u, h, hu⟩ := exec_err_cases i s
  · obtain rfl : s.recordErr e = t := Host.Outcome.next.inj (h.symm.trans ht)
    rfl
  · obtain rfl : u = t := Host.Outcome.next.inj (h.symm.trans ht)
    exact absurd (hu.trans hs) hne
  · obtain rfl : u = t := Host.Outcome.next.inj (h.symm.trans ht)
    exact absurd hu hne

end Sys2Proof.Machine
end

section
/-! PROOFS. What a command does when it completes without an error, said once over all commands, and the parts of the
state each command leaves as they are. -/

namespace Sys2Proof.Machine

/-- The command completes from `s` without raising an error, and leaves the state named: what its check found, and its
one update of the state. -/
inductive Completes (s : State) : Instr → State → Prop where
  | nop : Completes s .nop s
  | clrErr : Completes s .clrErr s.clearErr
  | softReset : Completes s .softReset s.resetBlock
  | freqClear : Completes s .freqClear (s.setFreq (Table.const 0))
  | freqWrite (x : Sym) : Completes s (.freqWrite x) (s.setFreq (s.freq.update x s.opA0))
  | freqRead (x : Sym) : Completes s (.freqRead x) (s.setRes (s.freq.lookup x) 0 0)
  | buildTree : Completes s .buildTree (s.setTree (buildTree s.freq))
  | nodeRead (x : NodeIdx) (n : Node) (found : s.nodeAt x = some n) :
      Completes s (.nodeRead x) (s.setRes n.res0 n.res1 n.res2)
  | genCodes (T : BTree) (tree : s.btree = some T) : Completes s .genCodes (s.setCode (codesOf T))
  | codeClear : Completes s .codeClear (s.setCode (Table.const none))
  | codeWrite (x : Sym) (fits : s.opA0.toNat < 256) :
      Completes s (.codeWrite x) (s.setCode (s.code.update x (codeEntry (fieldLen s.opA0) s.opCb)))
  | codeRead (x : Sym) :
      Completes s (.codeRead x)
        ((s.setRes (codeRes0 (s.code.lookup x)) 0 0).setCbuf (cbufOfCode ((s.code.lookup x).getD [])))
  | encByte (x : Sym) (c : Code) (coded : s.code.lookup x = some c)
      (room : s.obuf.length + c.length ≤ Config.obufCap) : Completes s (.encByte x) (s.setObuf (s.obuf ++ c))
  | encPop : Completes s .encPop ((s.setObuf (s.obuf.drop 8)).setRes (popRes0 (s.obuf.take 8)) 0 0)
  | encClear : Completes s .encClear (s.setObuf [])
  | decLoad (free : PrefixFree s.code) : Completes s .decLoad ((s.setDcode s.code).restartDecoder 0)
  | decStart (loaded : s.dcode ≠ none) : Completes s .decStart (s.restartDecoder s.opA0)
  | decBits (n : BitVec 4) (bits : BitVec 8) (d : Table (Option Code)) (p : Progress) (loaded : s.dcode = some d)
      (room : s.dout.length + n.toNat ≤ Config.doutCap)
      (decoded : decodeBits d s.dtarget ⟨s.dpath, s.dcount, s.dout⟩ (consumedBits n bits) = some p) :
      Completes s (.decBits n bits) (s.setProgress p.path p.count p.out)
  | decPop : Completes s .decPop ((s.setDout (s.dout.drop 1)).setRes (popByteRes0 s.dout) 0 0)
  | decEnd (loaded : s.dcode ≠ none) (reached : s.dtarget.toNat ≤ s.dcount.toNat) : Completes s .decEnd s

/-- Every command either raises an error or completes. -/
theorem exec_raises_or_completes (i : Instr) (s : State) :
    (∃ e, exec i s = raise e s) ∨ ∃ t, exec i s = .next t ∧ Completes s i t := by
  cases i with
  | nop => exact .inr ⟨_, rfl, .nop⟩
  | clrErr => exact .inr ⟨_, rfl, .clrErr⟩
  | softReset => exact .inr ⟨_, rfl, .softReset⟩
  | freqClear => exact .inr ⟨_, rfl, .freqClear⟩
  | freqWrite x => exact .inr ⟨_, rfl, .freqWrite x⟩
  | freqRead x => exact .inr ⟨_, rfl, .freqRead x⟩
  | buildTree => exact .inr ⟨_, rfl, .buildTree⟩
  | nodeRead x =>
    obtain ⟨-, h⟩ | ⟨n, hn, h⟩ := execNodeRead_cases x s
    · exact .inl ⟨_, h⟩
    · exact .inr ⟨_, h, .nodeRead x n hn⟩
  | genCodes =>
    obtain ⟨-, h⟩ | ⟨T, hT, h⟩ := execGenCodes_cases s
    · exact .inl ⟨_, h⟩
    · exact .inr ⟨_, h, .genCodes T hT⟩
  | codeClear => exact .inr ⟨_, rfl, .codeClear⟩
  | codeWrite x =>
    obtain ⟨-, h⟩ | ⟨hlt, h⟩ := execCodeWrite_cases x s
    · exact .inl ⟨_, h⟩
    · exact .inr ⟨_, h, .codeWrite x hlt⟩
  | codeRead x => exact .inr ⟨_, rfl, .codeRead x⟩
  | encByte x =>
    obtain ⟨-, h⟩ | ⟨c, -, -, h⟩ | ⟨c, hc, hroom, h⟩ := execEncByte_cases x s
    · exact .inl ⟨_, h⟩
    · exact .inl ⟨_, h⟩
    · exact .inr ⟨_, h, .encByte x c hc hroom⟩
  | encPop => exact .inr ⟨_, rfl, .encPop⟩
  | encClear => exact .inr ⟨_, rfl, .encClear⟩
  | decLoad =>
    obtain ⟨-, h⟩ | ⟨hfree, h⟩ := execDecLoad_cases s
    · exact .inl ⟨_, h⟩
    · exact .inr ⟨_, h, .decLoad hfree⟩
  | decStart =>
    obtain ⟨-, h⟩ | ⟨hd, h⟩ := execDecStart_cases s
    · exact .inl ⟨_, h⟩
    · exact .inr ⟨_, h, .decStart hd⟩
  | decBits n bits =>
    obtain ⟨-, h⟩ | ⟨d, hd, ⟨-, h⟩ | ⟨-, -, h⟩ | ⟨hroom, p, hp, h⟩⟩ := execDecBits_cases n bits s
    · exact .inl ⟨_, h⟩
    · exact .inl ⟨_, h⟩
    · exact .inl ⟨_, h⟩
    · exact .inr ⟨_, h, .decBits n bits d p hd hroom hp⟩
  | decPop => exact .inr ⟨_, rfl, .decPop⟩
  | decEnd =>
    obtain ⟨-, h⟩ | ⟨-, -, h⟩ | ⟨hd, hle, h⟩ := execDecEnd_cases s
    · exact .inl ⟨_, h⟩
    · exact .inl ⟨_, h⟩
    · exact .inr ⟨_, h, .decEnd hd hle⟩

/-- The next state of a command: an error recorded, or the command completed. -/
theorem exec_cases {i : Instr} {s t : State} (h : exec i s = .next t) :
    (∃ e, t = s.recordErr e) ∨ Completes s i t := by
  obtain ⟨e, he⟩ | ⟨u, hu, hc⟩ := exec_raises_or_completes i s
  · exact .inl ⟨e, Host.Outcome.next.inj (h.symm.trans he)⟩
  · obtain rfl : t = u := Host.Outcome.next.inj (h.symm.trans hu)
    exact .inr hc

/-- Every command has a next state (R211, R225). -/
theorem exec_completes (i : Instr) (s : State) : ∃ t, exec i s = .next t := by
  obtain ⟨e, he⟩ | ⟨t, ht, -⟩ := exec_raises_or_completes i s
  · exact ⟨_, he⟩
  · exact ⟨t, ht⟩

/-- No command touches the model's own fields. -/
theorem exec_sameModel {i : Instr} {s t : State} (h : exec i s = .next t) : SameModel s t := by
  obtain ⟨e, rfl⟩ | hc := exec_cases h
  · exact ⟨rfl, rfl, rfl⟩
  · cases hc <;> exact ⟨rfl, rfl, rfl⟩

/-- Settles O22: a raise writes err alone, and of each update the elements it writes are those its command is named
for. -/
theorem onlyNamedCommandsWriteEachElement : Obligations.OnlyNamedCommandsWriteEachElement := by
  intro i s t h hi
  obtain ⟨e, rfl⟩ | hc := exec_cases h
  · simp [SameModel, SameResults]
  · cases hc with
    | softReset => exact absurd rfl hi
    | _ => simp [SameModel, SameResults]

end Sys2Proof.Machine
end

section
/-! PROOFS. What a step can do to the block, said once, and the invariants of R39 that every step keeps. -/

namespace Sys2Proof.Machine

/-! ### The kinds of step -/

/-- An admitted read leaves the block as it is: only the model's own fields may differ (R52). -/
theorem hostRead_writes (offset : Nat) (s : State) :
    ∃ r d, hostRead offset s = { s with hostReads := r, draws := d } := by
  unfold hostRead
  split
  · exact ⟨_, s.draws + 1, rfl⟩
  · exact ⟨_, s.draws, rfl⟩

/-- An admitted write issues a command at CMD, and elsewhere sets at most the operand registers (R53). -/
theorem hostWrite_cases (offset : Nat) (v : Word) (s : State) :
    (offset = 0 ∧ hostWrite offset v s = accept v s) ∨
    ∃ a c, hostWrite offset v s = { s with arg0 := a, cbuf := c } := by
  unfold hostWrite
  split
  next hcmd => exact .inl ⟨winReg_eq_cmd hcmd, rfl⟩
  all_goals exact .inr ⟨_, _, rfl⟩

/-- Every step is one of four: the pending command ran, hardware reset took effect, a word was written to CMD, or at most
the operand registers and the model's own fields were written. -/
theorem step_kinds {s t : State} (h : step s = .next t) :
    (∃ i, RanCommand i s t) ∨
    (∃ rest, s.agenda = .hardwareReset :: rest ∧ t = (s.setAgenda rest).resetBlock) ∨
    (∃ w rest, s.agenda = .hostWrite 0x00 4 w :: rest ∧ t = accept w (s.setAgenda rest)) ∨
    ∃ rest a c r d, t = { s with agenda := rest, arg0 := a, cbuf := c, hostReads := r, draws := d } := by
  obtain ⟨rest, he⟩ | ⟨rest, ha, rfl⟩ | ⟨offset, rest, -, -, rfl⟩ | ⟨offset, v, rest, ha, -, rfl⟩ := step_cases h
  · obtain ⟨-, rfl⟩ | ⟨p, i, u, hp, hd, hx, rfl⟩ := engineTurn_cases he
    · exact .inr (.inr (.inr ⟨rest, _, _, _, _, rfl⟩))
    · obtain ⟨hrest, -, -⟩ := exec_sameModel hx
      refine .inl ⟨i, p, u, hp, hd, ?_, rfl⟩
      rw [State.setPending_agenda, hrest]
      exact hx
  · exact .inr (.inl ⟨rest, ha, rfl⟩)
  · obtain ⟨r, d, hr⟩ := hostRead_writes offset (s.setAgenda rest)
    exact .inr (.inr (.inr ⟨rest, _, _, r, d, hr⟩))
  · obtain ⟨rfl, hw⟩ | ⟨a, c, hw⟩ := hostWrite_cases offset v (s.setAgenda rest)
    · exact .inr (.inr (.inl ⟨v, rest, ha, hw⟩))
    · exact .inr (.inr (.inr ⟨rest, a, c, _, _, hw⟩))

/-! ### Properties of the tree, the codes, the decoder and the buffers -/

/-- The elements R39.1 to R39.5 speak of are unchanged: the tree, the codes, the decoder and the buffers. -/
def SameStores (s t : State) : Prop :=
  t.btree = s.btree ∧ t.code = s.code ∧ t.obuf = s.obuf ∧ SameDecoder s t

theorem SameStores.refl (s : State) : SameStores s s := ⟨rfl, rfl, rfl, rfl, rfl, rfl, rfl, rfl⟩

theorem sameStores_accept (w : Word) (s : State) : SameStores s (accept w s) := by
  obtain ⟨e, -, h⟩ | h | ⟨i, -, -, -, h⟩ := accept_cases w s <;> rw [h] <;> exact .refl s

/-- What holds of these elements at reset and is kept by every command is kept by every step: no other turn writes
them. -/
theorem step_keeps {P : State → Prop} (hsame : ∀ s t, SameStores s t → P s → P t) (hreset : P State.reset)
    (hexec : ∀ {i s t}, P s → exec i s = .next t → P t) {s t : State} (hs : P s) (h : step s = .next t) : P t := by
  obtain ⟨i, p, u, -, -, hx, rfl⟩ | ⟨rest, -, rfl⟩ | ⟨w, rest, -, rfl⟩ | ⟨rest, a, c, r, d, rfl⟩ := step_kinds h
  · have hstart : P { s with agenda := u.agenda } := hsame s _ (.refl s) hs
    exact hsame u _ (.refl u) (hexec hstart hx)
  · exact hsame State.reset _ (.refl State.reset) hreset
  · exact hsame s _ (sameStores_accept w (s.setAgenda rest)) hs
  · exact hsame s _ (.refl s) hs

/-! ### R39.1: the tree -/

theorem InvTree.congr {s t : State} (h : SameStores s t) (hs : InvTree s) : InvTree t := by
  obtain ⟨hb, -⟩ := h
  unfold InvTree
  rwa [hb]

theorem invTree_none {s : State} (h : s.btree = none) : InvTree s := fun T hT => by simp [h] at hT

theorem invTree_exec {i : Instr} {s t : State} (hs : InvTree s) (h : exec i s = .next t) : InvTree t := by
  obtain ⟨e, rfl⟩ | hc := exec_cases h
  · exact hs
  · cases hc with
    | softReset | freqClear | freqWrite x => exact invTree_none rfl
    | buildTree =>
      intro T hT
      obtain rfl : buildTree s.freq = T := Option.some.inj hT
      exact buildTree_wf s.freq
    | _ => exact hs

/-- Settles O55: a tree is only ever written by BUILD_TREE, whose tree has the shape. -/
theorem stepKeepsTheTreeShape : Obligations.StepKeepsTheTreeShape := fun _ _ =>
  step_keeps (fun _ _ => InvTree.congr) (invTree_none rfl) invTree_exec

/-! ### R39.2: the codes -/

theorem InvCodes.congr {s t : State} (h : SameStores s t) (hs : InvCodes s) : InvCodes t := by
  obtain ⟨-, hc, -, hd, -⟩ := h
  unfold InvCodes
  rwa [hc, hd]

theorem codesSized_const : CodesSized (Table.const none) := fun x c h => by simp at h

theorem codesSized_update {d : Table (Option Code)} (hd : CodesSized d) (x : Sym) {e : Option Code}
    (he : ∀ c, e = some c → 1 ≤ c.length ∧ c.length ≤ Config.maxCodeLen) : CodesSized (d.update x e) := by
  intro y c hc
  rw [Table.lookup_update] at hc
  split at hc
  · exact he c hc
  · exact hd y c hc

/-- CODE_WRITE stores 1 to 255 bits, since LEN is an 8-bit field and LEN = 0 removes the entry (R135). -/
theorem codeEntry_sized {len : BitVec 8} {cb : Vector Word 8} {c : Code} (h : codeEntry len cb = some c) :
    1 ≤ c.length ∧ c.length ≤ Config.maxCodeLen := by
  rw [codeEntry] at h
  split at h
  · simp at h
  next hne =>
    obtain rfl : codeOfCbuf cb len.toNat = c := Option.some.inj h
    have hpos : len.toNat ≠ 0 := fun e => hne (BitVec.eq_of_toNat_eq e)
    have hlt := len.isLt
    rw [length_codeOfCbuf, show Config.maxCodeLen = 255 from rfl]
    omega

theorem invCodes_reset : InvCodes State.reset := ⟨codesSized_const, fun d h => by cases h⟩

/-- The codes of GEN_CODES are those of the tree, so R39.2 needs R39.1. -/
theorem invCodes_exec {i : Instr} {s t : State} (htree : InvTree s) (hs : InvCodes s) (h : exec i s = .next t) :
    InvCodes t := by
  obtain ⟨e, rfl⟩ | hc := exec_cases h
  · exact hs
  · obtain ⟨hcode, hdcode⟩ := hs
    cases hc with
    | softReset => exact invCodes_reset
    | genCodes T hT => exact ⟨(htree T hT).codesOf_sized, hdcode⟩
    | codeClear => exact ⟨codesSized_const, hdcode⟩
    | codeWrite x _ => exact ⟨codesSized_update hcode x fun _ => codeEntry_sized, hdcode⟩
    | decLoad _ =>
      refine ⟨hcode, fun d hd => ?_⟩
      obtain rfl : s.code = d := Option.some.inj hd
      exact hcode
    | _ => exact ⟨hcode, hdcode⟩

theorem invCodes_step {s t : State} (htree : InvTree s) (hs : InvCodes s) (h : step s = .next t) : InvCodes t := by
  have hboth : InvTree t ∧ InvCodes t :=
    step_keeps (P := fun u => InvTree u ∧ InvCodes u) (fun _ _ hst hu => ⟨InvTree.congr hst hu.1, InvCodes.congr hst hu.2⟩)
      ⟨invTree_none rfl, invCodes_reset⟩ (fun hu hx => ⟨invTree_exec hu.1 hx, invCodes_exec hu.1 hu.2 hx⟩) ⟨htree, hs⟩ h
  exact hboth.2

/-! ### R39.3 and R39.4: the decoder -/

theorem InvDecoder.congr {s t : State} (h : SameStores s t) (hs : InvDecoder s) : InvDecoder t := by
  obtain ⟨-, -, -, hd, hpath, hcount, htarget, hout⟩ := h
  obtain ⟨h1, h2, h3⟩ := hs
  constructor
  · rwa [hd]
  · rwa [hd, hpath]
  · rwa [hd, hpath, hcount, htarget, hout]

theorem invDecoder_reset : InvDecoder State.reset where
  prefixFree := fun d h => by cases h
  path := fun d h => by cases h
  unloaded := fun _ => ⟨rfl, rfl, rfl, rfl⟩

/-- A decoder at the root of a loaded table. -/
theorem invDecoder_of_root {s : State} (hfree : ∀ d, s.dcode = some d → PrefixFree d) (hloaded : s.dcode ≠ none)
    (hpath : s.dpath = []) : InvDecoder s :=
  ⟨hfree, fun _ _ => .inl hpath, fun hnone => absurd hnone hloaded⟩

theorem invDecoder_exec {i : Instr} {s t : State} (hs : InvDecoder s) (h : exec i s = .next t) : InvDecoder t := by
  obtain ⟨e, rfl⟩ | hc := exec_cases h
  · exact InvDecoder.congr (.refl s) hs
  · obtain ⟨hfree, hpath, hunloaded⟩ := hs
    cases hc with
    | softReset => exact InvDecoder.congr (.refl State.reset) invDecoder_reset
    | decLoad hcode =>
      refine invDecoder_of_root (fun d hd => ?_) (by simp) rfl
      obtain rfl : s.code = d := Option.some.inj hd
      exact hcode
    | decStart hloaded => exact invDecoder_of_root hfree hloaded rfl
    | decBits n bits d p hd _ hp =>
      refine ⟨hfree, fun d' hd' => ?_, fun hnone => absurd (hd.symm.trans hnone) (by simp)⟩
      obtain rfl : d = d' := Option.some.inj (hd.symm.trans hd')
      obtain ⟨hkeep, -, -⟩ := decodeBits_keeps _ _ _ hp
      exact hkeep (hpath d hd)
    | decPop =>
      refine ⟨hfree, hpath, fun hnone => ?_⟩
      obtain ⟨hp, hcount, htarget, hout⟩ := hunloaded hnone
      exact ⟨hp, hcount, htarget, by simp [hout]⟩
    | _ => exact ⟨hfree, hpath, hunloaded⟩

/-- Settles O56: DEC_LOAD checks the property of R39.3, decoding stays inside the table, and the commands that move an
unloaded decoder fail. -/
theorem stepKeepsTheDecoder : Obligations.StepKeepsTheDecoder := fun _ _ =>
  step_keeps (fun _ _ => InvDecoder.congr) invDecoder_reset invDecoder_exec

/-! ### R39.5: the counters and buffers -/

theorem InvBuffers.congr {s t : State} (h : SameStores s t) (hs : InvBuffers s) : InvBuffers t := by
  obtain ⟨-, -, hobuf, -, -, hcount, htarget, hout⟩ := h
  unfold InvBuffers
  rwa [hobuf, hcount, htarget, hout]

theorem invBuffers_reset : InvBuffers State.reset := ⟨Nat.le_refl 0, Nat.zero_le _, Nat.zero_le _⟩

theorem invBuffers_exec {i : Instr} {s t : State} (hs : InvBuffers s) (h : exec i s = .next t) : InvBuffers t := by
  obtain ⟨e, rfl⟩ | hc := exec_cases h
  · exact hs
  · obtain ⟨hcount, hobuf, hdout⟩ := hs
    cases hc with
    | softReset => exact invBuffers_reset
    | encByte x c _ hroom => exact ⟨hcount, by simpa using hroom, hdout⟩
    | encPop => exact ⟨hcount, by simp; omega, hdout⟩
    | encClear => exact ⟨hcount, by simp, hdout⟩
    | decLoad _ | decStart _ => exact ⟨by simp, hobuf, by simp⟩
    | decBits n bits d p _ hroom hp =>
      obtain ⟨-, hle, hout⟩ := decodeBits_keeps _ _ _ hp
      have hbits := length_consumedBits_le n bits
      exact ⟨hle hcount, hobuf, hout.trans (by dsimp only; omega)⟩
    | decPop => exact ⟨hcount, hobuf, by simp; omega⟩
    | _ => exact ⟨hcount, hobuf, hdout⟩

/-- Settles O57: ENC_BYTE and DEC_BITS check the room first, and decoding stops counting at the target. -/
theorem stepKeepsTheBufferBounds : Obligations.StepKeepsTheBufferBounds := fun _ _ =>
  step_keeps (fun _ _ => InvBuffers.congr) invBuffers_reset invBuffers_exec

/-! ### R39.6 and R210: err and the pending word -/

theorem ErrCode.num_le : ∀ e : ErrCode, e.num.toNat ≤ 12 := by
  intro e
  cases e <;> decide

theorem invErr_recordErr {s : State} (hs : InvErr s) (e : ErrCode) : InvErr (s.recordErr e) := by
  rw [InvErr, State.recordErr_err]
  split
  · exact e.num_le
  · exact hs

theorem invErr_exec {i : Instr} {s t : State} (hs : InvErr s) (h : exec i s = .next t) : InvErr t := by
  obtain ⟨e, rfl⟩ | hc := exec_cases h
  · exact invErr_recordErr hs e
  · cases hc with
    | clrErr | softReset => exact Nat.zero_le 12
    | _ => exact hs

theorem invErr_accept {s : State} (hs : InvErr s) (w : Word) : InvErr (accept w s) := by
  obtain ⟨e, -, h⟩ | h | ⟨i, -, -, -, h⟩ := accept_cases w s <;> rw [h]
  · exact invErr_recordErr hs e
  · exact hs
  · exact hs

theorem invPending_none {s : State} (h : s.pending = none) : InvPending s := fun p hp => by simp [h] at hp

theorem invPending_accept {s : State} (hs : InvPending s) (w : Word) : InvPending (accept w s) := by
  obtain ⟨e, -, h⟩ | h | ⟨i, hd, -, -, h⟩ := accept_cases w s <;> rw [h]
  · exact hs
  · exact hs
  · intro p hp
    obtain rfl : ⟨w, s.arg0, s.cbuf⟩ = p := Option.some.inj hp
    exact (legal_iff w).2 ⟨i, hd⟩

/-- Settles O58: only the codes of R212 are recorded, acceptance lets only legal words become pending, and a command or a
reset leaves none. -/
theorem stepKeepsErrAndPendingLegal : Obligations.StepKeepsErrAndPendingLegal := by
  intro s t herr hpending h
  obtain ⟨i, p, u, -, -, hx, rfl⟩ | ⟨rest, -, rfl⟩ | ⟨w, rest, -, rfl⟩ | ⟨rest, a, c, r, d, rfl⟩ := step_kinds h
  · have hu : InvErr u := invErr_exec (s := { s with agenda := u.agenda }) herr hx
    exact ⟨hu, invPending_none rfl⟩
  · exact ⟨Nat.zero_le 12, invPending_none rfl⟩
  · exact ⟨invErr_accept (s := s.setAgenda rest) herr w, invPending_accept (s := s.setAgenda rest) hpending w⟩
  · exact ⟨herr, hpending⟩

/-! ### All of R39 -/

/-- Settles O53. -/
theorem resetMeetsTheInvariants : Obligations.ResetMeetsTheInvariants where
  tree := invTree_none rfl
  codes := invCodes_reset
  decoder := invDecoder_reset
  buffers := invBuffers_reset
  err := Nat.zero_le 12
  pending := invPending_none rfl

/-- Settles O54: each invariant is kept on its own, but for the code lengths, which rest on the shape of the tree
GEN_CODES reads. -/
theorem stepKeepsTheInvariants : Obligations.StepKeepsTheInvariants := by
  intro s t ⟨htree, hcodes, hdecoder, hbuffers, herr, hpending⟩ h
  obtain ⟨herr', hpending'⟩ := stepKeepsErrAndPendingLegal s t herr hpending h
  exact ⟨stepKeepsTheTreeShape s t htree h, invCodes_step htree hcodes h, stepKeepsTheDecoder s t hdecoder h,
    stepKeepsTheBufferBounds s t hbuffers h, herr', hpending'⟩

end Sys2Proof.Machine
end

section
/-! PROOFS. The reset value, the views of the state (R24, R29, R36), and who writes err. -/

namespace Sys2Proof.Machine

/-! ### Reset -/

/-- Hardware reset and SOFT_RESET give every element its value of R40. -/
theorem resetBlock_atReset (s : State) : AtReset s.resetBlock where
  arg0 := rfl
  cbuf := fun j => Vector.getElem_replicate j.isLt
  results := ⟨rfl, rfl, rfl⟩
  err := rfl
  pending := rfl
  freq := Table.lookup_const 0
  btree := rfl
  code := Table.lookup_const none
  obuf := rfl
  dcode := rfl
  dpath := rfl
  counts := ⟨rfl, rfl⟩
  dout := rfl

theorem reset_status : State.reset.status = 0 := by decide

/-- Settles O17: all three are `resetBlock`, and STATUS is a view of what it resets. -/
theorem resetStateHoldsTheTable : Obligations.ResetStateHoldsTheTable :=
  ⟨resetBlock_atReset State.reset, reset_status, resetBlock_atReset,
    fun s => ⟨s.resetBlock, rfl, resetBlock_atReset s, reset_status⟩⟩

/-! ### STATUS -/

/-- A field of a register, by its number. -/
theorem extract_eq_of_toNat {w lo len : Nat} {x : BitVec w} {y : BitVec len}
    (h : x.toNat / 2 ^ lo % 2 ^ len = y.toNat) : x.extractLsb' lo len = y :=
  BitVec.eq_of_toNat_eq ((toNat_extract x lo len).trans h)

theorem extract_eq_zero {w lo len : Nat} {x : BitVec w} (h : x.toNat / 2 ^ lo % 2 ^ len = 0) :
    x.extractLsb' lo len = 0 :=
  extract_eq_of_toNat (h.trans (BitVec.toNat_zero (w := len)).symm)

/-- Settles O6. -/
theorem statusFields : Obligations.StatusFields := by
  refine ⟨fun s => ?_, reset_status, fun s v => rfl⟩
  have hnum := toNat_status s
  have hddone := Bool.toNat_lt s.ddone
  have hdv := Bool.toNat_lt s.dv
  have htv := Bool.toNat_lt s.tv
  have hbusy := Bool.toNat_lt s.busy
  have herr := s.err.isLt
  refine ⟨getLsbD_of_toNat _ _ s.busy ?_, getLsbD_of_toNat _ _ s.tv ?_, getLsbD_of_toNat _ _ s.dv ?_,
    getLsbD_of_toNat _ _ s.ddone ?_, extract_eq_of_toNat ?_, extract_eq_zero ?_⟩
  · omega
  · omega
  · omega
  · omega
  · omega
  · omega

/-! ### TREEINFO -/

/-- Settles O7: the arena holds at most 511 nodes (R39.1), so NCOUNT fits its field. -/
theorem treeinfoFields : Obligations.TreeinfoFields := by
  refine ⟨fun s hs => ⟨fun hnone => ?_, fun T hT => ?_⟩, by decide, fun s v => rfl⟩
  · apply BitVec.eq_of_toNat_eq
    simp [toNat_treeinfo, State.rootIndex, State.ncount, hnone]
  · have hnum := toNat_treeinfo s
    have hlen : T.nodes.length ≤ 511 := (hs.tree T hT).capacity
    simp only [State.rootIndex, State.ncount, hT, Option.bind_some] at hnum
    have hroot := (T.root.getD 0).isLt
    have hsome := Bool.toNat_lt T.root.isSome
    have hfield : s.treeinfo.extractLsb' 16 9 = T.root.getD 0 := extract_eq_of_toNat (by omega)
    refine ⟨?_, extract_eq_zero ?_, extract_eq_zero ?_, getLsbD_of_toNat _ _ _ ?_, fun r => ?_⟩
    · rw [toNat_extract]; omega
    · omega
    · omega
    · omega
    · rw [hfield]
      cases T.root with
      | none => simpa using eq_comm
      | some q => simp

/-! ### BUFINFO -/

/-- The path is empty or strictly shorter than a code it begins (R39.4), so it has at most 254 bits. -/
theorem Inv.dpath_length_le {s : State} (hs : Inv s) : s.dpath.length ≤ 254 := by
  cases hd : s.dcode with
  | none =>
    obtain ⟨hpath, -⟩ := hs.decoder.unloaded hd
    simp [hpath]
  | some d =>
    obtain hpath | ⟨x, c, hx, hpre⟩ := hs.decoder.path d hd
    · simp [hpath]
    · obtain ⟨-, hlt⟩ := (isProperPrefix_iff _ _).1 hpre
      obtain ⟨-, hsized⟩ := hs.codes
      have hc : c.length ≤ 255 := (hsized d hd x c hx).2
      omega

/-- Settles O8: the buffers keep within their capacities (R39.5) and the path within the table, so each length fits its
field. -/
theorem bufinfoFields : Obligations.BufinfoFields := by
  refine ⟨fun s hs => ?_, by decide, fun s v => rfl⟩
  have hnum := toNat_bufinfo s
  have hpath := hs.dpath_length_le
  obtain ⟨-, hobuf, hdout⟩ := hs.buffers
  have hobuf : s.obuf.length ≤ 512 := hobuf
  have hdout : s.dout.length ≤ 16 := hdout
  refine ⟨?_, extract_eq_zero ?_, ?_, extract_eq_zero ?_, ?_, hpath⟩
  · rw [toNat_extract]; omega
  · omega
  · rw [toNat_extract]; omega
  · omega
  · rw [toNat_extract]; omega

/-! ### err -/

/-- A raise that changed err found it 0 and left the code there (R25). -/
theorem recordErr_changes {e : ErrCode} {s : State} (h : (s.recordErr e).err ≠ s.err) :
    s.err = 0 ∧ (s.recordErr e).err = e.num := by
  rw [State.recordErr_err] at *
  split at h
  next h0 => exact ⟨h0, if_pos h0⟩
  next => exact absurd rfl h

/-- A command that changed err raised one of its own errors with err at 0, or cleared it. -/
theorem exec_changes_err {i : Instr} {s t : State} (h : exec i s = .next t) (hne : t.err ≠ s.err) :
    (s.err = 0 ∧ 3 ≤ t.err.toNat ∧ t.err.toNat ≤ 12) ∨ (t.err = 0 ∧ (i = .clrErr ∨ i = .softReset)) := by
  obtain ⟨e, hown, hx⟩ | ⟨u, hx, hu⟩ | ⟨hi, u, hx, hu⟩ := exec_err_cases i s
  · obtain rfl : t = s.recordErr e := Host.Outcome.next.inj (h.symm.trans hx)
    obtain ⟨h0, hnum⟩ := recordErr_changes hne
    rw [hnum]
    exact .inl ⟨h0, hown, e.num_le⟩
  · obtain rfl : t = u := Host.Outcome.next.inj (h.symm.trans hx)
    exact absurd hu hne
  · obtain rfl : t = u := Host.Outcome.next.inj (h.symm.trans hx)
    exact .inr ⟨hu, hi⟩

/-- A CMD write that changed err recorded ILLEGAL_CMD or CMD_BUSY with err at 0. -/
theorem accept_changes_err {w : Word} {s : State} (hne : (accept w s).err ≠ s.err) :
    s.err = 0 ∧ ((accept w s).err = 1 ∨ (accept w s).err = 2) := by
  obtain ⟨e, he, h⟩ | h | ⟨i, -, -, -, h⟩ := accept_cases w s <;> rw [h] at hne ⊢
  · obtain ⟨h0, hnum⟩ := recordErr_changes hne
    rw [hnum]
    obtain rfl | rfl := he
    · exact ⟨h0, .inr rfl⟩
    · exact ⟨h0, .inl rfl⟩
  · exact absurd rfl hne
  · exact absurd rfl hne

theorem accept_agenda (w : Word) (s : State) : (accept w s).agenda = s.agenda := by
  obtain ⟨e, -, h⟩ | h | ⟨i, -, -, -, h⟩ := accept_cases w s <;> rw [h] <;> rfl

/-- Settles O21: of the four kinds of step, a command and a CMD write record an error only over 0, and only the two
clearing commands and hardware reset write 0. -/
theorem firstErrorIsKept : Obligations.FirstErrorIsKept := by
  refine ⟨fun s t h hne => ?_, rfl⟩
  obtain ⟨i, hran⟩ | ⟨rest, ha, rfl⟩ | ⟨w, rest, ha, rfl⟩ | ⟨rest, a, c, r, d, rfl⟩ := step_kinds h
  · have ⟨p, u, hp, hd, hx, ht⟩ := hran
    have hpending : t.pending = none := by rw [ht]
    have herr : t.err = u.err := by rw [ht]
    obtain ⟨h0, hlo, hhi⟩ | ⟨h0, hi⟩ := exec_changes_err hx (herr ▸ hne)
    · exact .inl ⟨h0, .inr ⟨herr ▸ hlo, herr ▸ hhi, hpending, i, hran⟩⟩
    · refine .inr ⟨herr.trans h0, hpending, .inr ?_⟩
      obtain rfl | rfl := hi
      · exact .inl hran
      · exact .inr hran
  · exact .inr ⟨rfl, rfl, .inl ⟨rest, ha, rfl⟩⟩
  · obtain ⟨h0, herr⟩ := accept_changes_err (s := s.setAgenda rest) hne
    exact .inl ⟨h0, .inl ⟨herr, w, rest, ha, accept_agenda w _⟩⟩
  · exact absurd rfl hne

end Sys2Proof.Machine
end

section
/-! PROOFS. The step of the pending command, and the latching of its operands (R26). -/

namespace Sys2Proof.Machine

/-- With the next turn the engine's, a step is the engine's turn. -/
theorem step_of_engineNext {s : State} (h : engineNext s) : step s = engineTurn (s.setAgenda s.agenda.tail) := by
  unfold step takeTurn
  obtain ha | ⟨rest, ha⟩ := h <;> rw [ha]
  · show engineTurn s = engineTurn (s.setAgenda [])
    rw [← ha]
    rfl
  · rfl

/-- Settles O14: in the engine's turn the command runs, and every command completes. -/
theorem stepRunsThePendingCommand : Obligations.StepRunsThePendingCommand := by
  intro s p i hturn hp hd
  obtain ⟨t, ht⟩ := exec_completes i (s.setAgenda s.agenda.tail)
  refine ⟨t, ht, ?_⟩
  rw [step_of_engineNext hturn]
  exact engineTurn_runs hp hd ht

/-! ### Operands written while a command is pending -/

/-- The state with ARG0 and CBUF0..CBUF7 written by the host. -/
def State.withOperands (v : Word) (c : Vector Word 8) (s : State) : State := { s with arg0 := v, cbuf := c }

/-- An outcome with its next state changed. -/
def mapNext (f : State → State) : Result → Result
  | .next t => .next (f t)
  | .fault r => .fault r
  | .refused r => .refused r

theorem mapNext_ite (f : State → State) (q : Prop) [Decidable q] (x y : Result) :
    mapNext f (if q then x else y) = if q then mapNext f x else mapNext f y := apply_ite (mapNext f) q x y

section
variable {s : State} {p : Pending} (v : Word) (c : Vector Word 8)

@[simp] theorem State.withOperands_btree : (s.withOperands v c).btree = s.btree := rfl
@[simp] theorem State.withOperands_code : (s.withOperands v c).code = s.code := rfl
@[simp] theorem State.withOperands_obuf : (s.withOperands v c).obuf = s.obuf := rfl
@[simp] theorem State.withOperands_dcode : (s.withOperands v c).dcode = s.dcode := rfl
@[simp] theorem State.withOperands_dpath : (s.withOperands v c).dpath = s.dpath := rfl
@[simp] theorem State.withOperands_dcount : (s.withOperands v c).dcount = s.dcount := rfl
@[simp] theorem State.withOperands_dtarget : (s.withOperands v c).dtarget = s.dtarget := rfl
@[simp] theorem State.withOperands_dout : (s.withOperands v c).dout = s.dout := rfl
@[simp] theorem State.withOperands_nodeAt (x : NodeIdx) : (s.withOperands v c).nodeAt x = s.nodeAt x := rfl

theorem State.withOperands_opA0 (hp : s.pending = some p) : (s.withOperands v c).opA0 = s.opA0 :=
  (State.opA0_of_pending (s := s.withOperands v c) hp).trans (State.opA0_of_pending hp).symm

theorem State.withOperands_opCb (hp : s.pending = some p) : (s.withOperands v c).opCb = s.opCb :=
  (State.opCb_of_pending (s := s.withOperands v c) hp).trans (State.opCb_of_pending hp).symm

/-- But for the two commands that write these registers, a pending command does the same whatever they hold, and leaves
them: its operands are the latched ones. -/
theorem exec_withOperands (hp : s.pending = some p) {i : Instr} (hsoft : i ≠ .softReset) (hread : ∀ x, i ≠ .codeRead x) :
    exec i (s.withOperands v c) = mapNext (State.withOperands v c) (exec i s) := by
  have hA0 := State.withOperands_opA0 v c hp
  have hCb := State.withOperands_opCb v c hp
  cases i with
  | softReset => exact absurd rfl hsoft
  | codeRead x => exact absurd rfl (hread x)
  | nop | clrErr | freqClear | freqRead _ | buildTree | codeClear | encPop | encClear | decPop => rfl
  | freqWrite x =>
    simp only [exec, execFreqWrite, hA0]
    rfl
  | nodeRead x =>
    dsimp only [exec, execNodeRead, State.withOperands_nodeAt]
    cases s.nodeAt x <;> rfl
  | genCodes =>
    dsimp only [exec, execGenCodes, State.withOperands_btree]
    cases s.btree <;> rfl
  | codeWrite x =>
    simp only [exec, execCodeWrite, hA0, hCb]
    split <;> rfl
  | encByte x =>
    dsimp only [exec, execEncByte, State.withOperands_code, State.withOperands_obuf]
    cases s.code.lookup x with
    | none => rfl
    | some b => dsimp only; rw [mapNext_ite]; rfl
  | decLoad =>
    dsimp only [exec, execDecLoad, State.withOperands_code]
    rw [mapNext_ite]
    rfl
  | decStart =>
    simp only [exec, execDecStart, hA0, State.withOperands_dcode]
    cases s.dcode <;> rfl
  | decBits n bits =>
    dsimp only [exec, execDecBits, State.withOperands_dcode, State.withOperands_dout, State.withOperands_dtarget,
      State.withOperands_dpath, State.withOperands_dcount]
    cases s.dcode with
    | none => rfl
    | some d =>
      dsimp only
      rw [mapNext_ite]
      cases decodeBits d s.dtarget ⟨s.dpath, s.dcount, s.dout⟩ (consumedBits n bits) <;> rfl
  | decEnd =>
    dsimp only [exec, execDecEnd, State.withOperands_dcode, State.withOperands_dcount, State.withOperands_dtarget]
    cases s.dcode with
    | none => rfl
    | some d => dsimp only; rw [mapNext_ite]; rfl

/-- The three ways a pending command treats registers written meanwhile: SOFT_RESET overwrites both, CODE_READ overwrites
CBUF, and every other command leaves both. -/
theorem exec_withOperands_cases {i : Instr} {t : State} (hp : s.pending = some p) (h : exec i s = .next t) :
    (i = .softReset ∧ exec i (s.withOperands v c) = .next (t.withOperands t.arg0 t.cbuf)) ∨
    (i ≠ .softReset ∧ (∃ x, i = .codeRead x) ∧ exec i (s.withOperands v c) = .next (t.withOperands v t.cbuf)) ∨
    (i ≠ .softReset ∧ (¬ ∃ x, i = .codeRead x) ∧ exec i (s.withOperands v c) = .next (t.withOperands v c)) := by
  by_cases hsoft : i = .softReset
  · subst hsoft
    obtain rfl : s.resetBlock = t := Host.Outcome.next.inj h
    exact .inl ⟨rfl, rfl⟩
  by_cases hread : ∃ x, i = .codeRead x
  · obtain ⟨x, rfl⟩ := hread
    obtain rfl := Host.Outcome.next.inj h
    exact .inr (.inl ⟨hsoft, ⟨x, rfl⟩, rfl⟩)
  · refine .inr (.inr ⟨hsoft, hread, ?_⟩)
    rw [exec_withOperands v c hp hsoft (not_exists.1 hread), h, mapNext]

end

/-- Settles O23: whatever the host wrote, the next states differ in ARG0 and CBUF alone. -/
theorem operandsAreLatched : Obligations.OperandsAreLatched := by
  intro i s t p v c hp h
  obtain ⟨a, b, hx, ha, hb⟩ : ∃ a b, exec i (s.withOperands v c) = .next (t.withOperands a b) ∧
      ((i ≠ .softReset → a = v) ∧ (i = .softReset → a = t.arg0)) ∧
      ((i ≠ .softReset → (∀ x, i ≠ .codeRead x) → b = c) ∧ (i = .softReset ∨ (∃ x, i = .codeRead x) → b = t.cbuf)) := by
    obtain ⟨hi, hx⟩ | ⟨hi, hr, hx⟩ | ⟨hi, hr, hx⟩ := exec_withOperands_cases v c hp h
    · exact ⟨_, _, hx, by simp [hi], by simp [hi]⟩
    · exact ⟨_, _, hx, by simp [hi], fun _ hne => absurd hr (not_exists.2 hne), fun _ => rfl⟩
    · exact ⟨_, _, hx, by simp [hi], fun _ _ => rfl, fun hor => absurd hor (not_or.2 ⟨hi, hr⟩)⟩
  obtain ⟨hkept, hreset⟩ := ha
  obtain ⟨hcbuf, hcbuf'⟩ := hb
  exact ⟨_, hx, ⟨rfl, rfl, rfl⟩, ⟨rfl, rfl⟩, ⟨rfl, rfl⟩, rfl, rfl, ⟨rfl, rfl, rfl, rfl, rfl⟩, ⟨rfl, rfl, rfl⟩, hkept, hreset,
    hcbuf, hcbuf'⟩

end Sys2Proof.Machine
end

section
/-! PROOFS. The register window (`20_memory.md`): which requests take their turn (R50), what a read answers while the
block is idle and while it is busy (R52, R54), and what a write does at each offset (R53). -/

namespace Sys2Proof.Machine

/-! ### The register map at an aligned offset -/

/-- An aligned offset of the window is that of one of its 64 words. -/
theorem exists_word_of_aligned {off : Nat} (h4 : off % 4 = 0) (hle : off ≤ 0xFC) : ∃ k : Fin 64, off = 4 * k.val :=
  ⟨⟨off / 4, by omega⟩, (Nat.mul_div_cancel' (Nat.dvd_of_mod_eq_zero h4)).symm⟩

theorem winReg_eq_reserved {off : Nat} (h4 : off % 4 = 0) (hle : off ≤ 0xFC)
    (h : (0x28 ≤ off ∧ off ≤ 0x3C) ∨ 0x60 ≤ off) : winReg off = .reserved := by
  obtain ⟨k, rfl⟩ := exists_word_of_aligned h4 hle
  exact winReg_reserved k h

/-- The offsets at which a read made while BUSY = 1 is free: those of every readable register but STATUS and ARG0
(R54). -/
theorem winReg_freeWhenBusy : ∀ k : Fin 64,
    (0x0C ≤ 4 * k.val ∧ 4 * k.val ≤ 0x24) ∨ (0x40 ≤ 4 * k.val ∧ 4 * k.val ≤ 0x5C) →
    winReg (4 * k.val) ∉ [.cmd, .status, .arg0, .reserved] := by decide

/-! ### Requests -/

/-- A request that is not admitted does not take its turn, be it a read or a write (R50). -/
theorem step_of_not_admitted {s : State} {off size : Nat} {v : Word} {rest : List Turn}
    (ha : s.agenda = .hostRead off size :: rest ∨ s.agenda = .hostWrite off size v :: rest)
    (hn : ¬ (off % 4 = 0 ∧ off ≤ 0xFC ∧ size = 4)) : step s = hostStuckTurn off size s := by
  have hadm : ¬ admitted off size = true := by
    rw [admitted_iff]
    exact fun ⟨hsize, h4, hle⟩ => hn ⟨h4, hle, hsize⟩
  unfold step takeTurn
  obtain ha | ha := ha <;> rw [ha] <;> exact if_neg hadm

section
variable {s : State} {off : Nat} {v : Word} {rest : List Turn}

/-- An admitted read takes its turn (R52). -/
theorem step_hostRead (ha : s.agenda = .hostRead off 4 :: rest) (h4 : off % 4 = 0) (hle : off ≤ 0xFC) :
    step s = .next (hostRead off (s.setAgenda rest)) := by
  unfold step takeTurn
  rw [ha]
  exact if_pos ((admitted_iff off 4).2 ⟨rfl, h4, hle⟩)

/-- An admitted write takes its turn (R53). -/
theorem step_hostWrite (ha : s.agenda = .hostWrite off 4 v :: rest) (h4 : off % 4 = 0) (hle : off ≤ 0xFC) :
    step s = .next (hostWrite off v (s.setAgenda rest)) := by
  unfold step takeTurn
  rw [ha]
  exact if_pos ((admitted_iff off 4).2 ⟨rfl, h4, hle⟩)

end

theorem hostRead_agenda (off : Nat) (s : State) : (hostRead off s).agenda = s.agenda := by
  obtain ⟨r, d, h⟩ := hostRead_writes off s
  rw [h]

theorem hostWrite_agenda (off : Nat) (v : Word) (s : State) : (hostWrite off v s).agenda = s.agenda := by
  obtain ⟨-, h⟩ | ⟨a, c, h⟩ := hostWrite_cases off v s <;> rw [h]
  exact accept_agenda v s

/-- Settles O12: an admitted request leaves the agenda; for any other the engine's turn stands in, in which every
command completes and none touches the agenda. -/
theorem onlyAlignedWordRequestsAreAdmitted : Obligations.OnlyAlignedWordRequestsAreAdmitted := by
  intro s off size v rest ha
  refine ⟨fun ⟨h4, hle, hsize⟩ => ?_, fun hn hidle => ?_, fun hn p i hp hd => ?_⟩
  · subst hsize
    obtain ha | ha := ha
    · exact ⟨_, step_hostRead ha h4 hle, hostRead_agenda _ _⟩
    · exact ⟨_, step_hostWrite ha h4 hle, hostWrite_agenda _ _ _⟩
  · rw [step_of_not_admitted ha hn, hostStuckTurn, State.busy, hidle]
    rfl
  · obtain ⟨u, hu⟩ := exec_completes i s
    obtain ⟨hagenda, -, -⟩ := exec_sameModel hu
    refine ⟨u, hu, hagenda, ?_⟩
    rw [step_of_not_admitted ha hn, hostStuckTurn, State.busy, hp]
    exact engineTurn_runs hp hd hu

/-! ### Reads -/

/-- The model's own fields are no part of the block. -/
theorem sameBlock_withModel (s : State) (a : List Turn) (r : List ReadRecord) (d : Nat) :
    SameBlock s { s with agenda := a, hostReads := r, draws := d } :=
  ⟨⟨rfl, rfl⟩, ⟨rfl, rfl, rfl⟩, ⟨rfl, rfl⟩, ⟨rfl, rfl⟩, rfl, rfl, ⟨rfl, rfl, rfl, rfl, rfl⟩⟩

theorem hostRead_idle {s : State} (h : s.pending = none) (off : Nat) :
    hostRead off s = s.logRead off (readIdle s (winReg off)) := by
  simp [hostRead, State.readValue, State.busy, h]

theorem hostRead_busy {s : State} {p : Pending} (h : s.pending = some p) (off : Nat) :
    hostRead off s = (s.logRead off (readBusy s (Config.freeWord s.draws) (winReg off))).bumpDraws := by
  simp [hostRead, State.readValue, State.busy, h]

/-- Settles O9: the read is logged, and its value is that of the register which the map has at the offset. -/
theorem idleReadsReturnTheRegister : Obligations.IdleReadsReturnTheRegister := by
  intro s off rest ha h4 hle hidle
  have hstep := step_hostRead ha h4 hle
  rw [hostRead_idle (s := s.setAgenda rest) hidle] at hstep
  have hat {o : Nat} (h : off = o) : readIdle s (winReg off) = readIdle s (winReg o) := by rw [h]
  have hreserved (h : (0x28 ≤ off ∧ off ≤ 0x3C) ∨ 0x60 ≤ off) : readIdle s (winReg off) = 0 := by
    rw [winReg_eq_reserved h4 hle h]
    rfl
  have hcbuf (j : Fin 8) (h : off = 0x40 + 4 * j.val) : readIdle s (winReg off) = s.cbuf[j] := by
    rw [hat h, winReg_cbuf]
    rfl
  exact ⟨_, readIdle s (winReg off), hstep, sameBlock_withModel s rest _ _, rfl, rfl, rfl, hat, hat, hat, hat, hat, hat,
    hat, hat, hat, hat, fun h => hreserved (.inl h), hcbuf, fun h => hreserved (.inr h)⟩

/-- The fields of STATUS, with the views [3:1] free (R24, R54). -/
theorem packStatus_fields (err : BitVec 4) (views : BitVec 3) (busy : Bool) :
    (packStatus err views busy).getLsbD 0 = busy ∧ (packStatus err views busy).extractLsb' 4 4 = err ∧
    (packStatus err views busy).extractLsb' 8 24 = 0 ∧ (packStatus err views busy).extractLsb' 1 3 = views := by
  have hnum := toNat_packStatus err views busy
  have herr := err.isLt
  have hviews := views.isLt
  have hbusy := Bool.toNat_lt busy
  refine ⟨getLsbD_of_toNat _ _ busy ?_, extract_eq_of_toNat ?_, extract_eq_zero ?_, extract_eq_of_toNat ?_⟩
  · omega
  · omega
  · omega
  · omega

/-- While BUSY = 1 every register reads as the free word but CMD, STATUS, ARG0 and what is reserved (R54). -/
theorem readBusy_eq_free (s : State) (free : Word) {r : WinReg} (h : r ∉ [.cmd, .status, .arg0, .reserved]) :
    readBusy s free r = free := by
  cases r with
  | cmd | status | arg0 | reserved => simp at h
  | res0 | res1 | res2 | treeinfo | bufinfo | dcount | dtarget | cbuf _ => rfl

/-- Settles O10: the read is logged and a free value drawn; the map tells which registers it answers for. -/
theorem busyReadsAreFree : Obligations.BusyReadsAreFree := by
  intro s p off rest ha h4 hle hp
  have hstep := step_hostRead ha h4 hle
  rw [hostRead_busy (s := s.setAgenda rest) hp] at hstep
  refine ⟨_, readBusy s (Config.freeWord s.draws) (winReg off), hstep, sameBlock_withModel s rest _ _, rfl, rfl, rfl,
    fun h => ?_, fun h => ?_, fun h => ?_, fun h => ?_⟩
  · obtain rfl | h := h
    · rfl
    · rw [winReg_eq_reserved h4 hle h]
      rfl
  · subst h
    exact packStatus_fields s.err _ true
  · subst h
    rfl
  · obtain ⟨k, rfl⟩ := exists_word_of_aligned h4 hle
    exact readBusy_eq_free s _ (winReg_freeWhenBusy k h)

/-! ### Writes -/

theorem hostWrite_cbuf (j : Fin 8) (v : Word) (s : State) :
    hostWrite (0x40 + 4 * j.val) v s = s.setCbuf (s.cbuf.set j v) := by
  rw [hostWrite, winReg_cbuf]

/-- A write at a read-only or reserved offset is ignored (R53). -/
theorem hostWrite_ignored {off : Nat} (h4 : off % 4 = 0) (hle : off ≤ 0xFC)
    (h : off = 0x04 ∨ (0x0C ≤ off ∧ off ≤ 0x3C) ∨ 0x60 ≤ off) (v : Word) (s : State) : hostWrite off v s = s := by
  obtain ⟨k, rfl⟩ := exists_word_of_aligned h4 hle
  have hmem := winReg_readOnly k h
  rw [hostWrite]
  cases hr : winReg (4 * k.val) with
  | cmd | arg0 | cbuf _ => simp [hr] at hmem
  | status | res0 | res1 | res2 | treeinfo | bufinfo | dcount | dtarget | reserved => rfl

/-- Settles O11: the write takes its turn, and the map tells what lies at the offset. -/
theorem hostWritesSetOperandsOnly : Obligations.HostWritesSetOperandsOnly := by
  intro s off v rest ha h4 hle
  have hstep := step_hostWrite ha h4 hle
  refine ⟨fun h => ?_, fun h => ?_, fun j h => ?_, fun h => ?_⟩
  · subst h
    exact hstep
  · subst h
    exact hstep
  · subst h
    rw [hostWrite_cbuf] at hstep
    refine ⟨_, hstep, Vector.getElem_set_self j.isLt, fun k hk => ?_, rfl⟩
    exact Vector.getElem_set_ne j.isLt k.isLt (Fin.val_ne_of_ne hk.symm)
  · rw [hostWrite_ignored h4 hle h] at hstep
    exact hstep

end Sys2Proof.Machine
end

section
/-! PROOFS. The command word (`30_encoding.md`): decoder and encoder are inverse to each other (R70 to R76), which words are
legal (R75), and the bits of BITS that DEC_BITS does not consume (R74). -/

namespace Sys2Proof.Machine

/-! ### Decoder and encoder -/

/-- Settles O1: the row of its opcode reads a word in the format it was written in, and the format gives the fields back. -/
theorem decodeOfEncode : Obligations.DecodeOfEncode := by
  intro i hwf
  cases i with
  | nop | clrErr | softReset | freqClear | buildTree | genCodes | codeClear | encPop | encClear | decLoad | decStart | decPop
  | decEnd => exact (decode_encodeF0 _).trans (decodeF0_encodeF0 _ _)
  | freqWrite x | freqRead x | codeWrite x | codeRead x | encByte x =>
    exact (decode_encodeFS _ x).trans (decodeFS_encodeFS _ _ x)
  | nodeRead x => exact (decode_encodeFI _ x).trans (decodeFI_encodeFI _ _ x)
  | decBits n bits =>
    have hn : 1 ≤ n.toNat ∧ n.toNat ≤ 8 := of_decide_eq_true hwf
    exact (decode_encodeFB _ n bits).trans (decodeFB_encodeFB _ _ n bits hn)

/-- Settles O2: by the rows of the opcode map, each of which reads only words in its own format. -/
theorem encodeOfDecode : Obligations.EncodeOfDecode := by
  intro w i h
  have ho : fieldOpc w = BitVec.ofNat 8 (fieldOpc w).toNat := by simp
  rw [decode] at h
  generalize (fieldOpc w).toNat = opc at h ho
  unfold decodeOpc at h
  split at h
  case h_1 | h_2 | h_3 | h_4 | h_7 | h_9 | h_10 | h_14 | h_15 | h_16 | h_17 | h_19 | h_20 =>
    obtain ⟨rfl, hw⟩ := decodeF0_inv h
    rw [ho] at hw
    exact ⟨rfl, hw⟩
  case h_5 | h_6 | h_11 | h_12 | h_13 =>
    obtain ⟨rfl, hw⟩ := decodeFS_inv h
    rw [ho] at hw
    exact ⟨rfl, hw⟩
  case h_8 =>
    obtain ⟨rfl, hw⟩ := decodeFI_inv h
    rw [ho] at hw
    exact ⟨rfl, hw⟩
  case h_18 =>
    obtain ⟨rfl, hn, hw⟩ := decodeFB_inv h
    rw [ho] at hw
    exact ⟨decide_eq_true hn, hw⟩
  case h_21 => cases h

/-- Settles O4: the legal words are those of their instructions, and each of the others fails its check. -/
theorem specWordsDecode : Obligations.SpecWordsDecode :=
  ⟨decodeOfEncode .nop rfl, decodeOfEncode (.freqWrite 0x61) rfl, decodeOfEncode .buildTree rfl,
    decodeOfEncode (.nodeRead 511) rfl, decodeOfEncode (.codeWrite 0x62) rfl, decodeOfEncode (.encByte 0x41) rfl,
    decodeOfEncode (.decBits 8 0x70) rfl, rfl, rfl, rfl⟩

/-! ### The legal words -/

/-- The words of format F0 with an opcode (R71). -/
theorem encodeF0_eq_iff (o : BitVec 8) (w : Word) :
    encodeF0 o = w ↔ w.toNat / 2 ^ 24 = o.toNat ∧ w.toNat % 2 ^ 24 = 0 := by
  rw [← BitVec.toNat_inj, toNat_encodeF0]
  omega

/-- The words of format FS with an opcode (R72). -/
theorem exists_encodeFS_eq_iff (o : BitVec 8) (w : Word) :
    (∃ x, encodeFS o x = w) ↔ w.toNat / 2 ^ 24 = o.toNat ∧ w.toNat / 2 ^ 8 % 2 ^ 16 = 0 := by
  constructor
  · rintro ⟨x, rfl⟩
    have := x.isLt
    rw [toNat_encodeFS]
    omega
  · intro h
    refine ⟨fieldSym w, BitVec.eq_of_toNat_eq ?_⟩
    rw [toNat_encodeFS, fieldSym, toNat_extract]
    omega

/-- The words of format FI with an opcode (R73). -/
theorem exists_encodeFI_eq_iff (o : BitVec 8) (w : Word) :
    (∃ x, encodeFI o x = w) ↔ w.toNat / 2 ^ 24 = o.toNat ∧ w.toNat / 2 ^ 9 % 2 ^ 15 = 0 := by
  constructor
  · rintro ⟨x, rfl⟩
    have := x.isLt
    rw [toNat_encodeFI]
    omega
  · intro h
    refine ⟨fieldIdx w, BitVec.eq_of_toNat_eq ?_⟩
    rw [toNat_encodeFI, fieldIdx, toNat_extract]
    omega

/-- The words of format FB with an opcode and N from 1 to 8 (R74). -/
theorem exists_encodeFB_eq_iff (o : BitVec 8) (w : Word) :
    (∃ n b, (1 ≤ n.toNat ∧ n.toNat ≤ 8) ∧ encodeFB o n b = w) ↔
      w.toNat / 2 ^ 24 = o.toNat ∧ w.toNat / 2 ^ 20 % 2 ^ 4 = 0 ∧ w.toNat / 2 ^ 8 % 2 ^ 8 = 0 ∧
        1 ≤ w.toNat / 2 ^ 16 % 2 ^ 4 ∧ w.toNat / 2 ^ 16 % 2 ^ 4 ≤ 8 := by
  constructor
  · rintro ⟨n, b, hn, rfl⟩
    have := b.isLt
    rw [toNat_encodeFB]
    omega
  · rintro ⟨ho, hhigh, hlow, hn⟩
    refine ⟨fieldN w, fieldBits w, by rwa [fieldN, toNat_extract], BitVec.eq_of_toNat_eq ?_⟩
    rw [toNat_encodeFB, fieldN, fieldBits, toNat_extract, toNat_extract]
    omega

/-- The opcodes that R76 assigns to format F0. -/
theorem legal_encodeF0 : ∀ k ∈ [0x00, 0x01, 0x02, 0x10, 0x13, 0x20, 0x21, 0x31, 0x32, 0x40, 0x41, 0x43, 0x44],
    legal (encodeF0 (BitVec.ofNat 8 k)) = true := by decide

/-- The opcodes that R76 assigns to format FS. -/
theorem legal_encodeFS (x : Sym) : ∀ k ∈ [0x11, 0x12, 0x22, 0x23, 0x30], legal (encodeFS (BitVec.ofNat 8 k) x) = true := by
  simp only [List.forall_mem_cons, List.not_mem_nil, false_imp_iff, implies_true, and_true]
  exact ⟨Laws.LegalEncoding.freqWrite x rfl, Laws.LegalEncoding.freqRead x rfl, Laws.LegalEncoding.codeWrite x rfl,
    Laws.LegalEncoding.codeRead x rfl, Laws.LegalEncoding.encByte x rfl⟩

/-- An illegal word written to CMD while BUSY = 0 records ILLEGAL_CMD (R75, R210). -/
theorem accept_illegal {w : Word} {s : State} (hidle : s.pending = none) (hw : legal w = false) :
    accept w s = s.recordErr .illegalCmd := by
  have hbusy : s.busy = false := by rw [State.busy, hidle]; rfl
  rw [accept, hbusy]
  cases hd : decode w with
  | error e => rfl
  | ok i => rw [(legal_iff w).2 ⟨i, hd⟩] at hw; cases hw

/-- Settles O3: a legal word is that of an instruction, in whose format it lies, and a word in a format is legal because
its opcode is assigned to the format. -/
theorem legalWordsAreTheFormats : Obligations.LegalWordsAreTheFormats := by
  refine ⟨fun w => ⟨fun h => ?_, ?_⟩, fun w s rest hw hidle ha => ?_⟩
  · obtain ⟨i, hi⟩ := (legal_iff w).1 h
    obtain ⟨hwf, rfl⟩ := encodeOfDecode w i hi
    cases i with
    | nop | clrErr | softReset | freqClear | buildTree | genCodes | codeClear | encPop | encClear | decLoad | decStart
    | decPop | decEnd => exact .inl (by decide)
    | freqWrite x | freqRead x | codeWrite x | codeRead x | encByte x =>
      refine .inr (.inl ⟨?_, ((exists_encodeFS_eq_iff _ _).1 ⟨x, rfl⟩).2⟩)
      rw [← toNat_fieldOpc, encode, fieldOpc_encodeFS]
      decide
    | nodeRead x => exact .inr (.inr (.inl ((exists_encodeFI_eq_iff 0x14 _).1 ⟨x, rfl⟩)))
    | decBits n b =>
      exact .inr (.inr (.inr ((exists_encodeFB_eq_iff 0x42 _).1 ⟨n, b, of_decide_eq_true hwf, rfl⟩)))
  · have hopc : BitVec.ofNat 8 (w.toNat / 2 ^ 24) = fieldOpc w := by
      rw [← toNat_fieldOpc, BitVec.ofNat_toNat, BitVec.setWidth_eq]
    rintro (⟨ho, h0⟩ | ⟨ho, h0⟩ | h | h)
    · have hw := (encodeF0_eq_iff (fieldOpc w) w).2 ⟨(toNat_fieldOpc w).symm, h0⟩
      rw [← hw, ← hopc]
      exact legal_encodeF0 _ ho
    · obtain ⟨x, hw⟩ := (exists_encodeFS_eq_iff (fieldOpc w) w).2 ⟨(toNat_fieldOpc w).symm, h0⟩
      rw [← hw, ← hopc]
      exact legal_encodeFS x _ ho
    · obtain ⟨x, rfl⟩ := (exists_encodeFI_eq_iff 0x14 w).2 h
      exact Laws.LegalEncoding.nodeRead x rfl
    · obtain ⟨n, b, hn, rfl⟩ := (exists_encodeFB_eq_iff 0x42 w).2 h
      exact Laws.LegalEncoding.decBits n b (decide_eq_true hn)
  · rw [step_hostWrite ha rfl (Nat.zero_le _)]
    exact congrArg Host.Outcome.next (accept_illegal hidle hw)

/-! ### The bits of DEC_BITS -/

/-- Settles O5: the command sees BITS only through the bits it consumes. -/
theorem unusedBitsOfDecBitsAreIgnored : Obligations.UnusedBitsOfDecBitsAreIgnored := by
  intro n b b' s hwf hb
  have hn : 1 ≤ n.toNat ∧ n.toNat ≤ 8 := of_decide_eq_true hwf
  have hbits : consumedBits n b = consumedBits n b' := by
    rw [consumedBits_eq n b hn.2, consumedBits_eq n b' hn.2]
    exact List.map_congr_left fun j hj => hb j (List.mem_range.1 hj)
  show execDecBits n b s = execDecBits n b' s
  unfold execDecBits
  rw [hbits]

end Sys2Proof.Machine
end

section
/-! PROOFS. The tree builder commands (`41_tree_builder.md`): the frequency table (R100 to R102), the built tree (R103 to
R108, R110) and the reading of a node (R109). -/

namespace Sys2Proof.Machine

/-! ### The words of the commands -/

/-- The word of a well-formed instruction is its encoding (R76). -/
theorem encodes_encode {w : Word} (i : Instr) (hwf : i.wf = true) (hw : w = encode i) : Encodes w i := by
  subst hw
  exact ⟨decodeOfEncode i hwf, rfl⟩

/-- A field laid beside an opcode, below bit 24. -/
theorem toNat_encodeF0_or (o : BitVec 8) {y : Word} (hy : y.toNat < 2 ^ 24) :
    (encodeF0 o ||| y).toNat = o.toNat * 2 ^ 24 + y.toNat := by
  rw [BitVec.toNat_or, toNat_encodeF0, ← Nat.shiftLeft_eq, Nat.shiftLeft_add_eq_or_of_lt hy]

/-- A word of format FS is its opcode's word with SYM in the low bits (R72). -/
theorem encodeF0_or_sym (o : BitVec 8) (x : Sym) : encodeF0 o ||| x.setWidth 32 = encodeFS o x := by
  have hx := x.isLt
  have hlow : (x.setWidth 32).toNat = x.toNat := BitVec.toNat_setWidth_of_le (by decide)
  apply BitVec.eq_of_toNat_eq
  rw [toNat_encodeF0_or o (by omega), toNat_encodeFS, hlow]

/-- A word of format FI is its opcode's word with IDX in the low bits (R73). -/
theorem encodeF0_or_idx (o : BitVec 8) (x : NodeIdx) : encodeF0 o ||| x.setWidth 32 = encodeFI o x := by
  have hx := x.isLt
  have hlow : (x.setWidth 32).toNat = x.toNat := BitVec.toNat_setWidth_of_le (by decide)
  apply BitVec.eq_of_toNat_eq
  rw [toNat_encodeF0_or o (by omega), toNat_encodeFI, hlow]

/-! ### The views without a tree -/

theorem status_tv_of_no_tree {s : State} (h : s.btree = none) : s.status.getLsbD 1 = false := by
  obtain ⟨hfields, -⟩ := statusFields
  obtain ⟨-, htv, -⟩ := hfields s
  rw [htv, h]
  rfl

theorem treeinfo_of_no_tree {s : State} (h : s.btree = none) : s.treeinfo = 0 := by
  apply BitVec.eq_of_toNat_eq
  simp [toNat_treeinfo, State.rootIndex, State.ncount, h]

/-! ### The frequency table -/

/-- Settles O28: the new table is constant, and the views follow from the tree being gone. -/
theorem freqClearZeroesEveryCount : Obligations.FreqClearZeroesEveryCount :=
  ⟨encodes_encode .freqClear rfl rfl, fun s =>
    ⟨s.setFreq (Table.const 0), rfl, Table.lookup_const 0, rfl, status_tv_of_no_tree rfl, treeinfo_of_no_tree rfl,
      ⟨rfl, rfl⟩, ⟨rfl, rfl, rfl⟩, ⟨rfl, rfl⟩, rfl, rfl, ⟨rfl, rfl, rfl, rfl, rfl⟩, ⟨rfl, rfl, rfl⟩⟩⟩

/-- Settles O29: the count written is the operand latched with the command (R26). -/
theorem freqWriteSetsOneCount : Obligations.FreqWriteSetsOneCount := by
  refine ⟨fun x => encodes_encode (.freqWrite x) rfl (encodeF0_or_sym 0x11 x), fun s p x hp => ?_⟩
  have hexec : exec (.freqWrite x) s = .next (s.setFreq (s.freq.update x p.a0)) := by
    rw [← State.opA0_of_pending hp]
    rfl
  exact ⟨_, hexec, Table.lookup_update_same _ _ _, fun y hy => Table.lookup_update_ne _ _ hy, rfl,
    status_tv_of_no_tree rfl, ⟨rfl, rfl⟩, ⟨rfl, rfl, rfl⟩, ⟨rfl, rfl⟩, rfl, rfl, ⟨rfl, rfl, rfl, rfl, rfl⟩,
    ⟨rfl, rfl, rfl⟩⟩

/-- Settles O30. -/
theorem freqReadReturnsTheCount : Obligations.FreqReadReturnsTheCount :=
  ⟨fun x => encodes_encode (.freqRead x) rfl (encodeF0_or_sym 0x12 x), fun s x =>
    ⟨s.setRes (s.freq.lookup x) 0 0, rfl, rfl, rfl, rfl, ⟨rfl, rfl⟩, ⟨rfl, rfl⟩, ⟨rfl, rfl⟩, rfl, rfl,
      ⟨rfl, rfl, rfl, rfl, rfl⟩, ⟨rfl, rfl, rfl⟩⟩⟩

/-- Settles O31: the tree is `buildTree` of the frequency table. -/
theorem buildTreeDependsOnFreqAlone : Obligations.BuildTreeDependsOnFreqAlone :=
  ⟨encodes_encode .buildTree rfl rfl, fun s s' hfreq =>
    ⟨s.setTree (buildTree s.freq), s'.setTree (buildTree s'.freq), rfl, rfl,
      congrArg (fun f => some (buildTree f)) hfreq, Option.some_ne_none _, rfl, ⟨rfl, rfl⟩, ⟨rfl, rfl, rfl⟩, ⟨rfl, rfl⟩,
      rfl, rfl, ⟨rfl, rfl, rfl, rfl, rfl⟩, ⟨rfl, rfl, rfl⟩⟩⟩

/-! ### The built tree -/

theorem alphabet_nodup (freq : Table Count) : (alphabet freq).Nodup := by
  rw [alphabet_eq]
  exact allSyms_nodup.filter _

/-- With at most one leaf nothing is merged: the arena holds the leaves alone (R107). -/
theorem BuiltArena.eq_leaves {freq : Table Count} {nodes : List Node} (h : BuiltArena freq nodes)
    (hk : (alphabet freq).length ≤ 1) : nodes = leavesOf freq := by
  have hlength := h.length
  refine (h.leaves.eq_of_length ?_).symm
  rw [length_leavesOf]
  omega

/-- The tree of an alphabet of at most one symbol: the leaves, the only one as root if there is one (R107). -/
theorem buildTree_of_length_le_one {freq : Table Count} (hk : (alphabet freq).length ≤ 1) :
    buildTree freq = { nodes := leavesOf freq, root := if leavesOf freq = [] then none else some 0 } := by
  have hnodes := (buildNodes_built freq).eq_leaves hk
  have hroot : (leavesOf freq).length - 1 = 0 := by rw [length_leavesOf]; omega
  rw [buildTree, hnodes, hroot]
  rfl

theorem buildTree_of_alphabet_nil {freq : Table Count} (h : alphabet freq = []) :
    buildTree freq = { nodes := [], root := none } := by
  have hleaves : leavesOf freq = [] := by rw [leavesOf, h]; rfl
  rw [buildTree_of_length_le_one (by simp [h]), hleaves, if_pos rfl]

theorem buildTree_of_alphabet_singleton {freq : Table Count} {x : Sym} (h : alphabet freq = [x]) :
    buildTree freq = { nodes := [.leaf x (leafWeight (freq.lookup x))], root := some 0 } := by
  have hleaves : leavesOf freq = [.leaf x (leafWeight (freq.lookup x))] := by rw [leavesOf, h]; rfl
  rw [buildTree_of_length_le_one (by simp [h]), hleaves, if_neg (List.cons_ne_nil _ _)]

theorem alphabet_eq_nil {freq : Table Count} (h : ∀ x, freq.lookup x = 0) : alphabet freq = [] :=
  List.eq_nil_iff_forall_not_mem.2 fun x hx => (mem_alphabet freq x).1 hx (h x)

theorem alphabet_eq_singleton {freq : Table Count} {x : Sym} (h : ∀ y, freq.lookup y ≠ 0 ↔ y = x) :
    alphabet freq = [x] := by
  refine List.perm_singleton.1 ((List.perm_ext_iff_of_nodup (alphabet_nodup freq) (List.nodup_singleton x)).2 fun y => ?_)
  rw [mem_alphabet, h, List.mem_singleton]

/-- Settles O32: the leaves of the arena are the alphabet's in order, and for at most one of them nothing is merged. -/
theorem builtTreeHasTheAlphabetAsLeaves : Obligations.BuiltTreeHasTheAlphabetAsLeaves := by
  intro s
  have hleaf := (buildNodes_built s.freq).leaf_iff
  refine ⟨buildTree s.freq, rfl, buildTree_wf s.freq, fun i x w hn => ?_, fun x hx => ?_,
    fun h => buildTree_of_alphabet_nil (alphabet_eq_nil h),
    fun x h => ⟨_, buildTree_of_alphabet_singleton (alphabet_eq_singleton h)⟩⟩
  · obtain ⟨hx, rfl⟩ := (hleaf i x w).1 hn
    exact ⟨(mem_alphabet _ x).1 (List.mem_of_getElem? hx), toNat_leafWeight _⟩
  · obtain ⟨i, hi⟩ := List.getElem?_of_mem ((mem_alphabet s.freq x).2 hx)
    exact ⟨i, _, (hleaf i x _).2 ⟨hi, rfl⟩⟩

/-- Settles O33: `MergeInv` keeps the claim for every internal node, and the merge loop ends with it. -/
theorem mergesTakeTheTwoSmallest : Obligations.MergesTakeTheTwoSmallest := by
  intro s
  obtain ⟨q, hinv, -⟩ := (buildNodes_built s.freq).inv
  exact ⟨buildTree s.freq, rfl, hinv.merged⟩

/-- Settles O34: the root is the last node, which is the pair left in the ordering; a path only descends, so it is no
longer than there are internal nodes; and the leaves are those of the alphabet, which lists no symbol twice. -/
theorem rootWeighsTheSumOfAllCounts : Obligations.RootWeighsTheSumOfAllCounts := by
  intro s
  have hwf := buildTree_wf s.freq
  have hbuilt := buildNodes_built s.freq
  refine ⟨buildTree s.freq, rfl, fun r n hr hn => ?_, fun r c j hr hwalk => ?_, fun i j x w w' hi hj => ?_⟩
  · obtain ⟨-, -, hlast⟩ := hwf.root_toNat hr
    have hlast : r.toNat = (buildNodes s.freq).length - 1 := Nat.eq_sub_of_add_eq hlast
    exact hbuilt.last_weight (hlast ▸ hn)
  · obtain ⟨hpos, hroot, -⟩ := hwf.root_toNat hr
    have hpath := hwf.walk_length c r.toNat j hwalk
    omega
  · obtain ⟨hx, -⟩ := (hbuilt.leaf_iff i x w).1 hi
    obtain ⟨hx', -⟩ := (hbuilt.leaf_iff j x w').1 hj
    obtain ⟨hlt, -⟩ := List.getElem?_eq_some_iff.1 hx
    exact (List.getElem?_inj hlt (alphabet_nodup s.freq)).1 (hx.trans hx'.symm)

/-! ### Reading a node -/

theorem toNat_res0_leaf (x : Sym) (w : Weight) :
    (Node.leaf x w).res0.toNat = 2 ^ 31 + w.toNat / 2 ^ 32 * 2 ^ 16 + x.toNat := by
  have hw := w.isLt
  rw [Node.res0, toNat_fields, toNat_fields, toNat_fields, toNat_fields, toNat_extract]
  show 1 * 2 ^ (7 + (8 + (8 + 8))) + (0 * 2 ^ (8 + (8 + 8)) + (_ + (0 * 2 ^ 8 + _))) = _
  omega

theorem toNat_res0_internal (w : Weight) (z o : NodeIdx) :
    (Node.internal w z o).res0.toNat = w.toNat / 2 ^ 32 * 2 ^ 16 := by
  have hw := w.isLt
  rw [Node.res0, toNat_fields, toNat_fields, toNat_extract]
  show 0 * 2 ^ (8 + 16) + (_ + 0) = _
  omega

theorem toNat_res1_internal (w : Weight) (z o : NodeIdx) :
    (Node.internal w z o).res1.toNat = o.toNat * 2 ^ 16 + z.toNat := by
  rw [Node.res1, toNat_fields, toNat_fields, toNat_fields]
  show 0 * 2 ^ (9 + (7 + 9)) + (_ + (0 * 2 ^ 9 + _)) = _
  omega

theorem toNat_res2 (n : Node) : n.res2.toNat = n.weight.toNat % 2 ^ 32 := by
  rw [Node.res2, toNat_extract, Nat.pow_zero, Nat.div_one]

theorem State.nodeAt_of_tree {s : State} {T : BTree} (h : s.btree = some T) (x : NodeIdx) :
    s.nodeAt x = T.nodes[x.toNat]? := by
  rw [State.nodeAt, h]
  rfl

theorem State.nodeAt_of_no_tree {s : State} (h : s.btree = none) (x : NodeIdx) : s.nodeAt x = none := by
  rw [State.nodeAt, h]
  rfl

/-- NODE_READ where there is no node raises BAD_INDEX. -/
theorem nodeRead_failed {s : State} {x : NodeIdx} (h : s.nodeAt x = none) : Failed 3 s (exec (.nodeRead x) s) := by
  obtain ⟨-, hexec⟩ | ⟨n, hn, -⟩ := execNodeRead_cases x s
  · exact hexec
  · cases h.symm.trans hn

/-- NODE_READ where there is a node lays it into the result registers. -/
theorem nodeRead_found {s : State} {x : NodeIdx} {n : Node} (h : s.nodeAt x = some n) :
    exec (.nodeRead x) s = .next (s.setRes n.res0 n.res1 n.res2) := by
  obtain ⟨hn, -⟩ | ⟨m, hm, hexec⟩ := execNodeRead_cases x s
  · cases h.symm.trans hn
  · obtain rfl : n = m := Option.some.inj (h.symm.trans hm)
    exact hexec

/-- Settles O35: the index is looked up in the arena, and the registers hold the fields of the node found. -/
theorem nodeReadReturnsTheNode : Obligations.NodeReadReturnsTheNode := by
  refine ⟨fun x => encodes_encode (.nodeRead x) rfl (encodeF0_or_idx 0x14 x),
    fun s x => ⟨fun h => nodeRead_failed (State.nodeAt_of_no_tree h x), fun T hT => ⟨fun hx => ?_, fun n hn => ?_⟩⟩⟩
  · exact nodeRead_failed ((State.nodeAt_of_tree hT x).trans (List.getElem?_eq_none hx))
  · refine ⟨_, nodeRead_found ((State.nodeAt_of_tree hT x).trans hn), ?_, ?_, ⟨rfl, rfl⟩, ⟨rfl, rfl⟩, ⟨rfl, rfl⟩, rfl, rfl,
      ⟨rfl, rfl, rfl, rfl, rfl⟩, ⟨rfl, rfl, rfl⟩⟩
    · rintro y w rfl
      exact ⟨toNat_res0_leaf y w, rfl, toNat_res2 _⟩
    · rintro w z o rfl
      exact ⟨toNat_res0_internal w z o, toNat_res1_internal w z o, toNat_res2 _⟩

end Sys2Proof.Machine
end

section
/-! PROOFS. The code table commands (`42_code_table.md`): the codes of a tree (R130 to R133, R137), the entries one by one
(R134 to R136), and the round trip through the generated table (R180). -/

namespace Sys2Proof.Machine

/-! ### The entries of the code table -/

/-- Settles O38: the new table is constant. -/
theorem codeClearRemovesEveryEntry : Obligations.CodeClearRemovesEveryEntry :=
  ⟨encodes_encode .codeClear rfl rfl, fun s =>
    ⟨s.setCode (Table.const none), rfl, Table.lookup_const none, ⟨rfl, rfl⟩, ⟨rfl, rfl, rfl⟩, ⟨rfl, rfl⟩, ⟨rfl, rfl⟩, rfl,
      ⟨rfl, rfl, rfl, rfl, rfl⟩, ⟨rfl, rfl, rfl⟩⟩⟩

section
variable {s : State} {p : Pending}

/-- CODE_WRITE raises BAD_ARG when the latched LEN does not fit its field. -/
theorem codeWrite_failed (hp : s.pending = some p) (hge : 256 ≤ p.a0.toNat) (x : Sym) :
    Failed 4 s (exec (.codeWrite x) s) := by
  obtain ⟨-, hexec⟩ | ⟨hlt, -⟩ := execCodeWrite_cases x s
  · exact hexec
  · rw [State.opA0_of_pending hp] at hlt
    omega

/-- CODE_WRITE stores the entry made of the latched operands. -/
theorem codeWrite_completes (hp : s.pending = some p) (hlt : p.a0.toNat < 256) (x : Sym) :
    exec (.codeWrite x) s = .next (s.setCode (s.code.update x (codeEntry (fieldLen p.a0) p.cb))) := by
  rw [← State.opA0_of_pending hp] at hlt ⊢
  rw [← State.opCb_of_pending hp]
  obtain ⟨hge, -⟩ | ⟨-, hexec⟩ := execCodeWrite_cases x s
  · omega
  · exact hexec

end

theorem codeEntry_fieldLen_zero (cb : Vector Word 8) : codeEntry (fieldLen 0) cb = none :=
  if_pos (by decide)

theorem codeEntry_fieldLen {a : Word} (hne : a ≠ 0) (hlt : a.toNat < 256) (cb : Vector Word 8) :
    codeEntry (fieldLen a) cb = some (codeOfCbuf cb a.toNat) := by
  have hlen : (fieldLen a).toNat = a.toNat := toNat_fieldLen a hlt
  have hlen_ne : fieldLen a ≠ 0 := by
    intro h
    rw [h] at hlen
    exact hne (BitVec.eq_of_toNat_eq hlen.symm)
  rw [codeEntry, if_neg hlen_ne, hlen]

/-- Settles O39: the entry stored is none for LEN = 0, else the first LEN bits of the latched CB. -/
theorem codeWriteSetsOneCode : Obligations.CodeWriteSetsOneCode := by
  refine ⟨fun x => encodes_encode (.codeWrite x) rfl (encodeF0_or_sym 0x22 x),
    fun s p x hp => ⟨fun hge => codeWrite_failed hp hge x, fun hlt => ?_⟩⟩
  refine ⟨_, codeWrite_completes hp hlt x, fun h0 => ?_, fun hne => ⟨codeOfCbuf p.cb p.a0.toNat, ?_, ?_, ?_⟩,
    fun y hy => Table.lookup_update_ne _ _ hy, ⟨rfl, rfl⟩, ⟨rfl, rfl, rfl⟩, ⟨rfl, rfl⟩, ⟨rfl, rfl⟩, rfl,
    ⟨rfl, rfl, rfl, rfl, rfl⟩, ⟨rfl, rfl, rfl⟩⟩
  · rw [h0, codeEntry_fieldLen_zero]
    exact Table.lookup_update_same _ _ _
  · rw [codeEntry_fieldLen hne hlt]
    exact Table.lookup_update_same _ _ _
  · exact length_codeOfCbuf _ _
  · exact fun j k hk hlen => getElem?_codeOfCbuf _ _ j k hk hlen

/-- RES0 of a present code: PRESENT above LEN (R136). -/
theorem toNat_codeRes0_some {c : Code} (h : c.length ≤ Config.maxCodeLen) :
    (codeRes0 (some c)).toNat = 256 + c.length := by
  have hle : c.length ≤ 255 := h
  rw [codeRes0, toNat_fields, toNat_fields, BitVec.toNat_ofNat]
  show 0 * 2 ^ (1 + 8) + (1 * 2 ^ 8 + _) = _
  omega

theorem cbufOfCode_nil (j : Fin 8) : (cbufOfCode [])[j] = 0 := by
  simp [cbufOfCode, packBits, bitsVal]

/-- Settles O40: an absent entry reads as the empty bit string, a present one by its length and its bits. -/
theorem codeReadReturnsTheCode : Obligations.CodeReadReturnsTheCode := by
  refine ⟨fun x => encodes_encode (.codeRead x) rfl (encodeF0_or_sym 0x23 x), fun s x hsized => ?_⟩
  refine ⟨(s.setRes (codeRes0 (s.code.lookup x)) 0 0).setCbuf (cbufOfCode ((s.code.lookup x).getD [])), rfl, rfl, rfl,
    fun hnone => ⟨?_, fun j => ?_⟩, fun c hc => ⟨?_, fun j k hk => ?_⟩, rfl, ⟨rfl, rfl⟩, ⟨rfl, rfl⟩, rfl, rfl,
    ⟨rfl, rfl, rfl, rfl, rfl⟩, ⟨rfl, rfl, rfl⟩⟩
  · rw [hnone]
    rfl
  · rw [hnone]
    exact cbufOfCode_nil j
  · obtain ⟨-, hle⟩ := hsized x c hc
    rw [hc]
    exact toNat_codeRes0_some hle
  · rw [hc]
    exact getLsbD_cbufOfCode c j k hk

/-- A code taken out of CBUF and laid into it again: its bits, and 0 beyond them (R81, R135, R136). -/
theorem getLsbD_cbufOfCode_codeOfCbuf (cb : Vector Word 8) (len : Nat) (j : Fin 8) {k : Nat} (hk : k < 32) :
    (cbufOfCode (codeOfCbuf cb len))[j].getLsbD (31 - k) =
      (decide (32 * j.val + k < len) && cb[j].getLsbD (31 - k)) := by
  rw [getLsbD_cbufOfCode _ j k hk]
  by_cases hlen : 32 * j.val + k < len
  · rw [getElem?_codeOfCbuf cb len j k hk hlen, decide_eq_true hlen]
    rfl
  · rw [List.getElem?_eq_none (by rw [length_codeOfCbuf]; omega), decide_eq_false hlen]
    rfl

/-- Settles O41: CODE_READ finds the entry CODE_WRITE stored, the bits of CBUF up to LEN, and lays them out again. -/
theorem codeWriteThenReadReproduces : Obligations.CodeWriteThenReadReproduces := by
  intro s t p x hp hpos hlt ht
  have hne : p.a0 ≠ 0 := fun h => by rw [h] at hpos; exact absurd hpos (by decide)
  obtain rfl : s.setCode (s.code.update x (codeEntry (fieldLen p.a0) p.cb)) = t :=
    Host.Outcome.next.inj ((codeWrite_completes hp hlt x).symm.trans ht)
  have hentry : (s.code.update x (codeEntry (fieldLen p.a0) p.cb)).lookup x = some (codeOfCbuf p.cb p.a0.toNat) :=
    (Table.lookup_update_same _ _ _).trans (codeEntry_fieldLen hne hlt p.cb)
  refine ⟨_, rfl, ?_, fun j k hk => ?_⟩
  · show codeRes0 ((s.code.update x _).lookup x) = _
    rw [hentry]
    apply BitVec.eq_of_toNat_eq
    have hbase : (0x100 : Word).toNat = 256 := rfl
    rw [toNat_codeRes0_some (by rw [length_codeOfCbuf]; exact Nat.le_of_lt_succ hlt), length_codeOfCbuf,
      BitVec.toNat_add, hbase]
    omega
  · show (cbufOfCode (((s.code.update x _).lookup x).getD []))[j].getLsbD _ = _
    rw [hentry]
    exact getLsbD_cbufOfCode_codeOfCbuf p.cb _ j hk

/-! ### The codes of a tree -/

theorem codesOf_of_root_none {T : BTree} (h : T.root = none) : codesOf T = Table.const none := by
  simp only [codesOf, h]

theorem codesOf_of_root_leaf {T : BTree} {r : NodeIdx} {y : Sym} {w : Weight} (hr : T.root = some r)
    (hn : T.nodes[r.toNat]? = some (.leaf y w)) : codesOf T = (Table.const none).update y (some [false]) := by
  simp only [codesOf, hr, hn]

theorem codesOf_of_root_internal {T : BTree} {r : NodeIdx} {w : Weight} {z o : NodeIdx} (hr : T.root = some r)
    (hn : T.nodes[r.toNat]? = some (.internal w z o)) :
    codesOf T = visit T.nodes (r.toNat + 1) r.toNat [] (Table.const none) := by
  simp only [codesOf, hr, hn]

theorem genCodes_failed {s : State} (h : s.btree = none) : Failed 5 s (exec .genCodes s) := by
  obtain ⟨-, hexec⟩ | ⟨T, hT, -⟩ := execGenCodes_cases s
  · exact hexec
  · cases h.symm.trans hT

theorem genCodes_completes {s : State} {T : BTree} (h : s.btree = some T) :
    exec .genCodes s = .next (s.setCode (codesOf T)) := by
  obtain ⟨hnone, -⟩ | ⟨T', hT', hexec⟩ := execGenCodes_cases s
  · cases h.symm.trans hnone
  · obtain rfl : T = T' := Option.some.inj (h.symm.trans hT')
    exact hexec

/-- Settles O36: one equation of `codesOf` per kind of root; below an internal root the traversal writes the path of each
leaf, which R39.1 makes unique. -/
theorem genCodesAssignsThePathOfEachLeaf : Obligations.GenCodesAssignsThePathOfEachLeaf := by
  refine ⟨encodes_encode .genCodes rfl rfl, fun s hinv => ⟨genCodes_failed, fun T hT => ?_⟩⟩
  refine ⟨_, genCodes_completes hT, fun hr x => ?_, fun r y w hr hn x => ?_,
    fun r w z o hr hn x c => (hinv T hT).codesOf_lookup hr hn x c, ⟨rfl, rfl⟩, ⟨rfl, rfl, rfl⟩, ⟨rfl, rfl⟩, ⟨rfl, rfl⟩,
    rfl, ⟨rfl, rfl, rfl, rfl, rfl⟩, ⟨rfl, rfl, rfl⟩⟩
  · rw [codesOf_of_root_none hr]
    exact Table.lookup_const none x
  · rw [codesOf_of_root_leaf hr hn]
    exact (Table.lookup_update _ y x _).trans (by rw [Table.lookup_const])

/-! ### The generated codes -/

theorem BTree.Wf.nodes_eq_nil {T : BTree} (h : T.Wf) (hr : T.root = none) : T.nodes = [] := by
  have hroot := h.root
  have hsize := h.size
  rw [hr] at hroot
  split at hroot
  · exact List.eq_nil_of_length_eq_zero (by omega)
  · cases hroot

/-- A root that is a leaf is the only node (R107). -/
theorem BTree.Wf.length_of_root_leaf {T : BTree} (h : T.Wf) {r : NodeIdx} {y : Sym} {w : Weight} (hr : T.root = some r)
    (hn : T.nodes[r.toNat]? = some (.leaf y w)) : r.toNat = 0 ∧ T.nodes.length = 1 := by
  obtain ⟨hpos, hlast, hlength⟩ := h.root_toNat hr
  have hfirst := (h.leavesFirst _ _ hn).1 rfl
  omega

/-- Exactly the symbols of the leaves have codes: every leaf is reached from the root (R131, R137). -/
theorem BTree.Wf.codesOf_ne_none_iff {T : BTree} (h : T.Wf) (x : Sym) :
    (codesOf T).lookup x ≠ none ↔ ∃ (i : Nat) (w : Weight), T.nodes[i]? = some (.leaf x w) := by
  obtain ⟨hr, hcodes⟩ | ⟨r, y, w, hr, hn, hcodes⟩ | ⟨r, w, z, o, hr, hn, hcodes⟩ := h.codesOf_cases
  · simp [hcodes, h.nodes_eq_nil hr]
  · obtain ⟨hr0, hlength⟩ := h.length_of_root_leaf hr hn
    rw [hr0] at hn
    have hlookup : (codesOf T).lookup x ≠ none ↔ x = y := by simp [hcodes, Table.lookup_update]
    rw [hlookup]
    constructor
    · rintro rfl
      exact ⟨0, w, hn⟩
    · rintro ⟨i, w', hi⟩
      have hlt := (List.getElem?_eq_some_iff.1 hi).1
      obtain rfl : i = 0 := by omega
      cases hi.symm.trans hn
      rfl
  · rw [Option.ne_none_iff_exists']
    simp only [hcodes]
    constructor
    · rintro ⟨c, i, w', -, hi⟩
      exact ⟨i, w', hi⟩
    · rintro ⟨i, w', hi⟩
      have hlt := (List.getElem?_eq_some_iff.1 hi).1
      obtain ⟨-, -, hlast⟩ := h.root_toNat hr
      obtain ⟨c, hc⟩ := h.reachable (T.nodes.length - (i + 1)) i (by omega)
      rw [← hlast, Nat.add_sub_cancel] at hc
      exact ⟨c, i, w', hc, hi⟩

/-- The Kraft sum of a tree of two leaves or more is 1, scaled by `2 ^ 255` (R137(c)). -/
theorem BTree.Wf.kraftSum_codesOf {T : BTree} (h : T.Wf) (hk : 2 ≤ T.leafCount) : kraftSum (codesOf T) = 2 ^ 255 := by
  have hle := h.leafCount_le
  obtain ⟨hr, -⟩ | ⟨r, y, w, hr, hn, -⟩ | ⟨r, w, z, o, hr, hn, -⟩ := h.codesOf_cases
  · have hsize := h.size
    rw [h.nodes_eq_nil hr, List.length_nil] at hsize
    omega
  · obtain ⟨-, hlength⟩ := h.length_of_root_leaf hr hn
    have hsize := h.size
    omega
  · obtain ⟨-, hroot, hlast⟩ := h.root_toNat hr
    have hdepth : ([] : Code).length + (r.toNat + 1 - T.leafCount) ≤ Config.maxCodeLen := by
      simp only [List.length_nil, Config.maxCodeLen]
      omega
    rw [codesOf_of_root_internal hr hn,
      h.kraftSum_visit _ _ [] _ (Nat.lt_succ_self _) (by omega) hdepth fun _ x _ => Table.lookup_const none x,
      kraftSum_const, Nat.zero_add]
    rfl

theorem kraftSum_codesOf_singleton {freq : Table Count} {x : Sym} (h : alphabet freq = [x]) :
    kraftSum (codesOf (buildTree freq)) = 2 ^ 254 := by
  rw [buildTree_of_alphabet_singleton h, codesOf_of_root_leaf rfl rfl,
    kraftSum_update [false] (Table.lookup_const none x), kraftSum_const, Nat.zero_add]
  rfl

/-- Exactly the symbols of the alphabet get codes (R137). -/
theorem codesOf_buildTree_ne_none_iff (freq : Table Count) (x : Sym) :
    (codesOf (buildTree freq)).lookup x ≠ none ↔ freq.lookup x ≠ 0 := by
  rw [(buildTree_wf freq).codesOf_ne_none_iff, ← mem_alphabet, List.mem_iff_getElem?]
  have hleaf := fun i w => (buildNodes_built freq).leaf_iff i x w
  constructor
  · rintro ⟨i, w, hi⟩
    obtain ⟨hx, -⟩ := (hleaf i w).1 hi
    exact ⟨i, hx⟩
  · rintro ⟨i, hx⟩
    exact ⟨i, _, (hleaf i _).2 ⟨hx, rfl⟩⟩

theorem two_le_length_alphabet {freq : Table Count} {x y : Sym} (hne : x ≠ y) (hx : freq.lookup x ≠ 0)
    (hy : freq.lookup y ≠ 0) : 2 ≤ (alphabet freq).length := by
  have hsub : [x, y] ⊆ alphabet freq := by simpa [mem_alphabet] using ⟨hx, hy⟩
  exact (List.subperm_of_subset (by simpa using hne) hsub).length_le

/-- BUILD_TREE and then GEN_CODES (R105, R130). -/
theorem genCodes_after_buildTree (s : State) :
    exec .genCodes (s.setTree (buildTree s.freq)) =
      .next ((s.setTree (buildTree s.freq)).setCode (codesOf (buildTree s.freq))) :=
  genCodes_completes rfl

/-- Settles O37: the table is `codesOf` of a built tree, which has the shape of R39.1 and the alphabet as its leaves. -/
theorem generatedCodesArePrefixFree : Obligations.GeneratedCodesArePrefixFree := by
  intro s
  have hwf := buildTree_wf s.freq
  refine ⟨_, _, rfl, genCodes_after_buildTree s, codesOf_buildTree_ne_none_iff s.freq, hwf.codesOf_prefixFree,
    hwf.codesOf_sized, fun x y hne hx hy => hwf.kraftSum_codesOf ?_,
    fun x hx => kraftSum_codesOf_singleton (alphabet_eq_singleton hx)⟩
  have hcount : (buildTree s.freq).leafCount = (alphabet s.freq).length := (buildNodes_built s.freq).countP
  exact hcount ▸ two_le_length_alphabet hne hx hy

/-! ### The round trip through the table -/

/-- A byte sequence whose bytes all have codes has a stream. -/
theorem exists_stream {d : Table (Option Code)} {xs : List Sym} (h : ∀ x ∈ xs, d.lookup x ≠ none) :
    ∃ bs, stream d xs = some bs := by
  induction xs with
  | nil => exact ⟨[], rfl⟩
  | cons x xs ih =>
    obtain ⟨c, hc⟩ := Option.ne_none_iff_exists'.1 (h x List.mem_cons_self)
    obtain ⟨bs, hbs⟩ := ih fun y hy => h y (List.mem_cons_of_mem x hy)
    exact ⟨c ++ bs, by rw [stream, hc, hbs]⟩

/-- The stream of a sequence begins with the code of its first byte. -/
theorem stream_cons {d : Table (Option Code)} {x : Sym} {xs : List Sym} {bs : Bits} (h : stream d (x :: xs) = some bs) :
    ∃ c rest, d.lookup x = some c ∧ stream d xs = some rest ∧ bs = c ++ rest := by
  rw [stream] at h
  split at h
  next c rest hc hrest => exact ⟨c, rest, hc, hrest, (Option.some.inj h).symm⟩
  next => cases h

/-- From the root, with as many bytes to go as the stream has, the stream emits its bytes code by code, and what follows
it is ignored (R175, R179). -/
theorem decodes_stream {d : Table (Option Code)} (hfree : PrefixFree d) (hsized : CodesSized d) {target : Word}
    (pad : Bits) {xs : List Sym} : ∀ {bs : Bits} {count : Word} {out : List Sym}, stream d xs = some bs →
      count.toNat + xs.length = target.toNat →
      Decodes d target ⟨[], count, out⟩ (bs ++ pad) ⟨[], target, out ++ xs⟩ := by
  induction xs with
  | nil =>
    intro bs count out hbs hcount
    obtain rfl : [] = bs := Option.some.inj hbs
    obtain rfl : count = target := BitVec.eq_of_toNat_eq hcount
    rw [List.append_nil]
    exact decodes_ignored d ⟨[], count, out⟩ rfl pad
  | cons x xs ih =>
    intro bs count out hbs hcount
    obtain ⟨c, rest, hc, hrest, rfl⟩ := stream_cons hbs
    obtain ⟨hpos, -⟩ := hsized x c hc
    rw [List.length_cons] at hcount
    have hne : count ≠ target := by
      rintro rfl
      omega
    have hnext : (count + 1).toNat + xs.length = target.toNat := by
      have hone : (1 : Word).toNat = 1 := rfl
      have hlt := target.isLt
      rw [BitVec.toNat_add, hone]
      omega
    have htail := ih (out := out ++ [x]) hrest hnext
    rw [List.append_assoc, List.singleton_append] at htail
    rw [List.append_assoc]
    exact decodes_code hfree hc hne htail [] c (List.ne_nil_of_length_pos hpos) rfl

theorem decLoad_completes {s : State} (h : PrefixFree s.code) :
    exec .decLoad s = .next ((s.setDcode s.code).restartDecoder 0) := by
  obtain ⟨hnot, -⟩ | ⟨-, hexec⟩ := execDecLoad_cases s
  · exact absurd h hnot
  · exact hexec

/-- Settles O52: DEC_LOAD takes the generated table, since no code in it begins another, and every byte of the alphabet has
a code in it; so the stream exists and decodes back. -/
theorem codecRoundTrip : Obligations.CodecRoundTrip := by
  intro s
  have hwf := buildTree_wf s.freq
  refine ⟨_, _, _, rfl, genCodes_after_buildTree s, decLoad_completes hwf.codesOf_prefixFree, rfl, rfl, rfl,
    fun xs hxs => ?_⟩
  obtain ⟨bs, hbs⟩ := exists_stream fun x hx => (codesOf_buildTree_ne_none_iff s.freq x).2 (hxs x hx)
  refine ⟨bs, hbs, fun target pad hlength d hd => ?_⟩
  obtain rfl : codesOf (buildTree s.freq) = d := Option.some.inj hd
  exact decodes_stream hwf.codesOf_prefixFree hwf.codesOf_sized pad hbs ((Nat.zero_add _).trans hlength)

end Sys2Proof.Machine
end

section
/-! PROOFS. The encoder commands (`43_encoder.md`): ENC_BYTE, ENC_POP and ENC_CLEAR (R150 to R152, R154), and the stream
that the pops deliver (R153). -/

namespace Sys2Proof.Machine

/-! ### ENC_BYTE -/

section
variable {s : State} {x : Sym}

theorem encByte_noCode (h : s.code.lookup x = none) : Failed 6 s (exec (.encByte x) s) := by
  obtain ⟨-, hexec⟩ | ⟨c, hc, -⟩ | ⟨c, hc, -⟩ := execEncByte_cases x s
  · exact hexec
  · cases h.symm.trans hc
  · cases h.symm.trans hc

variable {c : Code}

theorem encByte_full (h : s.code.lookup x = some c) (hfull : 512 < s.obuf.length + c.length) :
    Failed 7 s (exec (.encByte x) s) := by
  obtain ⟨hnone, -⟩ | ⟨d, -, -, hexec⟩ | ⟨d, hd, hroom, -⟩ := execEncByte_cases x s
  · cases h.symm.trans hnone
  · exact hexec
  · obtain rfl : c = d := Option.some.inj (h.symm.trans hd)
    exact absurd hroom (Nat.not_le.2 hfull)

theorem encByte_completes (h : s.code.lookup x = some c) (hroom : s.obuf.length + c.length ≤ 512) :
    exec (.encByte x) s = .next (s.setObuf (s.obuf ++ c)) := by
  obtain ⟨hnone, -⟩ | ⟨d, hd, hfull, -⟩ | ⟨d, hd, -, hexec⟩ := execEncByte_cases x s
  · cases h.symm.trans hnone
  · obtain rfl : c = d := Option.some.inj (h.symm.trans hd)
    exact absurd hfull (Nat.not_lt.2 hroom)
  · obtain rfl : c = d := Option.some.inj (h.symm.trans hd)
    exact hexec

end

/-- Settles O42: the entry is looked up first, then its length is checked against the room left. -/
theorem encByteAppendsTheCode : Obligations.EncByteAppendsTheCode :=
  ⟨fun x => encodes_encode (.encByte x) rfl (encodeF0_or_sym 0x30 x), fun s _ =>
    ⟨encByte_noCode, fun c hc => ⟨encByte_full hc, fun hroom =>
      ⟨s.setObuf (s.obuf ++ c), encByte_completes hc hroom, rfl, ⟨rfl, rfl⟩, ⟨rfl, rfl, rfl⟩, ⟨rfl, rfl⟩, ⟨rfl, rfl⟩,
        rfl, ⟨rfl, rfl, rfl, rfl, rfl⟩, ⟨rfl, rfl, rfl⟩⟩⟩⟩⟩

/-! ### ENC_POP -/

theorem toNat_popRes0 (b : Bits) : (popRes0 b).toNat = b.length % 16 * 256 + (packBits 8 b).toNat := by
  rw [popRes0, toNat_fields, toNat_fields, BitVec.toNat_ofNat]
  show 0 * 2 ^ (4 + 8) + _ = _
  omega

/-- NBITS holds the number of bits popped (R151). -/
theorem popRes0_nbits {b : Bits} (h : b.length ≤ 8) : ((popRes0 b).extractLsb' 8 4).toNat = b.length := by
  have hbits := (packBits 8 b).isLt
  rw [toNat_extract, toNat_popRes0]
  omega

theorem popRes0_high (b : Bits) : (popRes0 b).extractLsb' 12 20 = 0 := by
  have hbits := (packBits 8 b).isLt
  refine extract_eq_zero ?_
  rw [toNat_popRes0]
  omega

/-- BITS holds the bits popped from its bit 7 downward, and 0 below them (R151). -/
theorem popRes0_bits (b : Bits) {i : Nat} (hi : i < 8) : (popRes0 b).getLsbD (7 - i) = (b[i]?).getD false := by
  have hlow : (popRes0 b).getLsbD (7 - i) = (packBits 8 b).getLsbD (7 - i) := by
    rw [popRes0, BitVec.getLsbD_append, if_pos (by omega), BitVec.getLsbD_append, if_pos (by omega)]
  exact hlow.trans (getLsbD_packBits 8 b i hi)

/-- Settles O43: RES0 lays out the first 8 bits of obuf, or all of them when there are fewer. -/
theorem encPopTakesUpToEightBits : Obligations.EncPopTakesUpToEightBits := by
  refine ⟨encodes_encode .encPop rfl rfl, fun s => ?_⟩
  have htaken : (s.obuf.take 8).length = min 8 s.obuf.length := List.length_take
  refine ⟨(s.setObuf (s.obuf.drop 8)).setRes (popRes0 (s.obuf.take 8)) 0 0, rfl, ?_,
    (popRes0_nbits (List.length_take_le 8 _)).trans htaken, popRes0_high _, fun i hi => ?_, rfl, rfl, ⟨rfl, rfl⟩,
    ⟨rfl, rfl⟩, ⟨rfl, rfl⟩, rfl, ⟨rfl, rfl, rfl, rfl, rfl⟩, ⟨rfl, rfl, rfl⟩⟩
  · exact List.drop_eq_drop_iff.2 (by omega)
  · exact (popRes0_bits _ hi).trans (by rw [List.getElem?_take_of_lt hi])

/-! ### ENC_CLEAR -/

/-- Settles O44: OBUF_LEN is a view of the buffer, which is empty. -/
theorem encClearEmptiesTheBuffer : Obligations.EncClearEmptiesTheBuffer := by
  refine ⟨encodes_encode .encClear rfl rfl, fun s => ⟨s.setObuf [], rfl, rfl, extract_eq_zero ?_, ⟨rfl, rfl⟩,
    ⟨rfl, rfl, rfl⟩, ⟨rfl, rfl⟩, ⟨rfl, rfl⟩, rfl, ⟨rfl, rfl, rfl, rfl, rfl⟩, ⟨rfl, rfl, rfl⟩⟩⟩
  rw [toNat_bufinfo, State.setObuf_obuf, List.length_nil]
  omega

/-! ### The encoded stream -/

/-- The host takes out of RES0 the bits that ENC_POP laid into it (R151, R153). -/
theorem poppedBits_popRes0 {b : Bits} (h : b.length ≤ 8) : poppedBits (popRes0 b) = b := by
  rw [poppedBits, popRes0_nbits h, ← List.map_take, List.take_range, Nat.min_eq_left h]
  refine List.ext_getElem (by simp) fun i hi hib => ?_
  rw [List.getElem_map, List.getElem_range, popRes0_bits b (by omega), List.getElem?_eq_getElem hib, Option.getD_some]

/-- A command that starts and ends with err = 0 raised no error. -/
theorem completes_of_err_eq_zero {i : Instr} {s t : State} (h : exec i s = .next t) (hs : s.err = 0) (ht : t.err = 0) :
    Completes s i t := by
  obtain ⟨e, rfl⟩ | hc := exec_cases h
  · rw [State.recordErr_err, if_pos hs] at ht
    cases e <;> cases ht
  · exact hc

/-- Over any run of ENC_BYTE and ENC_POP nothing is lost and nothing reordered: the bits buffered before it and the
codes of its bytes are the bits popped and the bits buffered after it (R153). -/
theorem EncRun.stream_eq {s u : State} {ops : List (Option Sym)} {out : Bits} (h : EncRun s ops out u) :
    ∃ bs, stream s.code (ops.filterMap id) = some bs ∧ s.obuf ++ bs = out ++ u.obuf := by
  induction h with
  | done s => exact ⟨[], rfl, List.append_nil _⟩
  | byte s t u x ops out hexec hs ht _ ih =>
    obtain ⟨bs, hbs, heq⟩ := ih
    cases completes_of_err_eq_zero hexec hs ht with
    | encByte _ c hc _ =>
      rw [State.setObuf_code] at hbs
      refine ⟨c ++ bs, ?_, (List.append_assoc _ _ _).symm.trans heq⟩
      show stream s.code (x :: ops.filterMap id) = _
      rw [stream, hc, hbs]
  | pop s t u ops out hexec _ ih =>
    obtain ⟨bs, hbs, heq⟩ := ih
    cases Host.Outcome.next.inj hexec
    refine ⟨bs, hbs, ?_⟩
    calc s.obuf ++ bs = s.obuf.take 8 ++ (s.obuf.drop 8 ++ bs) := by rw [← List.append_assoc, List.take_append_drop]
      _ = poppedBits (popRes0 (s.obuf.take 8)) ++ (out ++ u.obuf) := by
        rw [poppedBits_popRes0 (List.length_take_le 8 _), ← heq]
        rfl
      _ = poppedBits (popRes0 (s.obuf.take 8)) ++ out ++ u.obuf := (List.append_assoc _ _ _).symm

/-- Settles O45: with nothing buffered before the run, its codes are all that comes out. -/
theorem poppedBitsAreTheEncodedStream : Obligations.PoppedBitsAreTheEncodedStream := by
  intro s u ops out hempty hrun
  obtain ⟨bs, hbs, heq⟩ := hrun.stream_eq
  rw [hempty, List.nil_append] at heq
  rw [hbs, heq]

end Sys2Proof.Machine
end

section
/-! PROOFS. The decoder commands (`44_decoder.md`): DEC_LOAD, DEC_START, DEC_BITS, DEC_POP and DEC_END one by one (R170 to
R178). -/

namespace Sys2Proof.Machine

/-! ### DEC_LOAD -/

theorem decLoad_failed {s : State} (h : ¬ PrefixFree s.code) : Failed 8 s (exec .decLoad s) := by
  obtain ⟨-, hexec⟩ | ⟨hfree, -⟩ := execDecLoad_cases s
  · exact hexec
  · exact absurd hfree h

/-- A loaded decoder at its target shows DV and DDONE (R24). -/
theorem status_of_decoder_done {s : State} {d : Table (Option Code)} (hd : s.dcode = some d) (hc : s.dcount = s.dtarget) :
    s.status.extractLsb' 2 2 = 3 := by
  have hdv : s.dv = true := by rw [State.dv, hd, Option.isSome_some]
  have hddone : s.ddone = true := by rw [State.ddone, hdv, hc, beq_self_eq_true, Bool.and_self]
  have htv := Bool.toNat_lt s.tv
  have hbusy := Bool.toNat_lt s.busy
  refine extract_eq_of_toNat ?_
  rw [toNat_status, hdv, hddone]
  show (_ + 1 * 8 + 1 * 4 + _ + _) / _ % _ = 3
  omega

/-- Settles O46: the check of DEC_LOAD passes exactly the tables in which no code begins another, and the restarted
decoder is at its target 0. -/
theorem decLoadTakesPrefixFreeTables : Obligations.DecLoadTakesPrefixFreeTables :=
  ⟨encodes_encode .decLoad rfl rfl, fun s =>
    ⟨fun hfree =>
      ⟨(s.setDcode s.code).restartDecoder 0, decLoad_completes hfree, rfl, rfl, rfl, rfl, rfl,
        status_of_decoder_done rfl rfl, ⟨rfl, rfl⟩, ⟨rfl, rfl, rfl⟩, ⟨rfl, rfl⟩, ⟨rfl, rfl⟩, rfl, rfl, ⟨rfl, rfl, rfl⟩⟩,
      decLoad_failed⟩⟩

/-! ### DEC_START -/

theorem decStart_failed {s : State} (h : s.dcode = none) : Failed 9 s (exec .decStart s) := by
  obtain ⟨-, hexec⟩ | ⟨hloaded, -⟩ := execDecStart_cases s
  · exact hexec
  · exact absurd h hloaded

theorem decStart_completes {s : State} {p : Pending} (hp : s.pending = some p) (h : s.dcode ≠ none) :
    exec .decStart s = .next (s.restartDecoder p.a0) := by
  obtain ⟨hnone, -⟩ | ⟨-, hexec⟩ := execDecStart_cases s
  · exact absurd hnone h
  · rw [← State.opA0_of_pending hp]
    exact hexec

/-- DDONE after DEC_START: the counter is 0, so the target is reached when it is 0 (R173). -/
theorem status_ddone_restartDecoder {s : State} (h : s.dcode ≠ none) (a : Word) :
    (s.restartDecoder a).status.getLsbD 3 = true ↔ a = 0 := by
  obtain ⟨hfields, -⟩ := statusFields
  obtain ⟨-, -, -, hddone, -⟩ := hfields (s.restartDecoder a)
  have hloaded : s.dcode.isSome = true := Option.isSome_iff_ne_none.2 h
  rw [hddone, State.restartDecoder_dcode, State.restartDecoder_dcount, State.restartDecoder_dtarget, hloaded,
    Bool.true_and, beq_iff_eq]
  exact eq_comm

/-- Settles O47: the target is the operand latched with the command (R26). -/
theorem decStartSetsTheTarget : Obligations.DecStartSetsTheTarget :=
  ⟨encodes_encode .decStart rfl rfl, fun s p hp =>
    ⟨decStart_failed, fun hd =>
      ⟨s.restartDecoder p.a0, decStart_completes hp hd, rfl, rfl, rfl, rfl, rfl, status_ddone_restartDecoder hd p.a0,
        ⟨rfl, rfl⟩, ⟨rfl, rfl, rfl⟩, ⟨rfl, rfl⟩, ⟨rfl, rfl⟩, rfl, rfl, ⟨rfl, rfl, rfl⟩⟩⟩⟩

/-! ### DEC_BITS -/

/-- A word of format FB is its opcode's word with N at bit 16 and BITS in the low bits (R74). -/
theorem encodeF0_or_bits (o : BitVec 8) (n : BitVec 4) (b : BitVec 8) :
    encodeF0 o ||| (n.setWidth 32 <<< 16) ||| b.setWidth 32 = encodeFB o n b := by
  have hn := n.isLt
  have hb := b.isLt
  have hbits : (b.setWidth 32).toNat = b.toNat := BitVec.toNat_setWidth_of_le (by decide)
  have hcount : (n.setWidth 32 <<< 16).toNat = n.toNat * 2 ^ 16 := by
    rw [BitVec.toNat_shiftLeft, BitVec.toNat_setWidth_of_le (by decide), Nat.shiftLeft_eq]
    omega
  have hfields : ((n.setWidth 32 <<< 16) ||| b.setWidth 32).toNat = n.toNat * 2 ^ 16 + b.toNat := by
    rw [BitVec.toNat_or, hcount, hbits, ← Nat.shiftLeft_eq, Nat.shiftLeft_add_eq_or_of_lt (by omega)]
  apply BitVec.eq_of_toNat_eq
  rw [BitVec.or_assoc, toNat_encodeF0_or o (by omega), hfields, toNat_encodeFB]
  omega

/-- Where the decoder stands: path, counter and buffer (R33 to R35). -/
def State.progress (s : State) : Progress := ⟨s.dpath, s.dcount, s.dout⟩

section
variable {s : State} {n : BitVec 4} {b : BitVec 8}

theorem decBits_unloaded (h : s.dcode = none) : Failed 9 s (exec (.decBits n b) s) := by
  obtain ⟨-, hexec⟩ | ⟨d, hd, -⟩ := execDecBits_cases n b s
  · exact hexec
  · cases h.symm.trans hd

/-- DEC_BITS with a loaded decoder: the room first, then the bits (R174, R216). -/
theorem decBits_cases {d : Table (Option Code)} (hd : s.dcode = some d) :
    (16 < s.dout.length + n.toNat ∧ Failed 11 s (exec (.decBits n b) s)) ∨
    (s.dout.length + n.toNat ≤ 16 ∧ decodeBits d s.dtarget s.progress (consumedBits n b) = none ∧
      Failed 10 s (exec (.decBits n b) s)) ∨
    (s.dout.length + n.toNat ≤ 16 ∧ ∃ r, decodeBits d s.dtarget s.progress (consumedBits n b) = some r ∧
      exec (.decBits n b) s = .next (s.setProgress r.path r.count r.out)) := by
  obtain ⟨hnone, -⟩ | ⟨d', hd', hcases⟩ := execDecBits_cases n b s
  · cases hd.symm.trans hnone
  · obtain rfl : d = d' := Option.some.inj (hd.symm.trans hd')
    exact hcases

theorem decBits_completes {d : Table (Option Code)} {r : Progress} (hd : s.dcode = some d)
    (hroom : s.dout.length + n.toNat ≤ 16) (hr : decodeBits d s.dtarget s.progress (consumedBits n b) = some r) :
    exec (.decBits n b) s = .next (s.setProgress r.path r.count r.out) := by
  obtain ⟨hfull, -⟩ | ⟨-, hnone, -⟩ | ⟨-, r', hr', hexec⟩ := decBits_cases (n := n) (b := b) hd
  · exact absurd hroom (Nat.not_le.2 hfull)
  · cases hr.symm.trans hnone
  · obtain rfl : r = r' := Option.some.inj (hr.symm.trans hr')
    exact hexec

end

/-- Settles O48: the loop of DEC_BITS answers exactly what the cases of R175 decode, since a table of R39.3 has one symbol
per code. -/
theorem decBitsDecodesInOrder : Obligations.DecBitsDecodesInOrder := by
  refine ⟨fun n b h1 h8 => encodes_encode (.decBits n b) (decide_eq_true ⟨h1, h8⟩) (encodeF0_or_bits 0x42 n b),
    fun s n b hinv _ h8 => ⟨decBits_unloaded, fun d hd => ?_⟩⟩
  have hdecodes := decodeBits_iff_decodes (hinv.prefixFree d hd) s.dtarget (consumedBits n b) s.progress
  rw [← consumedBits_eq n b h8]
  obtain ⟨hfull, hfail⟩ | ⟨hroom, hnone, hfail⟩ | ⟨hroom, r, hr, hexec⟩ := decBits_cases (n := n) (b := b) hd
  · exact ⟨fun _ => hfail, fun hroom => absurd hroom (Nat.not_le.2 hfull)⟩
  · refine ⟨fun hfull => absurd hroom (Nat.not_le.2 hfull), fun _ => ⟨fun r hr => ?_, fun _ => hfail⟩⟩
    cases hnone.symm.trans ((hdecodes r).2 hr)
  · refine ⟨fun hfull => absurd hroom (Nat.not_le.2 hfull), fun _ =>
      ⟨fun r' hr' => ?_, fun hno => absurd ((hdecodes r).1 hr) (hno r)⟩⟩
    obtain rfl : r = r' := Option.some.inj (hr.symm.trans ((hdecodes r').2 hr'))
    exact ⟨_, hexec, rfl, rfl, rfl, rfl, rfl, ⟨rfl, rfl⟩, ⟨rfl, rfl, rfl⟩, ⟨rfl, rfl⟩, ⟨rfl, rfl⟩, rfl, rfl,
      ⟨rfl, rfl, rfl⟩⟩

/-! ### DEC_POP -/

/-- VALID and BYTE of a buffer with a front (R177). -/
theorem toNat_popByteRes0_cons (x : Sym) (xs : List Sym) : (popByteRes0 (x :: xs)).toNat = 256 + x.toNat := by
  rw [popByteRes0, toNat_fields, toNat_fields]
  show 0 * 2 ^ (1 + 8) + (1 * 2 ^ 8 + x.toNat) = _
  omega

/-- Settles O49. -/
theorem decPopTakesOneByte : Obligations.DecPopTakesOneByte := by
  refine ⟨encodes_encode .decPop rfl rfl, fun s =>
    ⟨(s.setDout (s.dout.drop 1)).setRes (popByteRes0 s.dout) 0 0, rfl, rfl, rfl, fun hempty => ?_, fun x xs hcons => ?_,
      rfl, rfl, rfl, rfl, ⟨rfl, rfl⟩, ⟨rfl, rfl⟩, ⟨rfl, rfl⟩, rfl, rfl, ⟨rfl, rfl, rfl⟩⟩⟩
  · rw [hempty]
    exact ⟨rfl, rfl⟩
  · rw [hcons]
    exact ⟨toNat_popByteRes0_cons x xs, rfl⟩

/-! ### DEC_END -/

section
variable {s : State}

theorem decEnd_unloaded (h : s.dcode = none) : Failed 9 s (exec .decEnd s) := by
  obtain ⟨-, hexec⟩ | ⟨hloaded, -⟩ | ⟨hloaded, -⟩ := execDecEnd_cases s
  · exact hexec
  · exact absurd h hloaded
  · exact absurd h hloaded

theorem decEnd_truncated (hd : s.dcode ≠ none) (hlt : s.dcount.toNat < s.dtarget.toNat) :
    Failed 12 s (exec .decEnd s) := by
  obtain ⟨hnone, -⟩ | ⟨-, -, hexec⟩ | ⟨-, hle, -⟩ := execDecEnd_cases s
  · exact absurd hnone hd
  · exact hexec
  · exact absurd hlt (Nat.not_lt.2 hle)

theorem decEnd_completes (hd : s.dcode ≠ none) (hle : s.dtarget.toNat ≤ s.dcount.toNat) : exec .decEnd s = .next s := by
  obtain ⟨hnone, -⟩ | ⟨-, hlt, -⟩ | ⟨-, -, hexec⟩ := execDecEnd_cases s
  · exact absurd hnone hd
  · exact absurd hle (Nat.not_le.2 hlt)
  · exact hexec

end

/-- Settles O50: the table is looked for first, then the count is held against the target. -/
theorem decEndChecksTheTarget : Obligations.DecEndChecksTheTarget :=
  ⟨encodes_encode .decEnd rfl rfl, fun _ => ⟨decEnd_unloaded, decEnd_truncated, decEnd_completes⟩⟩

end Sys2Proof.Machine
end

section
/-! PROOFS. Runs of DEC_BITS and DEC_POP after DEC_START (R179): what they emit is what the loop of R174 emits on all the
bits fed. -/

namespace Sys2Proof.Machine

/-! ### The loop over the bits -/

/-- The same progress with bytes that were emitted before, which the host has popped. -/
def Progress.prepend (before : List Sym) (p : Progress) : Progress := ⟨p.path, p.count, before ++ p.out⟩

@[simp] theorem Progress.prepend_path (a : List Sym) (p : Progress) : (p.prepend a).path = p.path := rfl
@[simp] theorem Progress.prepend_count (a : List Sym) (p : Progress) : (p.prepend a).count = p.count := rfl
@[simp] theorem Progress.prepend_out (a : List Sym) (p : Progress) : (p.prepend a).out = a ++ p.out := rfl

theorem Progress.prepend_prepend (a b : List Sym) (p : Progress) : (p.prepend b).prepend a = p.prepend (a ++ b) := by
  simp only [prepend, List.append_assoc]

/-- The bits are decoded in order, in however many pieces (R174). -/
theorem decodeBits_append (d : Table (Option Code)) (target : Word) (bs cs : Bits) (p : Progress) :
    decodeBits d target p (bs ++ cs) = (decodeBits d target p bs).bind fun q => decodeBits d target q cs := by
  induction bs generalizing p with
  | nil => rfl
  | cons b bs ih =>
    rw [List.cons_append, decodeBits, decodeBits]
    cases decodeBit d target p b with
    | none => rfl
    | some q => exact ih q

section
variable (d : Table (Option Code)) (target : Word) (before : List Sym)

/-- What a bit does depends on the path and the counter, not on the bytes emitted before it (R175). -/
theorem decodeBit_prepend (p : Progress) (b : Bool) :
    decodeBit d target (p.prepend before) b = (decodeBit d target p b).map (Progress.prepend before) := by
  by_cases hcount : p.count = target
  · rw [decodeBit_ignored b hcount]
    exact decodeBit_ignored b hcount
  · rw [decodeBit, decodeBit, Progress.prepend_path, Progress.prepend_count, Progress.prepend_out, if_neg hcount,
      if_neg hcount]
    cases symOfPath d (p.path ++ [b]) with
    | some x => exact congrArg (fun out => some (Progress.mk [] (p.count + 1) out)) (List.append_assoc before p.out [x])
    | none => cases onPath d (p.path ++ [b]) <;> rfl

theorem decodeBits_prepend (bs : Bits) (p : Progress) :
    decodeBits d target (p.prepend before) bs = (decodeBits d target p bs).map (Progress.prepend before) := by
  induction bs generalizing p with
  | nil => rfl
  | cons b bs ih =>
    rw [decodeBits, decodeBits, decodeBit_prepend]
    cases decodeBit d target p b with
    | none => rfl
    | some q => exact ih q

end

/-! ### What was emitted -/

theorem stream_concat {d : Table (Option Code)} {xs : List Sym} {bs : Bits} {x : Sym} {c : Code}
    (h : stream d xs = some bs) (hx : d.lookup x = some c) : stream d (xs ++ [x]) = some (bs ++ c) := by
  induction xs generalizing bs with
  | nil =>
    obtain rfl : [] = bs := Option.some.inj h
    simp [stream, hx]
  | cons y ys ih =>
    obtain ⟨e, rest, he, hrest, rfl⟩ := stream_cons h
    rw [List.cons_append, stream, he, ih hrest, List.append_assoc]

/-- The progress of a decoder started at the root and fed these bits: the bytes emitted are counted, at most the target
many, and the bits fed are their codes followed by the path, as long as the target is not reached (R179). -/
structure EmittedFrom (d : Table (Option Code)) (target : Word) (fed : Bits) (p : Progress) : Prop where
  count : p.count.toNat = p.out.length
  bound : p.out.length ≤ target.toNat
  codes : ∃ bs, stream d p.out = some bs ∧ (p.out.length < target.toNat → fed = bs ++ p.path) ∧
    (p.out.length = target.toNat → bs <+: fed ∧ p.path = [])

theorem emittedFrom_start (d : Table (Option Code)) (target : Word) : EmittedFrom d target [] ⟨[], 0, []⟩ :=
  ⟨rfl, Nat.zero_le _, [], rfl, fun _ => rfl, fun _ => ⟨List.prefix_refl [], rfl⟩⟩

section
variable {d : Table (Option Code)} {target : Word}

theorem EmittedFrom.length_lt {fed : Bits} {p : Progress} (hp : EmittedFrom d target fed p) (h : p.count ≠ target) :
    p.out.length < target.toNat :=
  Nat.lt_of_le_of_ne hp.bound fun e => h (BitVec.eq_of_toNat_eq (hp.count.trans e))

/-- One more bit fed: it is ignored, or ends a code, or lengthens the path. -/
theorem EmittedFrom.after_bit {fed : Bits} {p r : Progress} {b : Bool} (hp : EmittedFrom d target fed p)
    (h : decodeBit d target p b = some r) : EmittedFrom d target (fed ++ [b]) r := by
  obtain ⟨bs, hbs, hbelow, hat⟩ := hp.codes
  have hall (hlt : p.out.length < target.toNat) : fed ++ [b] = bs ++ (p.path ++ [b]) := by
    rw [hbelow hlt, List.append_assoc]
  obtain ⟨heq, rfl⟩ | ⟨hne, x, hx, rfl⟩ | ⟨hne, -, -, rfl⟩ := decodeBit_cases h
  · have hlength : r.out.length = target.toNat := hp.count.symm.trans (congrArg BitVec.toNat heq)
    obtain ⟨hpre, hpath⟩ := hat hlength
    exact ⟨hp.count, hp.bound, bs, hbs, fun hlt => absurd hlength (Nat.ne_of_lt hlt),
      fun _ => ⟨hpre.trans (List.prefix_append fed [b]), hpath⟩⟩
  · have hlt := hp.length_lt hne
    have hlength : (p.out ++ [x]).length = p.out.length + 1 := List.length_append
    have hcount : (p.count + 1).toNat = p.out.length + 1 := by
      have hone : (1 : Word).toNat = 1 := rfl
      have hmax := target.isLt
      rw [BitVec.toNat_add, hone, hp.count]
      omega
    exact ⟨hcount.trans hlength.symm, hlength.trans_le hlt, _, stream_concat hbs hx,
      fun _ => (hall hlt).trans (List.append_nil _).symm, fun _ => ⟨hall hlt ▸ List.prefix_refl _, rfl⟩⟩
  · have hlt := hp.length_lt hne
    exact ⟨hp.count, hp.bound, bs, hbs, fun _ => hall hlt, fun hlength => absurd hlength (Nat.ne_of_lt hlt)⟩

theorem EmittedFrom.after_bits {bs : Bits} : ∀ {fed : Bits} {p r : Progress}, EmittedFrom d target fed p →
    decodeBits d target p bs = some r → EmittedFrom d target (fed ++ bs) r := by
  induction bs with
  | nil =>
    intro fed p r hp h
    obtain rfl : p = r := Option.some.inj h
    rwa [List.append_nil]
  | cons b bs ih =>
    intro fed p r hp h
    rw [decodeBits] at h
    split at h
    next => cases h
    next q hq =>
      rw [List.append_cons]
      exact ih (hp.after_bit hq) h

/-- The loop of R174 takes the stream of a byte sequence, with any bits after it, to the sequence (R179). -/
theorem decodeBits_stream (hfree : PrefixFree d) (hsized : CodesSized d) {xs : List Sym} {bs : Bits}
    (hbs : stream d xs = some bs) (hlength : xs.length = target.toNat) (pad : Bits) :
    decodeBits d target ⟨[], 0, []⟩ (bs ++ pad) = some ⟨[], target, xs⟩ :=
  (decodeBits_iff_decodes hfree target _ _ _).2
    (decodes_stream hfree hsized pad hbs ((Nat.zero_add _).trans hlength))

/-! ### Runs -/

/-- The host takes out of RES0 the byte that DEC_POP laid into it, if there was one (R177). -/
theorem poppedBytes_popByteRes0 (xs : List Sym) : poppedBytes (popByteRes0 xs) = xs.take 1 := by
  cases xs with
  | nil => rfl
  | cons x xs =>
    have hlt := x.isLt
    have hvalid : (popByteRes0 (x :: xs)).getLsbD 8 = true := by
      refine getLsbD_of_toNat _ _ true ?_
      rw [toNat_popByteRes0_cons]
      show _ = 1
      omega
    have hbyte : (popByteRes0 (x :: xs)).extractLsb' 0 8 = x := by
      refine extract_eq_of_toNat ?_
      rw [toNat_popByteRes0_cons]
      omega
    rw [poppedBytes, if_pos hvalid, hbyte]
    rfl

/-- What DEC_POP leaves (R177). -/
def State.popByte (s : State) : State := (s.setDout (s.dout.drop 1)).setRes (popByteRes0 s.dout) 0 0

theorem exec_decPop (s : State) : exec .decPop s = .next s.popByte := rfl

/-- The byte popped and the bytes left are the bytes buffered before. -/
theorem State.progress_eq_prepend_popByte (s : State) :
    s.progress = s.popByte.progress.prepend (poppedBytes s.popByte.res0) := by
  show s.progress = Progress.mk s.dpath s.dcount (poppedBytes (popByteRes0 s.dout) ++ s.dout.drop 1)
  rw [poppedBytes_popByteRes0, List.take_append_drop, State.progress]

theorem fedBits_eq_consumedBits {n : BitVec 4} {b : BitVec 8} (h : (Instr.decBits n b).wf = true) :
    fedBits n b = consumedBits n b := by
  have hn : 1 ≤ n.toNat ∧ n.toNat ≤ 8 := of_decide_eq_true h
  exact (consumedBits_eq n b hn.2).symm

/-- A run decodes the bits fed as the loop of R174 does: the bytes popped and those still buffered are what it emits. The
decoder table and the target stay. -/
theorem DecRun.decodeBits_eq {s u : State} {fed : Bits} {out : List Sym} (h : DecRun s fed out u)
    (hd : s.dcode = some d) :
    decodeBits d s.dtarget s.progress fed = some (u.progress.prepend out) ∧ u.dcode = some d ∧
      u.dtarget = s.dtarget := by
  induction h with
  | done s => exact ⟨rfl, hd, rfl⟩
  | bits s t u n b fed out hwf hexec hs ht _ ih =>
    cases completes_of_err_eq_zero hexec hs ht with
    | decBits _ _ d' r hd' _ hr =>
      obtain rfl : d = d' := Option.some.inj (hd.symm.trans hd')
      obtain ⟨hrest, hu⟩ := ih hd
      refine ⟨?_, hu⟩
      rw [fedBits_eq_consumedBits hwf, decodeBits_append, State.progress, hr]
      exact hrest
  | pop s t u fed out hexec _ ih =>
    obtain rfl : s.popByte = t := Host.Outcome.next.inj ((exec_decPop s).symm.trans hexec)
    obtain ⟨hrest, hu⟩ := ih hd
    refine ⟨?_, hu⟩
    rw [s.progress_eq_prepend_popByte, decodeBits_prepend, ← Progress.prepend_prepend]
    exact congrArg (Option.map _) hrest

section
variable {s u : State} {a : Word} {fed : Bits} {out : List Sym}

/-- After DEC_START a run decodes from the root (R173, R179). -/
theorem DecRun.decodeBits_start (h : DecRun (s.restartDecoder a) fed out u) (hd : s.dcode = some d) :
    decodeBits d a ⟨[], 0, []⟩ fed = some (u.progress.prepend out) ∧ u.dcode = some d ∧ u.dtarget = a :=
  h.decodeBits_eq (s := s.restartDecoder a) hd

/-- A run after DEC_START that was fed the stream of a sequence of the target's length, and any bits after it, emits the
sequence, and has counted its bytes (R179). -/
theorem DecRun.emits_stream (h : DecRun (s.restartDecoder a) fed out u) (hd : s.dcode = some d) (hfree : PrefixFree d)
    (hsized : CodesSized d) {xs : List Sym} {bs pad : Bits} (hbs : stream d xs = some bs) (hlength : xs.length = a.toNat)
    (hfed : fed = bs ++ pad) : out ++ u.dout = xs ∧ u.dcount = a := by
  obtain ⟨hrun, -⟩ := h.decodeBits_start hd
  rw [hfed, decodeBits_stream hfree hsized hbs hlength pad] at hrun
  have hfinal := Option.some.inj hrun
  exact ⟨(congrArg Progress.out hfinal).symm, (congrArg Progress.count hfinal).symm⟩

end

end

/-- Settles O51: the run is the loop of R174 on all the bits fed, from the root; the loop emits what `EmittedFrom` says,
and on the stream of a sequence the sequence. -/
theorem decodingInvertsTheStream : Obligations.DecodingInvertsTheStream := by
  intro s t u p d fed out hp hd hfree hsized hstart hrun
  have hloaded : s.dcode ≠ none := Option.ne_none_iff_exists'.2 ⟨d, hd⟩
  obtain rfl : s.restartDecoder p.a0 = t := Host.Outcome.next.inj ((decStart_completes hp hloaded).symm.trans hstart)
  obtain ⟨hdecoded, -⟩ := hrun.decodeBits_start hd
  obtain ⟨hcount, hbound, hcodes⟩ := (emittedFrom_start d p.a0).after_bits hdecoded
  refine ⟨hcount, hbound, hcodes, fun xs bs pad hbs hlength hfed => ?_⟩
  obtain ⟨hout, -⟩ := hrun.emits_stream hd hfree hsized hbs hlength hfed
  exact hout

end Sys2Proof.Machine
end

section
/-! PROOFS. The round trip of a byte sequence through the encoder and the decoder (R180): the runs exist, and every run
gives the bytes back. -/

namespace Sys2Proof.Machine

/-! ### Runs of the encoder -/

theorem EncRun.trans {s t u : State} {ops ops' : List (Option Sym)} {out out' : Bits} (h : EncRun s ops out t)
    (h' : EncRun t ops' out' u) : EncRun s (ops ++ ops') (out ++ out') u := by
  induction h with
  | done s => exact h'
  | byte s t _ x ops out hexec hs ht _ ih => exact .byte s t u x _ _ hexec hs ht (ih h')
  | pop s t _ ops out hexec _ ih =>
    rw [List.append_assoc]
    exact .pop s t u _ _ hexec (ih h')

/-- ENC_BYTE and ENC_POP leave the codes, the decoder table and, raising no error, err. -/
theorem EncRun.keeps {s u : State} {ops : List (Option Sym)} {out : Bits} (h : EncRun s ops out u) :
    u.code = s.code ∧ u.dcode = s.dcode ∧ u.err = s.err := by
  induction h with
  | done s => exact ⟨rfl, rfl, rfl⟩
  | byte s t u x ops out hexec hs ht _ ih =>
    cases completes_of_err_eq_zero hexec hs ht with
    | encByte _ _ _ _ => exact ih
  | pop s t u ops out hexec _ ih =>
    cases Host.Outcome.next.inj hexec
    exact ih

/-- Enough ENC_POPs empty obuf (R151). -/
theorem exists_encRun_drain (k : Nat) : ∀ s : State, s.obuf.length ≤ 8 * k →
    ∃ ops out u, EncRun s ops out u ∧ ops.filterMap id = [] ∧ u.obuf = [] := by
  induction k with
  | zero => exact fun s hs => ⟨[], [], s, .done s, rfl, List.eq_nil_of_length_eq_zero (Nat.le_zero.1 hs)⟩
  | succ k ih =>
    intro s hs
    obtain ⟨ops, out, u, hrun, hops, hu⟩ :=
      ih ((s.setObuf (s.obuf.drop 8)).setRes (popRes0 (s.obuf.take 8)) 0 0) (by
        rw [State.setRes_obuf, State.setObuf_obuf, List.length_drop]
        omega)
    exact ⟨none :: ops, _, u, .pop s _ u ops out rfl hrun, hops, hu⟩

/-- Emptying obuf after each byte leaves room for the next code, which has at most 255 bits (R39.2, R150). -/
theorem exists_encRun {xs : List Sym} : ∀ {s : State}, s.err = 0 → s.obuf = [] → CodesSized s.code →
    (∀ x ∈ xs, s.code.lookup x ≠ none) → ∃ ops out u, EncRun s ops out u ∧ ops.filterMap id = xs ∧ u.obuf = [] := by
  induction xs with
  | nil => exact fun {s} _ hempty _ _ => ⟨[], [], s, .done s, rfl, hempty⟩
  | cons x xs ih =>
    intro s herr hempty hsized hcoded
    obtain ⟨c, hc⟩ := Option.ne_none_iff_exists'.1 (hcoded x List.mem_cons_self)
    have hlength : c.length ≤ 255 := (hsized x c hc).2
    have hobuf : (s.obuf ++ c).length ≤ 512 := by
      rw [hempty, List.nil_append]
      omega
    have hbyte := encByte_completes hc ((List.length_append).symm.trans_le hobuf)
    obtain ⟨pops, bits, t, hdrain, hpops, ht⟩ := exists_encRun_drain 64 (s.setObuf (s.obuf ++ c)) hobuf
    obtain ⟨hcode, -, hterr⟩ := hdrain.keeps
    rw [State.setObuf_code] at hcode
    obtain ⟨ops, out, u, hrest, hops, hu⟩ := ih (hterr.trans herr) ht (hcode ▸ hsized)
      (hcode ▸ fun y hy => hcoded y (List.mem_cons_of_mem x hy))
    refine ⟨some x :: (pops ++ ops), _, u, .byte s _ u x _ _ hbyte herr herr (hdrain.trans hrest), ?_, hu⟩
    show x :: (pops ++ ops).filterMap id = x :: xs
    rw [List.filterMap_append, hpops, hops, List.nil_append]

/-! ### Runs of the decoder -/

theorem DecRun.trans {s t u : State} {fed fed' : Bits} {out out' : List Sym} (h : DecRun s fed out t)
    (h' : DecRun t fed' out' u) : DecRun s (fed ++ fed') (out ++ out') u := by
  induction h with
  | done s => exact h'
  | bits s t _ n b fed out hwf hexec hs ht _ ih =>
    rw [List.append_assoc]
    exact .bits s t u n b _ _ hwf hexec hs ht (ih h')
  | pop s t _ fed out hexec _ ih =>
    rw [List.append_assoc]
    exact .pop s t u _ _ hexec (ih h')

/-- A single bit fed by DEC_BITS lies at bit 7 of BITS (R174). -/
theorem fedBits_one (b : Bool) : fedBits 1 (packBits 8 [b]) = [b] :=
  congrArg (fun x => [x]) (getLsbD_packBits 8 [b] 0 (by decide))

section
variable {d : Table (Option Code)}

/-- A bit that decodes is taken by a DEC_BITS of that bit alone, and a DEC_POP empties dout after it. -/
theorem exists_decRun_bit {s : State} {b : Bool} {q : Progress} (herr : s.err = 0) (hd : s.dcode = some d)
    (hempty : s.dout = []) (hq : decodeBits d s.dtarget s.progress [b] = some q) :
    ∃ out u, DecRun s [b] out u ∧ u.err = 0 ∧ u.dout = [] := by
  have hwf : (Instr.decBits 1 (packBits 8 [b])).wf = true := rfl
  have hfed := fedBits_one b
  have hexec : exec (.decBits 1 (packBits 8 [b])) s = .next (s.setProgress q.path q.count q.out) := by
    refine decBits_completes hd (by rw [hempty]; decide) ?_
    rw [← fedBits_eq_consumedBits hwf, hfed, hq]
  have hrun := DecRun.bits s _ _ 1 _ [] _ hwf hexec herr herr (.pop _ _ _ _ _ (exec_decPop _) (.done _))
  rw [hfed] at hrun
  refine ⟨_, _, hrun, herr, List.drop_eq_nil_of_le ?_⟩
  obtain ⟨-, -, hout⟩ := decodeBits_keeps [b] _ q hq
  show q.out.length ≤ ([] : List Sym).length + 1
  rw [← hempty]
  exact hout

/-- Bits that decode are taken by a run: fed one by one, with a DEC_POP after each, they never fill dout (R174, R177). -/
theorem exists_decRun (bs : Bits) : ∀ {s : State} {r : Progress}, s.err = 0 → s.dcode = some d → s.dout = [] →
    decodeBits d s.dtarget s.progress bs = some r → ∃ out u, DecRun s bs out u ∧ u.dout = [] := by
  induction bs with
  | nil => exact fun {s _} _ _ hempty _ => ⟨[], s, .done s, hempty⟩
  | cons b bs ih =>
    intro s r herr hd hempty h
    rw [← List.singleton_append, decodeBits_append, Option.bind_eq_some_iff] at h
    obtain ⟨q, hq, hr⟩ := h
    obtain ⟨out, t, hbit, hterr, htempty⟩ := exists_decRun_bit herr hd hempty hq
    obtain ⟨hq', htd, htarget⟩ := hbit.decodeBits_eq hd
    obtain rfl := Option.some.inj (hq.symm.trans hq')
    rw [decodeBits_prepend, Option.map_eq_some_iff] at hr
    obtain ⟨r', hr', -⟩ := hr
    obtain ⟨out', u, hrest, hu⟩ := ih hterr htd htempty (htarget ▸ hr')
    exact ⟨_, u, hbit.trans hrest, hu⟩

end

/-! ### The round trip -/

/-- What BUILD_TREE, GEN_CODES and DEC_LOAD leave one after the other (R105, R130, R170). -/
def State.withCodec (s : State) : State :=
  (((s.setTree (buildTree s.freq)).setCode (codesOf (buildTree s.freq))).setDcode
    (codesOf (buildTree s.freq))).restartDecoder 0

/-- Settles O60: every byte of the alphabet has a code that fits an empty obuf, so the encoding run exists; the bits it pops
are the stream, which the decoder takes bit by bit and decodes to the bytes whatever follows it. -/
theorem roundTripRestoresTheBytes : Obligations.RoundTripRestoresTheBytes := by
  intro s herr hempty
  have hwf := buildTree_wf s.freq
  have hfree := hwf.codesOf_prefixFree
  have hsized := hwf.codesOf_sized
  refine ⟨_, _, s.withCodec, rfl, genCodes_after_buildTree s, decLoad_completes hfree, herr, fun xs hxs _ => ?_⟩
  refine ⟨exists_encRun herr hempty hsized fun x hx => (codesOf_buildTree_ne_none_iff s.freq x).2 (hxs x hx),
    fun ops bits w henc hops hw p hp => ?_⟩
  have hstream : stream (codesOf (buildTree s.freq)) xs = some bits := by
    have h := poppedBitsAreTheEncodedStream s.withCodec w ops bits hempty henc
    rwa [hops, hw, List.append_nil] at h
  obtain ⟨-, hdcode, hwerr⟩ := henc.keeps
  have hloaded : w.dcode ≠ none := Option.ne_none_iff_exists'.2 ⟨_, hdcode⟩
  refine ⟨_, decStart_completes (s := { w with pending := some p }) rfl hloaded, hwerr.trans herr, fun pad =>
    ⟨exists_decRun _ (hwerr.trans herr) hdcode rfl (decodeBits_stream hfree hsized hstream hp.symm pad),
      fun out z hrun => ?_⟩⟩
  obtain ⟨hout, hcount⟩ := hrun.emits_stream hdcode hfree hsized hstream hp.symm rfl
  obtain ⟨-, hzd, htarget⟩ := hrun.decodeBits_start hdcode
  exact ⟨hout, decEnd_completes (Option.ne_none_iff_exists'.2 ⟨_, hzd⟩) (by rw [hcount, htarget])⟩

end Sys2Proof.Machine
end

section
/-! PROOFS. The control commands (`45_control.md`): their acceptance while err is not 0 (R214), and what they do (R200 to
R202). -/

namespace Sys2Proof.Machine

/-! ### Acceptance -/

/-- A legal word written to CMD while BUSY = 0 is latched, unless err blocks its command (R210, R214). -/
theorem accept_legal {w : Word} {i : Instr} {s : State} (hidle : s.pending = none) (hd : decode w = .ok i)
    (hi : s.err = 0 ∨ isControl i = true) : accept w s = s.latch w := by
  have hbusy : s.busy = false := by rw [State.busy, hidle]; rfl
  have hfree : ¬ (s.err ≠ 0 ∧ isControl i = false) := fun ⟨hne, hblocked⟩ =>
    hi.elim hne fun hcontrol => Bool.false_ne_true (hblocked.symm.trans hcontrol)
  simp only [accept, hbusy, hd]
  exact if_neg hfree

/-- The write of a control command takes its turn, and err does not block it (R214). -/
theorem alwaysAccepted_of_isControl {w : Word} {i : Instr} (hw : Encodes w i) (hi : isControl i = true) :
    AlwaysAccepted w := by
  intro s rest ha hidle
  obtain ⟨hd, -⟩ := hw
  rw [step_hostWrite ha rfl (Nat.zero_le _)]
  exact congrArg Host.Outcome.next (accept_legal (s := s.setAgenda rest) hidle hd (.inr hi))

/-! ### The commands -/

/-- Settles O25. -/
theorem nopDoesNothing : Obligations.NopDoesNothing :=
  have hw : Encodes 0x00000000 .nop := encodes_encode .nop rfl rfl
  ⟨hw, alwaysAccepted_of_isControl hw rfl, fun _ => rfl⟩

/-- Settles O26: the command is `clearErr`, which writes err alone. -/
theorem clrErrClearsOnlyErr : Obligations.ClrErrClearsOnlyErr :=
  have hw : Encodes 0x01000000 .clrErr := encodes_encode .clrErr rfl rfl
  ⟨hw, alwaysAccepted_of_isControl hw rfl, fun s =>
    ⟨s.clearErr, rfl, rfl, rfl, ⟨rfl, rfl⟩, ⟨rfl, rfl, rfl⟩, ⟨rfl, rfl⟩, rfl, rfl, ⟨rfl, rfl, rfl, rfl, rfl⟩,
      ⟨rfl, rfl, rfl⟩⟩⟩

/-- Settles O27: the command is `resetBlock`, and the three views are those of the elements it resets. -/
theorem softResetResetsTheBlock : Obligations.SoftResetResetsTheBlock := by
  have hw : Encodes 0x02000000 .softReset := encodes_encode .softReset rfl rfl
  obtain ⟨-, hbufinfo, -⟩ := bufinfoFields
  exact ⟨hw, alwaysAccepted_of_isControl hw rfl, fun s =>
    ⟨s.resetBlock, rfl, resetBlock_atReset s, reset_status, treeinfo_of_no_tree rfl, hbufinfo, ⟨rfl, rfl, rfl⟩⟩⟩

end Sys2Proof.Machine
end

section
/-! PROOFS. Commands and faults (`60_exceptions.md`): the acceptance of a CMD write (R210), and that a step
always has a next state but for a stuck host (R224, R225). -/

namespace Sys2Proof.Machine

/-! ### Acceptance -/

/-- A CMD write while BUSY = 1 records CMD_BUSY, whatever the word (R210). -/
theorem accept_busy {s : State} (h : s.pending ≠ none) (w : Word) : accept w s = s.recordErr .cmdBusy :=
  if_pos (Option.isSome_iff_ne_none.2 h)

/-- A legal word that err blocks is dropped without a trace (R210, R214). -/
theorem accept_blocked {w : Word} {i : Instr} {s : State} (hidle : s.pending = none) (hd : decode w = .ok i)
    (herr : s.err ≠ 0) (hi : isControl i = false) : accept w s = s := by
  have hbusy : s.busy = false := by rw [State.busy, hidle]; rfl
  have hblocked : s.err ≠ 0 ∧ isControl i = false := ⟨herr, hi⟩
  simp only [accept, hbusy, hd]
  exact if_pos hblocked

/-- The commands accepted while err is not 0 are those of the opcodes 0x00 to 0x02 (R76, R214). -/
theorem isControl_iff_opcode {w : Word} {i : Instr} (hd : decode w = .ok i) :
    isControl i = true ↔ fieldOpc w ∈ [0x00#8, 0x01#8, 0x02#8] := by
  obtain ⟨-, rfl⟩ := encodeOfDecode w i hd
  cases i <;> simp [isControl, encode]

/-- Settles O13: the write takes its turn, and the four cases are those of `accept`. -/
theorem cmdWritesAreAcceptedInOrder : Obligations.CmdWritesAreAcceptedInOrder := by
  intro s w rest ha
  have htaken {t : State} (h : accept w (s.setAgenda rest) = t) : step s = .next t :=
    (step_hostWrite ha rfl (Nat.zero_le _)).trans (congrArg Host.Outcome.next h)
  refine ⟨fun hbusy => ?busy, fun hidle hw => ?illegal, fun hidle hw herr hopc => ?blocked,
    fun hidle hw hor => ?accepted⟩
  case busy => exact htaken (accept_busy (s := s.setAgenda rest) hbusy w)
  case illegal => exact htaken (accept_illegal (s := s.setAgenda rest) hidle hw)
  case blocked =>
    obtain ⟨i, hd⟩ := (legal_iff w).1 hw
    have hi : isControl i = false := Bool.eq_false_iff.2 (mt (isControl_iff_opcode hd).1 hopc)
    exact htaken (accept_blocked (s := s.setAgenda rest) hidle hd herr hi)
  case accepted =>
    obtain ⟨i, hd⟩ := (legal_iff w).1 hw
    exact htaken (accept_legal (s := s.setAgenda rest) hidle hd (hor.imp_right (isControl_iff_opcode hd).2))

/-! ### The engine -/

/-- Settles O15. -/
theorem idleEngineChangesNothing : Obligations.IdleEngineChangesNothing := by
  intro s hturn hidle
  rw [step_of_engineNext hturn]
  exact engineTurn_idle (s := s.setAgenda s.agenda.tail) hidle

/-- Settles O18. -/
theorem everyCommandCompletes : Obligations.EveryCommandCompletes := exec_completes

/-- The engine's turn has a next state where only legal words are pending (R224, R225). -/
theorem engineTurn_completes {s : State} (hs : InvPending s) : ∃ t, engineTurn s = .next t := by
  cases hp : s.pending with
  | none => exact ⟨s, engineTurn_idle hp⟩
  | some p =>
    obtain ⟨i, hd⟩ := (legal_iff p.cmd).1 (hs p hp)
    obtain ⟨t, ht⟩ := exec_completes i s
    exact ⟨_, engineTurn_runs hp hd ht⟩

/-- A request takes its turn, or the engine's stands in for it, or it is stuck with nothing pending (R50). -/
theorem step_request_cases {s : State} {off size : Nat} {v : Word} {rest : List Turn} (hs : InvPending s)
    (ha : s.agenda = .hostRead off size :: rest ∨ s.agenda = .hostWrite off size v :: rest) :
    (∃ t, step s = .next t) ∨
      step s = .fault (.hostStuck off size) ∧ s.pending = none ∧ admitted off size = false := by
  obtain ⟨htaken, hstuck, -⟩ := onlyAlignedWordRequestsAreAdmitted s off size v rest ha
  by_cases hadm : off % 4 = 0 ∧ off ≤ 0xFC ∧ size = 4
  · obtain ⟨t, ht, -⟩ := htaken hadm
    exact .inl ⟨t, ht⟩
  cases hp : s.pending with
  | none =>
    refine .inr ⟨hstuck hadm hp, rfl, Bool.eq_false_iff.2 fun h => hadm ?_⟩
    obtain ⟨hsize, h4, hle⟩ := (admitted_iff off size).1 h
    exact ⟨h4, hle, hsize⟩
  | some p =>
    rw [step_of_not_admitted ha hadm, hostStuckTurn, State.busy, hp]
    exact .inl (engineTurn_completes hs)

/-- Hardware reset takes its turn whatever is pending (R240). -/
theorem step_hardwareReset {s : State} {rest : List Turn} (ha : s.agenda = .hardwareReset :: rest) :
    step s = .next (hardwareReset (s.setAgenda rest)) := by
  unfold step takeTurn
  rw [ha]

/-- Settles O19: by whose turn is next; only a request can stop. -/
theorem stepsStopOnlyOnStuckHosts : Obligations.StepsStopOnlyOnStuckHosts := by
  intro s hs
  have hengine (hturn : engineNext s) : ∃ t, step s = .next t := by
    rw [step_of_engineNext hturn]
    exact engineTurn_completes (s := s.setAgenda s.agenda.tail) hs
  match ha : s.agenda with
  | [] => exact .inl (hengine (.inl ha))
  | .engine :: rest => exact .inl (hengine (.inr ⟨rest, ha⟩))
  | .hardwareReset :: rest => exact .inl ⟨_, step_hardwareReset ha⟩
  | .hostRead off size :: rest =>
    exact (step_request_cases (v := 0) hs (.inl ha)).imp_right fun ⟨hstep, hidle, hadm⟩ =>
      ⟨off, size, hstep, hidle, hadm, rest, 0, .inl rfl⟩
  | .hostWrite off size v :: rest =>
    exact (step_request_cases hs (.inr ha)).imp_right fun ⟨hstep, hidle, hadm⟩ =>
      ⟨off, size, hstep, hidle, hadm, rest, v, .inr rfl⟩

end Sys2Proof.Machine
end

section
/-! PROOFS. Reset and hazards (`70_reset_and_hazards.md`): hardware reset (R240), the end of every run of possible turns
(R251, R252), and what a step can still do after it. -/

namespace Sys2Proof.Machine

/-! ### Hardware reset -/

/-- Settles O16: the turn is `resetBlock` on the rest of the agenda. -/
theorem hardwareResetResetsTheBlock : Obligations.HardwareResetResetsTheBlock := fun s rest ha =>
  ⟨(s.setAgenda rest).resetBlock, step_hardwareReset ha, resetBlock_atReset _, rfl, rfl, rfl⟩

/-! ### The end of a run -/

/-- The engine's turn leaves nothing pending and the agenda as it is. -/
theorem engineTurn_pending_agenda {s t : State} (h : engineTurn s = .next t) :
    t.pending = none ∧ t.agenda = s.agenda := by
  obtain ⟨hidle, rfl⟩ | ⟨p, i, u, -, -, hx, rfl⟩ := engineTurn_cases h
  · exact ⟨hidle, rfl⟩
  · obtain ⟨hagenda, -, -⟩ := exec_sameModel hx
    exact ⟨rfl, hagenda⟩

/-- The pending word stays legal, whatever err holds (R210). -/
theorem invPending_step {s t : State} (hs : InvPending s) (h : step s = .next t) : InvPending t := by
  obtain ⟨i, p, u, -, -, -, rfl⟩ | ⟨rest, -, rfl⟩ | ⟨w, rest, -, rfl⟩ | ⟨rest, a, c, r, d, rfl⟩ := step_kinds h
  · exact invPending_none rfl
  · exact invPending_none rfl
  · exact invPending_accept (s := s.setAgenda rest) hs w
  · exact hs

/-- With the next turn the engine's, a step uses up that turn and leaves nothing pending. -/
theorem step_of_engineNext_completes {s : State} (hs : InvPending s) (h : engineNext s) :
    ∃ t, step s = .next t ∧ t.pending = none ∧ t.agenda = s.agenda.tail := by
  obtain ⟨t, ht⟩ := engineTurn_completes (s := s.setAgenda s.agenda.tail) hs
  exact ⟨t, (step_of_engineNext h).trans ht, engineTurn_pending_agenda ht⟩

/-- An admitted request takes its turn, be it a read or a write (R50). -/
theorem step_of_admitted {s : State} {off size : Nat} {v : Word} {rest : List Turn}
    (ha : s.agenda = .hostRead off size :: rest ∨ s.agenda = .hostWrite off size v :: rest)
    (hadm : admitted off size = true) : ∃ t, step s = .next t ∧ t.agenda = rest := by
  obtain ⟨htaken, -, -⟩ := onlyAlignedWordRequestsAreAdmitted s off size v rest ha
  obtain ⟨hsize, h4, hle⟩ := (admitted_iff off size).1 hadm
  exact htaken ⟨h4, hle, hsize⟩

/-- A possible turn is used up in one step. -/
theorem step_of_possible {s : State} {x : Turn} {rest : List Turn} (hs : InvPending s) (ha : s.agenda = x :: rest)
    (hx : x.possible = true) : ∃ t, step s = .next t ∧ t.agenda = rest := by
  cases x with
  | engine =>
    obtain ⟨t, hstep, -, hagenda⟩ := step_of_engineNext_completes hs (.inr ⟨rest, ha⟩)
    rw [ha] at hagenda
    exact ⟨t, hstep, hagenda⟩
  | hostWrite off size v => exact step_of_admitted (.inr ha) hx
  | hostRead off size => exact step_of_admitted (v := 0) (.inl ha) hx
  | hardwareReset => exact ⟨_, step_hardwareReset ha, rfl⟩

theorem run_succ {M : Host.Core} {s t : M.State} (h : M.step s = .next t) (k : Nat) : M.run (k + 1) s = M.run k t := by
  rw [Host.Core.run, h]

/-- Settles O20, by induction on the agenda: each step uses up one possible turn, and the step with no turn left is the
engine's, which leaves nothing pending. -/
theorem runsEndAfterTheAgenda : Obligations.RunsEndAfterTheAgenda := by
  intro s hs hpossible
  induction ha : s.agenda generalizing s with
  | nil =>
    obtain ⟨t, hstep, hidle, hagenda⟩ := step_of_engineNext_completes hs (.inl ha)
    rw [ha] at hagenda
    have hended : Ended t := ⟨by simp [hagenda], hidle⟩
    exact ⟨t, run_succ (M := Sys2Proof.core) hstep 0, hagenda, hended⟩
  | cons x rest ih =>
    rw [ha] at hpossible
    obtain ⟨hx, hrest⟩ := List.forall_mem_cons.1 hpossible
    obtain ⟨t, hstep, rfl⟩ := step_of_possible hs ha hx
    obtain ⟨u, hrun, hend⟩ := ih t (invPending_step hs hstep) hrest rfl
    exact ⟨u, (run_succ (M := Sys2Proof.core) hstep _).trans hrun, hend⟩

/-! ### After the end -/

/-- After the end of a run only the engine or hardware reset can have the next turn (R252). -/
theorem Ended.nextTurn {s : State} (hs : Ended s) : engineNext s ∨ ∃ rest, s.agenda = .hardwareReset :: rest := by
  obtain ⟨hturns, -⟩ := hs
  match ha : s.agenda with
  | [] => exact .inl (.inl ha)
  | .engine :: rest => exact .inl (.inr ⟨rest, ha⟩)
  | .hardwareReset :: rest => exact .inr ⟨rest, rfl⟩
  | .hostRead off size :: rest => simp [ha, Turn.isHost] at hturns
  | .hostWrite off size v :: rest => simp [ha, Turn.isHost] at hturns

theorem not_hardwareReset_of_engineNext {s : State} (h : engineNext s) (rest : List Turn) :
    s.agenda ≠ .hardwareReset :: rest := by
  obtain ha | ⟨rest', ha⟩ := h <;> simp [ha]

/-- Settles O59: an idle engine's turn changes the agenda alone, and hardware reset is the only other turn left. -/
theorem endedRunsStayEnded : Obligations.EndedRunsStayEnded := by
  intro s t hs h
  have ⟨hturns, hidle⟩ := hs
  have htail : ∀ x ∈ s.agenda.tail, Turn.isHost x = false := fun x hx => hturns x (List.mem_of_mem_tail hx)
  obtain hturn | ⟨rest, ha⟩ := hs.nextTurn
  · obtain rfl := Host.Outcome.next.inj ((idleEngineChangesNothing s hturn hidle).symm.trans h)
    exact ⟨⟨htail, hidle⟩, rfl, fun _ => sameBlock_withModel s _ _ _,
      fun ⟨rest, ha⟩ => absurd ha (not_hardwareReset_of_engineNext hturn rest)⟩
  · obtain rfl := Host.Outcome.next.inj ((step_hardwareReset ha).symm.trans h)
    rw [ha] at htail
    exact ⟨⟨htail, rfl⟩, rfl, fun hne => absurd ha (hne rest), fun _ => resetBlock_atReset _⟩

end Sys2Proof.Machine
end
